-- ==== Sys2Proof/Word.lean ====
section
/-! DEFINITION. The word types of the block (00_scope R6, R9): host words, payload bytes, symbols, node indices,
node frequencies, host-port addresses, and bit strings. -/

namespace Sys2Proof

/-- A host-port word, `DATA_W = 32` bits (00_scope R6; 20_memory R41). -/
abbrev Word := BitVec 32

/-- One buffer entry of IB or OB, 8 bits (10_state R25, R26). -/
abbrev Byte := BitVec 8

/-- A symbol, `SYM_W = 8` bits (00_scope R6). -/
abbrev Symbol := BitVec 8

/-- A node index, `NIDX_W = 9` bits (00_scope R6; 10_state R18). -/
abbrev NodeIdx := BitVec 9

/-- A node's frequency, `NFREQ_W = 40` bits, unsigned (00_scope R6; 10_state R18). -/
abbrev NodeFreq := BitVec 40

/-- A word address of the host port, `ADDR_W = 20` bits (00_scope R6; 20_memory R40). -/
abbrev Addr := BitVec 20

/-- A bit string, first bit first, `true` for 1 (00_scope R9, §6 "Bit strings"). -/
abbrev BitString := List Bool

end Sys2Proof
end

