-- ==== Sys2Proof/Config.lean ====
section
/-! DEFINITION. What one instance of the block fixes (00_scope R6) and the values the spec leaves free
(93_implementation_defined U1 to U4). -/

namespace Sys2Proof.Config

/-- Node store entries, `2*A - 1` (00_scope R6). -/
def nodeCap : Nat := 511

/-- Alphabet size, priority-queue entries and code-table entries, `A = PQ_CAP = 256` (00_scope R6). -/
def alphabet : Nat := 256

/-- Longest possible code in bits (00_scope R6, R8). -/
def codeMax : Nat := 255

/-- Largest legal capacity of a buffer (00_scope R6). -/
def bufferMax : Nat := 65536

/-- The two parameters of 00_scope R6: the capacities of IB and OB. -/
structure Params where
  ibCap : Nat
  obCap : Nat
  deriving DecidableEq, Repr

/-- The value 00_scope R6 and 92 D11 give for this hardware. -/
def Params.standard : Params := { ibCap := bufferMax, obCap := bufferMax }

/-- FREE VALUE (93 U3, 10_state R25). The byte of IB entry `k` that nothing has written since the reset numbered
`tag` (log 3). -/
opaque freeIb : Nat → Nat → Byte

/-- FREE VALUE (93 U2, 10_state R26). The byte of OB entry `k` at or above OUT_LEN, in the interval numbered `tag`
between two codec commands (log 4). -/
opaque freeOb : Nat → Nat → Byte

/-- FREE VALUE (93 U4, 20_memory R54). The word the `n`-th free choice returns to a read of anything but STATUS while
the engine is busy (log 5). -/
opaque freeBusyWord : Nat → Word

/-- FREE VALUE (93 U1, 70 R150). Whether, at the `n`-th free choice, the command in flight has completed before the
host's next transaction (log 6). -/
opaque freeFinished : Nat → Bool

end Sys2Proof.Config
end

