-- ==== Sys2Proof/Syntax.lean ====
section
/-! DEFINITION. The commands (30_encoding R62): one constructor per row of spec/opcode_table.json. No command carries
an operand (30_encoding R61). -/

namespace Sys2Proof

/-- The eight commands of 30_encoding R62. -/
inductive Instr where
  /-- `CLR`: discard the table, the tree and the code tables (40 R72). -/
  | clr
  /-- `BUILDT`: build the tree from the frequency table (41 R75). -/
  | buildt
  /-- `DERIVE`: walk the tree and fill both code tables (42 R90). -/
  | derive
  /-- `CONSTRUCT`: `BUILDT` then `DERIVE` in one command (42 R95). -/
  | construct
  /-- `ENC`: encode into packed bytes (43 R100). -/
  | enc
  /-- `ENCS`: encode into one character a bit (43 R105). -/
  | encs
  /-- `DEC`: decode packed bytes (44 R110). -/
  | dec
  /-- `DECS`: decode one character a bit (44 R115). -/
  | decs
  deriving DecidableEq, Repr

end Sys2Proof
end

