-- ==== Sys2Proof/WellFormed.lean ====
section
/-! DEFINITION. Which terms are well formed: commands (none carries an operand), command words (30_encoding R60, R62,
R63) and parameters (00_scope R6). -/

namespace Sys2Proof

/-- A command has no operand field to check (30_encoding R61), so each is well formed. -/
def Instr.wf : Instr → Bool
  | .clr => true
  | .buildt => true
  | .derive => true
  | .construct => true
  | .enc => true
  | .encs => true
  | .dec => true
  | .decs => true

/-- The field ZERO, bits 31:8 of a command word, is 0 (30_encoding R60). -/
def zeroFieldClear (w : Word) : Bool := w.extractLsb' 8 24 == 0#24

/-- OPCODE, bits 7:0 of a command word, is one of the eight of 30_encoding R62. -/
def opcodeDefined (w : Word) : Bool :=
  [0x01#8, 0x02#8, 0x03#8, 0x04#8, 0x08#8, 0x09#8, 0x0A#8, 0x0B#8].contains (w.extractLsb' 0 8)

/-- A command word that is not illegal by 30_encoding R63. -/
def commandWordWf (w : Word) : Bool := zeroFieldClear w && opcodeDefined w

/-- `1 <= IB_CAP <= 65536` and `1 <= OB_CAP <= 65536` (00_scope R6). -/
def Config.Params.wf (c : Config.Params) : Bool :=
  (1 ≤ c.ibCap && c.ibCap ≤ Config.bufferMax) && (1 ≤ c.obCap && c.obCap ≤ Config.bufferMax)

end Sys2Proof
end

