-- ==== Sys2Proof/Decode.lean ====
section
/-! DEFINITION. Decoding and encoding of command words (30_encoding R60 to R64). -/

namespace Sys2Proof

/-- Why a word is no command (30_encoding R63). -/
inductive DecodeError where
  /-- Bits 31:8 are not all 0. -/
  | reservedBits
  /-- Bits 31:8 are 0 and the opcode is undefined. -/
  | reservedOpcode
  deriving DecidableEq, Repr

/-- OPCODE, bits 7:0 (30_encoding R60). -/
def opcodeField (w : Word) : BitVec 8 := w.extractLsb' 0 8

/-- ZERO, bits 31:8 (30_encoding R60). -/
def zeroField (w : Word) : BitVec 24 := w.extractLsb' 8 24

/-- The opcode map of 30_encoding R62. -/
def decodeOpcode (op : BitVec 8) : Option Instr :=
  if op = 0x01#8 then some .clr
  else if op = 0x02#8 then some .buildt
  else if op = 0x03#8 then some .derive
  else if op = 0x04#8 then some .construct
  else if op = 0x08#8 then some .enc
  else if op = 0x09#8 then some .encs
  else if op = 0x0A#8 then some .dec
  else if op = 0x0B#8 then some .decs
  else none

/-- Total decoder of a command word: reserved bits are checked before the opcode (30_encoding R63; 60 R126). -/
def decode (w : Word) : Except DecodeError Instr :=
  if zeroField w ≠ 0#24 then .error .reservedBits
  else
    match decodeOpcode (opcodeField w) with
    | some i => .ok i
    | none => .error .reservedOpcode

/-- OPCODE of a command (30_encoding R62). -/
def opcodeOf : Instr → BitVec 8
  | .clr => 0x01#8
  | .buildt => 0x02#8
  | .derive => 0x03#8
  | .construct => 0x04#8
  | .enc => 0x08#8
  | .encs => 0x09#8
  | .dec => 0x0A#8
  | .decs => 0x0B#8

/-- The word of a command: ZERO above OPCODE (30_encoding R60). -/
def encode (i : Instr) : Word := 0#24 ++ opcodeOf i

/-- The command read from an instruction whose bits are `w`, bit 0 the least significant of the one 32-bit word. A
command is one word (30_encoding R60, R64), so a number that does not fit one word is no command. -/
def decodeTableWord (nbits w : Nat) : Option Instr :=
  if 32 < nbits ∨ 2 ^ 32 ≤ w then none
  else
    match decode (BitVec.ofNat 32 w) with
    | .ok i => some i
    | .error _ => none

end Sys2Proof
end

