-- ==== Sys2Proof/Machine/State.lean ====
section
/-! DEFINITION. The machine's state as plain data (10_state R10 to R30), the fault records and results of commands, the
model's own refusals, and the state after reset. -/

namespace Sys2Proof.Machine

/-- How much derived state exists (10_state R27). The value 3 of the two bits never occurs (10_state R14). -/
inductive Phase where
  | empty
  | tree
  | ready
  deriving DecidableEq, Repr

/-- A valid entry of NM (10_state R18). Its KIND is the constructor; the fields R18 says are 0 in a leaf or in an
internal node are not stored (log 8). -/
inductive Node where
  | leaf (sym : Symbol) (freq : NodeFreq)
  | internal (freq : NodeFreq) (left right : NodeIdx)
  deriving DecidableEq, Repr

/-- A valid entry of ICT (10_state R23). LEN is the length of `code`. -/
structure IctEntry where
  sym : Symbol
  code : BitString
  deriving DecidableEq, Repr

/-- A table with entries at numbered places, the present ones listed with their numbers strictly rising (log 8). -/
abbrev Table (α : Type) := List (Nat × α)

/-- The written entries of IB, each with its index (10_state R25; log 3). -/
abbrev Memory := List Host.Cell

/-- The canonical form of a table: numbers strictly rising and below `bound`. -/
abbrev Table.wf {α : Type} (bound : Nat) (t : Table α) : Prop :=
  List.Pairwise (fun a b => a.1 < b.1) t ∧ ∀ c ∈ t, c.1 < bound

/-- The canonical form of IB: indices strictly rising and below `IB_CAP`. An unlisted entry reads as a free byte, so a
listed entry never equals what an unlisted one is known to read as (log 3). -/
abbrev Memory.wf (cap : Nat) (m : Memory) : Prop := Table.wf cap m

/-- One line of the host's script (30_encoding R65), and the reset input (70 R140). -/
inductive Line where
  /-- `WR`: the transaction `MemWrite(addr, 1, v)`. A write to CMD is not followed by a wait. -/
  | wr (addr : Addr) (v : Word)
  /-- `RD`: the transaction `MemRead(addr, 1)`. -/
  | rd (addr : Addr)
  /-- A mnemonic's line: `WR CMD, w` followed by `WAIT`. -/
  | cmd (w : Word)
  /-- `WAIT`: read STATUS until BUSY is 0. -/
  | wait
  /-- `rst_n` asserted and released. -/
  | reset
  deriving DecidableEq, Repr

/-- The fault causes of 60_exceptions R120, CODE and SUB together. -/
inductive CmdFault where
  | emptyTable
  | nonpositiveFreq
  | malformedRoot
  | unknownSymbol
  | midcode
  | short
  | badchar
  | inputOverflow
  | outputOverflow
  | reservedOpcode
  | reservedBits
  | wrongPhase
  deriving DecidableEq, Repr

/-- The machine's state. The fields from `engine` to `ob` are the block's (10_state); `cfg` is its configuration
(00_scope R6); the rest are the model's own (INVENTORY.md, State). -/
structure State where
  /-- IB_CAP and OB_CAP (00_scope R6; log 7). -/
  cfg : Config.Params
  /-- The command word in flight, none while the engine is idle (10_state R10); STATUS.BUSY is a view of it. -/
  engine : Option Word
  /-- STATUS.DONE (10_state R14). -/
  doneFlag : Bool
  /-- STATUS.ERR (10_state R14). -/
  errFlag : Bool
  /-- STATUS.PHASE (10_state R14, R27). -/
  phase : Phase
  /-- STATUS.HERR (10_state R14). -/
  herrFlag : Bool
  /-- ERR (10_state R15). -/
  errReg : Word
  /-- ERRPOS (10_state R15). -/
  errPos : Word
  /-- IN_LEN (10_state R16). -/
  inLen : Word
  /-- IN_BITS (10_state R16). -/
  inBits : Word
  /-- OUT_LEN (10_state R16). -/
  outLen : Word
  /-- OUT_BITS (10_state R16). -/
  outBits : Word
  /-- NSYM (10_state R20). -/
  nsym : BitVec 9
  /-- ROOT (10_state R20). -/
  root : NodeIdx
  /-- FT, the entries with PRESENT = 1 and their FREQ (10_state R17). -/
  ft : Table Word
  /-- NM, the valid entries from index 0; NNODES is their number (10_state R18, R20). -/
  nm : List Node
  /-- PQ, the live entries from position 0; PQ_LEN is their number (10_state R21). -/
  pq : List NodeIdx
  /-- CT, the valid entries (10_state R22). -/
  ct : Table BitString
  /-- ICT, the valid entries from index 0 (10_state R23). -/
  ict : List IctEntry
  /-- IB, the entries written since reset (10_state R25). -/
  ib : Memory
  /-- OB, the bytes the last codec command that succeeded stored (10_state R26). -/
  ob : List Byte
  /-- Which free content IB has (log 3). -/
  ibTag : Nat
  /-- Which free content the dead part of OB has (log 4). -/
  obTag : Nat
  /-- The next free choice of a host that does not poll (log 5, log 6). -/
  pick : Nat
  /-- What the host will do, in order (10_state R12, R29; log 2). -/
  script : List Line
  /-- The script index `cp` (10_state R12; log 2). -/
  cp : Nat
  /-- The word the host's last read returned (20_memory R40; log 2). -/
  rdata : Option Word
  deriving DecidableEq, Repr

/-- Reasons to stop for good. There are none: every fault of this hardware ends a command and leaves the engine idle
(60 R127, R128), and no host access faults (60 R134). Nobody raises one, so the type is safe (log 12). -/
inductive Fault where
  deriving DecidableEq, Repr

/-- Reasons the model gives no next state. -/
inductive Refusal where
  /-- Raised by `exec` for an instruction without a meaning. Safe: no claim is made of it. -/
  | notModelled (mnemonic : String)
  /-- Raised by DERIVE and CONSTRUCT when the node store is not a tree below ROOT: the treatment "refuse" of 93 U13.
  Safe: no run reaches it (10_state R19; log 9). -/
  | malformedTree
  deriving DecidableEq, Repr

/-- What the body of a command comes to: completion, `raise` (00_scope §7) with the position word, or a refusal. -/
inductive Result where
  | done (s : State)
  | raise (f : CmdFault) (pos : Word)
  | refuse (r : Refusal)
  deriving DecidableEq, Repr

/-- The state after reset (10_state R30; 70 R140, R141), with nothing on the host's script. -/
def State.reset : State where
  cfg := Config.Params.standard
  engine := none
  doneFlag := false
  errFlag := false
  phase := .empty
  herrFlag := false
  errReg := 0
  errPos := 0
  inLen := 0
  inBits := 0
  outLen := 0
  outBits := 0
  nsym := 0
  root := 0
  ft := []
  nm := []
  pq := []
  ct := []
  ict := []
  ib := []
  ob := []
  ibTag := 0
  obTag := 0
  pick := 0
  script := []
  cp := 0
  rdata := none

end Sys2Proof.Machine
end

