-- ==== Sys2Proof/Machine/Flags.lean ====
section
/-! DEFINITION. The flags and fault codes as the host reads them: STATUS (10_state R14), ERR (10_state R15), CODE and
SUB of every fault (60 R120). -/

namespace Sys2Proof.Machine

/-- STATUS.BUSY: a command is in flight (10_state R14). -/
def State.busy (s : State) : Bool := s.engine.isSome

/-- The two bits of STATUS.PHASE (10_state R14, R27). -/
def Phase.bits : Phase → BitVec 2
  | .empty => 0
  | .tree => 1
  | .ready => 2

/-- The word a read of STATUS returns (10_state R14): HERR, PHASE, ERR, DONE, BUSY from bit 5 down, 0 above. -/
def State.statusWord (s : State) : Word :=
  0#26 ++ BitVec.ofBool s.herrFlag ++ s.phase.bits ++ BitVec.ofBool s.errFlag ++ BitVec.ofBool s.doneFlag
    ++ BitVec.ofBool s.busy

/-- CODE of a fault (60 R120). -/
def CmdFault.code : CmdFault → BitVec 8
  | .emptyTable => 1
  | .nonpositiveFreq => 1
  | .malformedRoot => 1
  | .unknownSymbol => 2
  | .midcode => 3
  | .short => 3
  | .badchar => 3
  | .inputOverflow => 4
  | .outputOverflow => 4
  | .reservedOpcode => 5
  | .reservedBits => 5
  | .wrongPhase => 5

/-- SUB of a fault (60 R120). -/
def CmdFault.sub : CmdFault → BitVec 8
  | .emptyTable => 1
  | .nonpositiveFreq => 2
  | .malformedRoot => 3
  | .unknownSymbol => 0
  | .midcode => 1
  | .short => 2
  | .badchar => 3
  | .inputOverflow => 1
  | .outputOverflow => 2
  | .reservedOpcode => 1
  | .reservedBits => 2
  | .wrongPhase => 3

/-- The word `(sub << 8) | code(F)` that fault entry latches in ERR (60 R127). -/
def CmdFault.errWord (f : CmdFault) : Word := 0#16 ++ f.sub ++ f.code

/-- CODE of the fault register, `ERR[7:0]` (10_state R15). -/
def State.errCode (s : State) : BitVec 8 := s.errReg.extractLsb' 0 8

/-- SUB of the fault register, `ERR[15:8]` (10_state R15). -/
def State.errSub (s : State) : BitVec 8 := s.errReg.extractLsb' 8 8

end Sys2Proof.Machine
end

