-- ==== Sys2Proof/Machine/Ops.lean ====
section
/-! DEFINITION. The operations every command and every host access is made of: tables, register views, buffers, the frame of a
command (40 R70), fault entry and leaving a fault (60 R127, R128), the reset of the block (70 R140). -/

namespace Sys2Proof.Machine

/-! ### Tables and buffers -/

/-- The entry at number `k`, none if it is absent. -/
def Table.get? {α : Type} (t : Table α) (k : Nat) : Option α :=
  match t with
  | [] => none
  | (j, a) :: r => if j = k then some a else Table.get? r k

/-- The table with entry `k` present and equal to `a`; it keeps the canonical form. -/
def Table.set {α : Type} (t : Table α) (k : Nat) (a : α) : Table α :=
  match t with
  | [] => [(k, a)]
  | (j, b) :: r =>
    if j < k then (j, b) :: Table.set r k a
    else if j = k then (k, a) :: r
    else (k, a) :: (j, b) :: r

/-- The table with entry `k` absent. -/
def Table.erase {α : Type} (t : Table α) (k : Nat) : Table α := t.filter (fun c => c.1 != k)

/-- Entry `k` of IB: the byte written, or the free byte of an entry nothing has written since reset (10_state R25;
93 U3). -/
def State.ibByte (s : State) (k : Nat) : Byte := (Table.get? s.ib k).getD (Config.freeIb s.ibTag k)

/-- A host store to entry `k` of IB (20_memory R49). -/
def State.writeIb (s : State) (k : Nat) (v : Byte) : State := { s with ib := Table.set s.ib k v }

/-- Entry `k` of OB: live below OUT_LEN, a free byte at or above it (10_state R26; 93 U2). -/
def State.obByte (s : State) (k : Nat) : Byte :=
  if k < s.outLen.toNat then (s.ob[k]?).getD (Config.freeOb s.obTag k) else Config.freeOb s.obTag k

/-! ### Register and field views -/

/-- NNODES, the number of allocated node-store entries (10_state R20). -/
def State.nnodes (s : State) : BitVec 9 := BitVec.ofNat 9 s.nm.length

/-- PQ_LEN, the number of live queue entries (10_state R21). -/
def State.pqLen (s : State) : BitVec 9 := BitVec.ofNat 9 s.pq.length

/-- `FT[k].FREQ`, 0 when the entry is absent (10_state R17). -/
def State.ftFreq (s : State) (k : Nat) : Word := (Table.get? s.ft k).getD 0

/-- `FT[k].PRESENT` (10_state R17). -/
def State.ftPresent (s : State) (k : Nat) : Bool := (Table.get? s.ft k).isSome

/-- `NM[i].FREQ` of a valid entry (10_state R18). -/
def Node.freq : Node → NodeFreq
  | .leaf _ f => f
  | .internal f _ _ => f

/-- `NM[i].FREQ` in a node store, 0 where `VALID = 0` (10_state R18). -/
def nodeFreq (nm : List Node) (i : NodeIdx) : NodeFreq :=
  match nm[i.toNat]? with
  | some n => n.freq
  | none => 0

/-- `CT[s].VALID` (10_state R22). -/
def ctValid (ct : Table BitString) (sym : Symbol) : Bool := (Table.get? ct sym.toNat).isSome

/-- `CT[s].CODE` as a bit string, empty where `VALID = 0` (10_state R22). -/
def ctCode (ct : Table BitString) (sym : Symbol) : BitString := (Table.get? ct sym.toNat).getD []

/-- `ict_lookup(c)` (10_state R24). -/
def ictLookup (ict : List IctEntry) (c : BitString) : Option Symbol :=
  (ict.find? (fun e => e.code == c)).map IctEntry.sym

/-! ### The frame of a command -/

/-- Acceptance of a word written to CMD (40 R70): BUSY up, DONE and STATUS.ERR down. It is also what leaves a fault
(60 R128). -/
def State.accept (s : State) (w : Word) : State :=
  { s with engine := some w, doneFlag := false, errFlag := false }

/-- Normal completion (40 R70): the fault registers cleared, BUSY down, DONE up. -/
def State.complete (s : State) : State :=
  { s with engine := none, doneFlag := true, errReg := 0, errPos := 0 }

/-- The results of a codec command discarded: OUT_LEN and OUT_BITS 0 and every OB entry unspecified (60 R127). -/
def State.dropOutput (s : State) : State :=
  { s with outLen := 0, outBits := 0, ob := [], obTag := s.obTag + 1 }

/-- Fault entry (60 R127), the one operation every `raise` goes through. `codec`: the word decoded to ENC, ENCS, DEC
or DECS. -/
def State.faultEntry (s : State) (codec : Bool) (f : CmdFault) (pos : Word) : State :=
  let s := if codec then s.dropOutput else s
  { s with errReg := f.errWord, errPos := pos, errFlag := true, engine := none, doneFlag := true }

/-- The codec commands, those whose faults discard the output (60 R127). -/
def Instr.isCodec : Instr → Bool
  | .clr => false
  | .buildt => false
  | .derive => false
  | .construct => false
  | .enc => true
  | .encs => true
  | .dec => true
  | .decs => true

/-- The phase table (40 R71): none where the command is legal, else the fault and its position word. -/
def phaseFault (i : Instr) (p : Phase) : Option (CmdFault × Word) :=
  match i, p with
  | .clr, _ => none
  | .buildt, .empty => none
  | .buildt, _ => some (.wrongPhase, encode i)
  | .derive, .empty => some (.malformedRoot, 0)
  | .derive, .tree => none
  | .derive, .ready => some (.wrongPhase, encode i)
  | .construct, .empty => none
  | .construct, _ => some (.wrongPhase, encode i)
  | .enc, .ready => none
  | .enc, _ => some (.wrongPhase, encode i)
  | .encs, .ready => none
  | .encs, _ => some (.wrongPhase, encode i)
  | .dec, .ready => none
  | .dec, _ => some (.wrongPhase, encode i)
  | .decs, .ready => none
  | .decs, _ => some (.wrongPhase, encode i)

/-- How an accepted command ends: a `raise` enters the fault from the state at acceptance, since every body raises
before its first write (60 R127). -/
def finish (i : Instr) (s : State) : Result → Host.Outcome State Fault Refusal
  | .done t => .next t.complete
  | .raise f pos => .next (s.faultEntry (Instr.isCodec i) f pos)
  | .refuse r => .refused r

/-- The frame of every command (40 R70), from acceptance to completion in one step (20_memory R53): accept, check the
phase, run the body. -/
def command (i : Instr) (body : State → Result) (s : State) : Host.Outcome State Fault Refusal :=
  let s := s.accept (encode i)
  match phaseFault i s.phase with
  | some (f, pos) => finish i s (.raise f pos)
  | none => finish i s (body s)

/-- An accepted word that is no command (30_encoding R63; 40 R70): IllegalCommand with the word as position. -/
def illegalWord (e : DecodeError) (w : Word) (s : State) : State :=
  match e with
  | .reservedBits => (s.accept w).faultEntry false .reservedBits w
  | .reservedOpcode => (s.accept w).faultEntry false .reservedOpcode w

/-- A word presented on CMD of an idle engine (40 R70; 30_encoding R63): a command is accepted and stays in flight, a
word that is no command "completes at once" with its fault, before any other transaction (DEDUCED, log 17). -/
def State.presentWord (s : State) (w : Word) : State :=
  match decode w with
  | .ok _ => s.accept w
  | .error e => illegalWord e w s

/-- A host write the block drops: nothing changes but HERR (20_memory R51; 60 R131). -/
def State.dropWrite (s : State) : State := { s with herrFlag := true }

/-- Reset of the block (10_state R30; 70 R140): a command in flight is abandoned, the free contents of IB and OB are
new ones; the configuration and the host's own side stay. -/
def State.resetBlock (s : State) : State :=
  { State.reset with
    cfg := s.cfg, ibTag := s.ibTag + 1, obTag := s.obTag + 1, pick := s.pick,
    script := s.script, cp := s.cp, rdata := s.rdata }

/-- The next state of an outcome, if it has one. -/
def nextState (o : Host.Outcome State Fault Refusal) : Option State :=
  match o with
  | .next t => some t
  | .fault _ => none
  | .refused _ => none

/-- Continue from the next state of an outcome. -/
def andThen (o : Host.Outcome State Fault Refusal) (k : State → Host.Outcome State Fault Refusal) :
    Host.Outcome State Fault Refusal :=
  match o with
  | .next t => k t
  | .fault f => .fault f
  | .refused r => .refused r

end Sys2Proof.Machine
end

