-- ==== Sys2Proof/Machine/Operands.lean ====
section
/-! DEFINITION. The operand forms of the commands: every operand is implicit (30_encoding R61). The mapping in FT,
the live part of IB as symbols, payload bits or characters, and the bit and byte orders of 00_scope R9, 20_memory R50,
R55 and 43 R103. -/

namespace Sys2Proof.Machine

/-! ### Arithmetic of the notation -/

/-- `sint32(w)` (00_scope R9). -/
def sint32 (w : Word) : Int := w.toInt

/-- `ceil_div(a, b)`, the least `q` with `q * b >= a`, for `b >= 1` (00_scope R9). -/
def ceilDiv (a b : Nat) : Nat := (a + (b - 1)) / b

/-! ### Bit order -/

/-- Bit `q` of a bit string, 0 past its end (43 R100, `bit(q)`). -/
def bitAt (b : BitString) (q : Nat) : Bool := (b[q]?).getD false

/-- Bits `start .. start + n - 1` as a number, the first one the most significant (00_scope R9 "MSB-first"). -/
def msbFirst (b : BitString) (start : Nat) : Nat → Nat
  | 0 => 0
  | n + 1 => 2 * msbFirst b start n + (bitAt b (start + n)).toNat

/-- Payload byte `k` of a bit string (43 R103). -/
def packByte (b : BitString) (k : Nat) : Byte := BitVec.ofNat 8 (msbFirst b (8 * k) 8)

/-- The payload of a bit string: `ceil_div(n, 8)` bytes, padded with zeros at the low end of the last (43 R103). -/
def packBits (b : BitString) : List Byte := (List.range (ceilDiv b.length 8)).map (packByte b)

/-- Bit `q` of a stream of payload bytes: bit `7 - (q mod 8)` of byte `q div 8` (44 R112). -/
def payloadBit (byte : Nat → Byte) (q : Nat) : Bool := (byte (q / 8)).getLsbD (7 - q % 8)

/-- The first `n` bits of a stream of payload bytes (44 R112; 90 C2). -/
def unpackBits (byte : Nat → Byte) (n : Nat) : BitString := (List.range n).map (payloadBit byte)

/-- Word `w` of a CODE field, `1 <= w <= 8` (20_memory R50). -/
def codeWord (c : BitString) (w : Nat) : Word := BitVec.ofNat 32 (msbFirst c (32 * (w - 1)) 32)

/-! ### Characters of the bit-string form (43 R106) -/

/-- The character of a bit: 0x30 or 0x31. -/
def bitChar (b : Bool) : Byte := if b then 0x31 else 0x30

/-- A byte that is the character of a bit (44 R116). -/
def isBitChar (c : Byte) : Bool := c == 0x30 || c == 0x31

/-- The bit of a character. -/
def charBit (c : Byte) : Bool := c == 0x31

/-! ### The operands themselves -/

/-- `IB[0 .. n-1]`. -/
def State.ibBytes (s : State) (n : Nat) : List Byte := (List.range n).map s.ibByte

/-- The live part of IB, `IB[0 .. IN_LEN-1]` (10_state R25). -/
def State.input (s : State) : List Byte := s.ibBytes s.inLen.toNat

/-- The bits DEC decodes: the first IN_BITS bits of IB (44 R110, R112). -/
def State.payloadBits (s : State) : BitString := unpackBits s.ibByte s.inBits.toNat

/-- The result of a codec command in OB, OUT_LEN and OUT_BITS (10_state R16, R26). -/
def State.deliver (s : State) (out : List Byte) (bits : Nat) : State :=
  { s with ob := out, outLen := BitVec.ofNat 32 out.length, outBits := BitVec.ofNat 32 bits, obTag := s.obTag + 1 }

end Sys2Proof.Machine
end

