-- ==== Sys2Proof/Machine/TreeBuilder.lean ====
section
/-! DEFINITION. The tree builder (41 R75 to R85): BUILDT. -/

namespace Sys2Proof.Machine

/-! ### Validation (41 R76) -/

/-- A frequency that is not positive (41 R76). -/
def nonpositive (f : Word) : Bool := sint32 f ≤ 0

/-- The fault of a frequency table, none where it is legal (41 R76): empty, else the smallest symbol whose frequency
is not positive. -/
def tableFault (ft : Table Word) : Option (CmdFault × Word) :=
  match ft with
  | [] => some (.emptyTable, 0)
  | _ :: _ => (ft.find? (fun e => nonpositive e.2)).map (fun e => (.nonpositiveFreq, BitVec.ofNat 32 e.1))

/-! ### Leaf initialisation (41 R77) -/

/-- Order of leaves by the pair (frequency, symbol value) (41 R77). -/
abbrev leafLe (a b : Nat × Word) : Prop := sint32 a.2 < sint32 b.2 ∨ (sint32 a.2 = sint32 b.2 ∧ a.1 ≤ b.1)

/-- `L`, the entries of FT in the order of their leaves (41 R75, R77). -/
def sortedEntries (ft : Table Word) : List (Nat × Word) := ft.insertionSort leafLe

/-- The leaf of a table entry (41 R75). -/
def leafOf (e : Nat × Word) : Node := .leaf (BitVec.ofNat 8 e.1) (e.2.setWidth 40)

/-- The node store and the queue while the tree grows. -/
structure Forest where
  nm : List Node
  pq : List NodeIdx
  deriving DecidableEq, Repr

/-- Leaves at indices `0 .. N-1` in sorted order, and the queue `[0, 1, ..., N-1]` (41 R77). -/
def initialForest (ft : Table Word) : Forest :=
  { nm := (sortedEntries ft).map leafOf, pq := (List.range ft.length).map (BitVec.ofNat 9) }

/-! ### The merge loop (41 R78 to R81) -/

/-- Reinsertion (41 R81): the new parent `p` of frequency `f` goes immediately before the first queued node whose
frequency is greater than or equal to `f`, at the end if there is none. -/
def insertParent (nm : List Node) (f : NodeFreq) (p : NodeIdx) : List NodeIdx → List NodeIdx
  | [] => [p]
  | q :: r => if f ≤ nodeFreq nm q then p :: q :: r else q :: insertParent nm f p r

/-- One pass of the loop (41 R79, R80, R81): the two front nodes leave the queue, their parent is the next node, the
first removed its left child, and goes back into the queue. -/
def mergeStep (w : Forest) : Forest :=
  match w.pq with
  | a :: b :: rest =>
    let f := nodeFreq w.nm a + nodeFreq w.nm b
    let p : NodeIdx := BitVec.ofNat 9 w.nm.length
    let nm := w.nm ++ [.internal f a b]
    { nm := nm, pq := insertParent nm f p rest }
  | _ => w

/-- The loop "while PQ_LEN > 1" (41 R78). Each pass shortens the queue by one (41 R84(a)), so the queue's length is
fuel enough. -/
def mergeLoop : Nat → Forest → Forest
  | 0, w => w
  | n + 1, w => if 1 < w.pq.length then mergeLoop n (mergeStep w) else w

/-- The finished node store and queue of a legal table (41 R75). -/
def builtForest (ft : Table Word) : Forest := mergeLoop ft.length (initialForest ft)

/-- The body of BUILDT (41 R75), its finish included (41 R82). -/
def buildtBody (s : State) : Result :=
  match tableFault s.ft with
  | some (f, pos) => .raise f pos
  | none =>
    let w := builtForest s.ft
    .done { s with
      nm := w.nm, pq := w.pq, root := w.pq.headD 0, nsym := BitVec.ofNat 9 s.ft.length, phase := .tree }

/-- BUILDT (41 R75). -/
def execBuildt (s : State) : Host.Outcome State Fault Refusal := command .buildt buildtBody s

end Sys2Proof.Machine
end

