-- ==== Sys2Proof/Machine/CodeTable.lean ====
section
/-! DEFINITION. The code-table generator (42 R90 to R97): DERIVE and CONSTRUCT. -/

namespace Sys2Proof.Machine

/-- The code of a leaf reached by `path` (42 R92): the path, or "0" where the path is empty. -/
def leafCode (path : BitString) : BitString :=
  match path with
  | [] => [false]
  | _ :: _ => path

/-- `visit(i, path)` (42 R90 to R93): the leaves below node `i` with their codes, the left subtree before the right.
None where the node store is no tree below `i` within `fuel` levels (93 U13; log 9). -/
def visit (nm : List Node) : Nat → NodeIdx → BitString → Option (List IctEntry)
  | 0, _, _ => none
  | fuel + 1, i, path =>
    match nm[i.toNat]? with
    | none => none
    | some (.leaf sym _) => some [{ sym := sym, code := leafCode path }]
    | some (.internal _ l r) =>
      match visit nm fuel l (path ++ [false]), visit nm fuel r (path ++ [true]) with
      | some a, some b => some (a ++ b)
      | _, _ => none

/-- CT filled from the leaves in the order of the visit, `codeTable[symbol] = code` (42 R92). -/
def tableOf (es : List IctEntry) : Table BitString :=
  es.foldl (fun t e => Table.set t e.sym.toNat e.code) []

/-- The body of DERIVE (42 R90). The other entries of CT and ICT are invalid after it (log 10). A tree of
`NNODES` nodes has no path of more than `NNODES` nodes, so NNODES levels are enough (42 R90 "Termination"). -/
def deriveBody (s : State) : Result :=
  match visit s.nm s.nm.length s.root [] with
  | none => .refuse .malformedTree
  | some es => .done { s with ct := tableOf es, ict := es, phase := .ready }

/-- DERIVE (42 R90). -/
def execDerive (s : State) : Host.Outcome State Fault Refusal := command .derive deriveBody s

/-- The body of CONSTRUCT (42 R95): the BUILDT body, then the DERIVE body. -/
def constructBody (s : State) : Result :=
  match buildtBody s with
  | .done t => deriveBody t
  | .raise f pos => .raise f pos
  | .refuse r => .refuse r

/-- CONSTRUCT (42 R95). -/
def execConstruct (s : State) : Host.Outcome State Fault Refusal := command .construct constructBody s

end Sys2Proof.Machine
end

