-- ==== Sys2Proof/Machine/Control.lean ====
section
/-! DEFINITION. The control command CLR (40 R72). -/

namespace Sys2Proof.Machine

/-- The body of CLR (40 R72): every table empty, the counters, OUT_LEN and OUT_BITS 0, phase EMPTY. IN_LEN, IN_BITS,
IB, OB's contents and HERR are kept (log 14). -/
def clrBody (s : State) : Result :=
  .done { s with
    ft := [], nm := [], pq := [], ct := [], ict := [],
    nsym := 0, root := 0, outLen := 0, outBits := 0, phase := .empty }

/-- CLR (40 R72). -/
def execClr (s : State) : Host.Outcome State Fault Refusal := command .clr clrBody s

end Sys2Proof.Machine
end

