-- ==== Sys2Proof/Machine/Decoder.lean ====
section
/-! DEFINITION. The bit decoder (44 R110 to R119): DEC and DECS. -/

namespace Sys2Proof.Machine

/-- The matching loop (44 R113) on the bits that remain: `q` the position of the next bit, `start` where the candidate
began, `cand` the candidate. Answers the symbols emitted from here on, or the position of the first bit of the
candidate left over at the end (44 R114). -/
def matchFrom (ict : List IctEntry) : Nat → Nat → BitString → BitString → Except Nat (List Symbol)
  | _, start, cand, [] => if cand = [] then .ok [] else .error start
  | q, start, cand, b :: rest =>
    let start := if cand = [] then q else start
    let cand := cand ++ [b]
    match ictLookup ict cand with
    | some x =>
      match matchFrom ict (q + 1) start [] rest with
      | .ok out => .ok (x :: out)
      | .error p => .error p
    | none => matchFrom ict (q + 1) start cand rest

/-- `match(B)` (44 R113). -/
def matchBits (ict : List IctEntry) (b : BitString) : Except Nat (List Symbol) := matchFrom ict 0 0 [] b

/-- What DEC and DECS share once the bit string is known (44 R113, R114, R117). -/
def decodeBits (b : BitString) (s : State) : Result :=
  match matchBits s.ict b with
  | .error p => .raise .midcode (BitVec.ofNat 32 p)
  | .ok out =>
    if s.cfg.obCap < out.length then .raise .outputOverflow (BitVec.ofNat 32 out.length)
    else .done (s.deliver out 0)

/-- The body of DEC (44 R110, R111, R112). -/
def decBody (s : State) : Result :=
  if s.cfg.ibCap < s.inLen.toNat then .raise .inputOverflow s.inLen
  else if 8 * s.inLen.toNat < s.inBits.toNat then .raise .short (BitVec.ofNat 32 (8 * s.inLen.toNat))
  else decodeBits s.payloadBits s

/-- The body of DECS (44 R115, R116). -/
def decsBody (s : State) : Result :=
  if s.cfg.ibCap < s.inLen.toNat then .raise .inputOverflow s.inLen
  else
    match s.input.findIdx? (fun c => !isBitChar c) with
    | some q => .raise .badchar (BitVec.ofNat 32 q)
    | none => decodeBits (s.input.map charBit) s

/-- DEC (44 R110). -/
def execDec (s : State) : Host.Outcome State Fault Refusal := command .dec decBody s

/-- DECS (44 R115). -/
def execDecs (s : State) : Host.Outcome State Fault Refusal := command .decs decsBody s

end Sys2Proof.Machine
end

