-- ==== Sys2Proof/Machine/Encoder.lean ====
section
/-! DEFINITION. The bit encoder (43 R100 to R107): ENC and ENCS. -/

namespace Sys2Proof.Machine

/-- The concatenation of the codes of a sequence of symbols (43 R102). -/
def encodeSymbols (ct : Table BitString) (syms : List Symbol) : BitString := syms.flatMap (ctCode ct)

/-- The index of the first symbol without a code (43 R101). -/
def firstUnknown (ct : Table BitString) (syms : List Symbol) : Option Nat :=
  syms.findIdx? (fun x => !ctValid ct x)

/-- What ENC and ENCS share (43 R100, R105): the input check, the lookup, the capacity check on `need` entries for a
bit string, then `out` of it delivered with its bit count. -/
def encodeWith (need : BitString → Nat) (out : BitString → List Byte) (s : State) : Result :=
  if s.cfg.ibCap < s.inLen.toNat then .raise .inputOverflow s.inLen
  else
    match firstUnknown s.ct s.input with
    | some i => .raise .unknownSymbol (BitVec.ofNat 32 i)
    | none =>
      let b := encodeSymbols s.ct s.input
      if s.cfg.obCap < need b then .raise .outputOverflow (BitVec.ofNat 32 (need b))
      else .done (s.deliver (out b) b.length)

/-- The body of ENC (43 R100, R103, R104): packed payload bytes. -/
def encBody (s : State) : Result := encodeWith (fun b => ceilDiv b.length 8) packBits s

/-- The body of ENCS (43 R105, R106): one character a bit. -/
def encsBody (s : State) : Result := encodeWith List.length (List.map bitChar) s

/-- ENC (43 R100). -/
def execEnc (s : State) : Host.Outcome State Fault Refusal := command .enc encBody s

/-- ENCS (43 R105). -/
def execEncs (s : State) : Host.Outcome State Fault Refusal := command .encs encsBody s

end Sys2Proof.Machine
end

