-- ==== Sys2Proof/Machine/Dispatch.lean ====
section
/-! DEFINITION. The meaning of each command (30_encoding R62), one arm a constructor. -/

namespace Sys2Proof.Machine

def exec (i : Instr) (s : State) : Host.Outcome State Fault Refusal :=
  match i with
  | .clr => Sys2Proof.Machine.execClr s
  | .buildt => Sys2Proof.Machine.execBuildt s
  | .derive => Sys2Proof.Machine.execDerive s
  | .construct => Sys2Proof.Machine.execConstruct s
  | .enc => Sys2Proof.Machine.execEnc s
  | .encs => Sys2Proof.Machine.execEncs s
  | .dec => Sys2Proof.Machine.execDec s
  | .decs => Sys2Proof.Machine.execDecs s

end Sys2Proof.Machine
end

