-- ==== Sys2Proof/Machine/Port.lean ====
section
/-! DEFINITION. The host port (20_memory R40 to R56): address decoding, the word images of registers and tables, access
rights, and what a host access does while the engine is busy. -/

namespace Sys2Proof.Machine

/-- What a word address names (20_memory R42, R43): a register, one word of a table or buffer entry, or nothing. -/
inductive Loc where
  | cmd
  | status
  | err
  | errPos
  | inLen
  | inBits
  | outLen
  | outBits
  | nsym
  | nnodes
  | root
  | pqLen
  /-- `FT[s]` word 0. -/
  | ftFreq (s : Nat)
  /-- `FT[s]` word 1. -/
  | ftPresent (s : Nat)
  /-- `NM[i]` word `w`. -/
  | nm (i w : Nat)
  /-- `PQ[k]`. -/
  | pq (k : Nat)
  /-- `CT[s]` word `w`. -/
  | ct (s w : Nat)
  /-- `ICT[i]` word `w`. -/
  | ict (i w : Nat)
  /-- `IB[j]`. -/
  | ib (j : Nat)
  /-- `OB[j]`. -/
  | ob (j : Nat)
  /-- A reserved offset or space (20_memory R52). -/
  | reserved
  deriving DecidableEq, Repr

/-! ### Address decoding -/

/-- `space = addr[19:16]` (20_memory R42). -/
def addrSpace (a : Addr) : Nat := (a.extractLsb' 16 4).toNat

/-- `off = addr[15:0]` (20_memory R42). -/
def addrOff (a : Addr) : Nat := (a.extractLsb' 0 16).toNat

/-- Space REG (20_memory R43). -/
def regLoc (off : Nat) : Loc :=
  match off with
  | 0 => .cmd
  | 1 => .status
  | 2 => .err
  | 3 => .errPos
  | 4 => .inLen
  | 5 => .inBits
  | 6 => .outLen
  | 7 => .outBits
  | 8 => .nsym
  | 9 => .nnodes
  | 10 => .root
  | 11 => .pqLen
  | _ => .reserved

/-- Space FT (20_memory R44). -/
def ftLoc (off : Nat) : Loc :=
  if off < 512 then (if off % 2 = 0 then .ftFreq (off / 2) else .ftPresent (off / 2)) else .reserved

/-- Space NM (20_memory R45). -/
def nmLoc (off : Nat) : Loc := if off < 2044 then .nm (off / 4) (off % 4) else .reserved

/-- Space PQ (20_memory R46). -/
def pqLoc (off : Nat) : Loc := if off < 256 then .pq off else .reserved

/-- Space CT (20_memory R47); words 9 to 15 of an entry are reserved (R52). -/
def ctLoc (off : Nat) : Loc := if off < 4096 ∧ off % 16 < 9 then .ct (off / 16) (off % 16) else .reserved

/-- Space ICT (20_memory R48); words 9 to 15 of an entry are reserved (R52). -/
def ictLoc (off : Nat) : Loc := if off < 4096 ∧ off % 16 < 9 then .ict (off / 16) (off % 16) else .reserved

/-- The address map (20_memory R42, R49). -/
def locate (c : Config.Params) (a : Addr) : Loc :=
  let off := addrOff a
  match addrSpace a with
  | 0 => regLoc off
  | 1 => ftLoc off
  | 2 => nmLoc off
  | 3 => pqLoc off
  | 4 => ctLoc off
  | 5 => ictLoc off
  | 6 => if off < c.ibCap then .ib off else .reserved
  | 7 => if off < c.obCap then .ob off else .reserved
  | _ => .reserved

/-- `space * 0x10000 + off` (20_memory R42). -/
def addrAt (space off : Nat) : Addr := BitVec.ofNat 20 (space * 0x10000 + off)

/-- The address of a location (20_memory R42 to R49; 30_encoding R65). A reserved location stands for many addresses.
The one given here is the first of space 8. -/
def address : Loc → Addr
  | .cmd => addrAt 0 0
  | .status => addrAt 0 1
  | .err => addrAt 0 2
  | .errPos => addrAt 0 3
  | .inLen => addrAt 0 4
  | .inBits => addrAt 0 5
  | .outLen => addrAt 0 6
  | .outBits => addrAt 0 7
  | .nsym => addrAt 0 8
  | .nnodes => addrAt 0 9
  | .root => addrAt 0 10
  | .pqLen => addrAt 0 11
  | .ftFreq s => addrAt 1 (2 * s)
  | .ftPresent s => addrAt 1 (2 * s + 1)
  | .nm i w => addrAt 2 (4 * i + w)
  | .pq k => addrAt 3 k
  | .ct s w => addrAt 4 (16 * s + w)
  | .ict i w => addrAt 5 (16 * i + w)
  | .ib j => addrAt 6 j
  | .ob j => addrAt 7 j
  | .reserved => addrAt 8 0

/-- A location that exists (20_memory R42 to R49). -/
def Loc.wf (c : Config.Params) : Loc → Bool
  | .ftFreq s => s < 256
  | .ftPresent s => s < 256
  | .nm i w => i < 511 && w < 4
  | .pq k => k < 256
  | .ct s w => s < 256 && w < 9
  | .ict i w => i < 256 && w < 9
  | .ib j => j < c.ibCap
  | .ob j => j < c.obCap
  | _ => true

/-! ### Word images -/

/-- Word `w` of an NM entry, 0 throughout where `VALID = 0` (20_memory R45). -/
def nmWord (n : Option Node) (w : Nat) : Word :=
  match n, w with
  | none, _ => 0
  | some (.leaf sym _), 0 => 1#1 ++ 0#1 ++ 0#22 ++ sym
  | some (.internal _ _ _), 0 => 1#1 ++ 1#1 ++ 0#30
  | some n, 1 => n.freq.extractLsb' 0 32
  | some n, 2 => 0#24 ++ n.freq.extractLsb' 32 8
  | some (.leaf _ _), _ => 0
  | some (.internal _ l r), _ => 0#7 ++ r ++ 0#7 ++ l

/-- `LEN` of a code (10_state R22). -/
def codeLen (c : BitString) : BitVec 8 := BitVec.ofNat 8 c.length

/-- Word `w` of a CT entry (20_memory R47). -/
def ctWord (e : Option BitString) (w : Nat) : Word :=
  match e, w with
  | none, _ => 0
  | some c, 0 => 1#1 ++ 0#23 ++ codeLen c
  | some c, w => codeWord c w

/-- Word `w` of an ICT entry (20_memory R48). -/
def ictWord (e : Option IctEntry) (w : Nat) : Word :=
  match e, w with
  | none, _ => 0
  | some e, 0 => 1#1 ++ 0#7 ++ e.sym ++ 0#8 ++ codeLen e.code
  | some e, w => codeWord e.code w

/-- A byte in bits 7:0 of a word (20_memory R49). -/
def byteWord (b : Byte) : Word := 0#24 ++ b

/-- The word a read of a location returns while the engine is idle (20_memory R43 to R52). -/
def State.readLoc (s : State) : Loc → Word
  | .cmd => 0
  | .status => s.statusWord
  | .err => s.errReg
  | .errPos => s.errPos
  | .inLen => s.inLen
  | .inBits => s.inBits
  | .outLen => s.outLen
  | .outBits => s.outBits
  | .nsym => s.nsym.setWidth 32
  | .nnodes => s.nnodes.setWidth 32
  | .root => s.root.setWidth 32
  | .pqLen => s.pqLen.setWidth 32
  | .ftFreq k => s.ftFreq k
  | .ftPresent k => 0#31 ++ BitVec.ofBool (s.ftPresent k)
  | .nm i w => nmWord s.nm[i]? w
  | .pq k => ((s.pq[k]?).getD 0).setWidth 32
  | .ct k w => ctWord (Table.get? s.ct k) w
  | .ict i w => ictWord s.ict[i]? w
  | .ib j => byteWord (s.ibByte j)
  | .ob j => byteWord (s.obByte j)
  | .reserved => 0

/-! ### Writes -/

/-- A write of `v` to `FT[k]` word 1 in phase EMPTY (20_memory R44). -/
def State.writeFtPresent (s : State) (k : Nat) (v : Word) : State :=
  if v.getLsbD 0 then { s with ft := Table.set s.ft k (s.ftFreq k) } else { s with ft := Table.erase s.ft k }

/-- What a write of `v` to a location does while the engine is idle (20_memory R51). -/
def State.writeLoc (s : State) (v : Word) : Loc → State
  | .cmd => s.presentWord v
  | .status => if v.getLsbD 5 then { s with herrFlag := false } else s
  | .inLen => { s with inLen := v }
  | .inBits => { s with inBits := v }
  | .ftFreq k => if s.phase = .empty then { s with ft := Table.set s.ft k v } else s.dropWrite
  | .ftPresent k => if s.phase = .empty then s.writeFtPresent k v else s.dropWrite
  | .ib j => s.writeIb j (v.extractLsb' 0 8)
  | .err => s.dropWrite
  | .errPos => s.dropWrite
  | .outLen => s.dropWrite
  | .outBits => s.dropWrite
  | .nsym => s.dropWrite
  | .nnodes => s.dropWrite
  | .root => s.dropWrite
  | .pqLen => s.dropWrite
  | .nm _ _ => s.dropWrite
  | .pq _ => s.dropWrite
  | .ct _ _ => s.dropWrite
  | .ict _ _ => s.dropWrite
  | .ob _ => s.dropWrite
  | .reserved => s.dropWrite

/-! ### Transactions -/

/-- `MemWrite(addr, 1, v)` (20_memory R40, R51); while the engine is busy every write is dropped (R54). -/
def State.memWrite (s : State) (a : Addr) (v : Word) : State :=
  if s.busy then s.dropWrite else s.writeLoc v (locate s.cfg a)

/-- `MemRead(addr, 1)` (20_memory R40, R51). While the engine is busy only STATUS reads as itself, and every other
address returns a free word (R54; 93 U4). -/
def State.memRead (s : State) (a : Addr) : State :=
  if s.busy then
    if locate s.cfg a = .status then { s with rdata := some s.statusWord }
    else { s with rdata := some (Config.freeBusyWord s.pick), pick := s.pick + 1 }
  else { s with rdata := some (s.readLoc (locate s.cfg a)) }

end Sys2Proof.Machine
end

