-- ==== Sys2Proof/Machine/HostLine.lean ====
section
/-! DEFINITION. What one line of the host's script does (30_encoding R65; 40 R70; 20_memory R53, R54; 70 R140). -/

namespace Sys2Proof.Machine

/-- Acceptance and execution of a command word in one step (40 R70; 20_memory R53). -/
def runWord (w : Word) (s : State) : Host.Outcome State Fault Refusal :=
  match decode w with
  | .ok i => exec i s
  | .error e => .next (illegalWord e w s)

/-- The command in flight, if there is one, runs to its completion (40 R70). It reads the state at acceptance, since
no host access changes anything it reads while the engine is busy (20_memory R53, R54). -/
def finishFlight (s : State) : Host.Outcome State Fault Refusal :=
  match s.engine with
  | none => .next s
  | some w => runWord w s

/-- Before a transaction of a host that did not wait: the command in flight may or may not have completed (70 R150;
log 6). A word that is no command is never in flight: it completes in the transaction that writes it (30_encoding R63;
DEDUCED, log 17). -/
def settle (s : State) : Host.Outcome State Fault Refusal :=
  match s.engine with
  | none => .next s
  | some _ =>
    let t := { s with pick := s.pick + 1 }
    if Config.freeFinished s.pick then finishFlight t else .next t

/-- `WAIT` (30_encoding R65): the command in flight completes, and the read of STATUS that finds BUSY 0 ends the wait.
The reads that found BUSY 1 before it left nothing that this one does not replace. -/
def waitLine (s : State) : Host.Outcome State Fault Refusal :=
  andThen (finishFlight s) (fun t => .next (t.memRead (address .status)))

/-- A mnemonic's line, `WR CMD, w` followed by `WAIT` (30_encoding R65). A write while the engine is busy is dropped, not
queued (20_memory R54). -/
def commandLine (w : Word) (s : State) : Host.Outcome State Fault Refusal :=
  waitLine (s.memWrite (address .cmd) w)

/-- One line of the host's script. -/
def runLine (l : Line) (s : State) : Host.Outcome State Fault Refusal :=
  match l with
  | .wr a v => andThen (settle s) (fun t => .next (t.memWrite a v))
  | .rd a => andThen (settle s) (fun t => .next (t.memRead a))
  | .cmd w => andThen (settle s) (commandLine w)
  | .wait => waitLine s
  | .reset => .next s.resetBlock

/-- The state with the front line taken off the script and the script index moved on (10_state R12). -/
def State.advance (s : State) : State := { s with script := s.script.tail, cp := s.cp + 1 }

/-- One step of the machine: the host's next line, or, when the host has nothing left, the command in flight to its
completion; an idle engine stays idle (70 R141). -/
def machineStep (s : State) : Host.Outcome State Fault Refusal :=
  match s.script with
  | [] => finishFlight s
  | l :: _ => runLine l s.advance

/-- The command word `w` as the host's next line, with the engine idle to take it (log 2). -/
def State.placeWord (s : State) (w : Word) : State := { s with engine := none, script := .cmd w :: s.script }

end Sys2Proof.Machine
end

