-- ==== Sys2Proof/Machine/Step.lean ====
section
/-! DEFINITION. The machine's step, and how a command word is placed before it (log 2). -/

namespace Sys2Proof.Machine

/-- One step: the host's next line (10_state R10, R12; 30_encoding R65). -/
def step (s : State) : Host.Outcome State Fault Refusal := machineStep s

/-- The state in which the very next step is a write of the one-word instruction `w` to CMD, the engine idle, and the
wait for it. The block fetches nothing (10_state R12, 20_memory R59): a command exists only as the word the host
writes. -/
def State.withFetchWord (s : State) (_nbits w : Nat) : State := s.placeWord (BitVec.ofNat 32 w)

end Sys2Proof.Machine
end

