-- ==== Sys2Proof/Machine/Script.lean ====
section
/-! DEFINITION. The script notation and its pseudo-instructions (30_encoding R65, R66) as lists of the host's lines. A
symbol or character is given by its byte. -/

namespace Sys2Proof.Machine

/-- `WR <loc>, <value>` (30_encoding R65). -/
def wrLine (l : Loc) (v : Word) : Line := .wr (address l) v

/-- `RD <loc>` (30_encoding R65). -/
def rdLine (l : Loc) : Line := .rd (address l)

/-- A mnemonic's line: `WR CMD, <match>` followed by `WAIT` (30_encoding R65). -/
def mnemonicLine (i : Instr) : Line := .cmd (encode i)

/-- `EXPECT <loc>, <value>`: its hardware action is the read (30_encoding R65). -/
def expectLine (l : Loc) : Line := rdLine l

/-- The claim of `EXPECT`: the word read equals the value (30_encoding R65). -/
def expectHolds (s : State) (v : Word) : Bool := s.rdata == some v

/-- `SETF s, f` (30_encoding R66). -/
def setfLines (sym : Symbol) (f : Word) : List Line := [wrLine (.ftFreq sym.toNat) f]

/-- `DELF s` (30_encoding R66). -/
def delfLines (sym : Symbol) : List Line := [wrLine (.ftPresent sym.toNat) 0]

/-- The writes of bytes to IB from index `j` on. -/
def ibLines (j : Nat) : List Byte → List Line
  | [] => []
  | b :: r => wrLine (.ib j) (byteWord b) :: ibLines (j + 1) r

/-- `LDIN [b0, b1, ...]` (30_encoding R66). -/
def ldinLines (bs : List Byte) : List Line := ibLines 0 bs ++ [wrLine .inLen (BitVec.ofNat 32 bs.length)]

/-- `LDSYM "text"`, the text given as its bytes (30_encoding R66). -/
def ldsymLines (text : List Byte) : List Line := ldinLines text

/-- `LDBITS "0110"` (30_encoding R66). -/
def ldbitsLines (b : BitString) : List Line := ldinLines (b.map bitChar)

/-- `CLRHERR` (30_encoding R66). -/
def clrherrLines : List Line := [wrLine .status 0x20]

end Sys2Proof.Machine
end

