-- ==== Sys2Proof/Safety.lean ====
section
/-! DEFINITION. What a good state of the block is (10_state R17 to R27, 40 R70) and what a safe run is, in the words the
statements use. -/

namespace Sys2Proof.Machine

/-! ### Status and fault registers -/

/-- STATUS and ERR agree (10_state R14, R15; 40 R70): a busy engine shows neither DONE nor ERR; after a completion ERR
is up exactly when a fault code is latched; the upper half of ERR is 0; only a command is in flight
(the model's reading of 30_encoding R63, log 17). -/
abbrev StatusOk (s : State) : Prop :=
  (s.busy = true → s.doneFlag = false ∧ s.errFlag = false) ∧
  (s.doneFlag = true → (s.errFlag = true ↔ s.errCode ≠ 0)) ∧
  (s.doneFlag = false → s.errFlag = false) ∧
  s.errReg.extractLsb' 16 16 = 0 ∧
  s.engine.all commandWordWf = true

/-! ### The tree (10_state R18 to R21) -/

/-- An internal node's children lie below it and its frequency is their exact sum; a leaf asks nothing (10_state R19(a),
(c)). -/
def nodeOk (nm : List Node) (i : Nat) : Node → Bool
  | .leaf _ _ => true
  | .internal f l r =>
    l.toNat < i && r.toNat < i && f.toNat == (nodeFreq nm l).toNat + (nodeFreq nm r).toNat

/-- The children named by a node. -/
def nodeChildren : Node → List Nat
  | .leaf _ _ => []
  | .internal _ l r => [l.toNat, r.toNat]

/-- All children named in a node store, one for each LEFT and each RIGHT. -/
def childRefs (nm : List Node) : List Nat := nm.flatMap nodeChildren

/-- A node of KIND 1. -/
def Node.isInternal : Node → Bool
  | .leaf _ _ => false
  | .internal _ _ _ => true

/-- A frequency table BUILDT accepts (41 R76): not empty, every frequency positive. -/
abbrev LegalTable (ft : Table Word) : Prop := ft ≠ [] ∧ ∀ e ∈ ft, 0 < sint32 e.2

/-- The symbols of the leaves that the walk of the tree meets, none where it meets a malformed entry (42 R91). -/
def reachedSymbols (nm : List Node) (root : NodeIdx) : Option (List Symbol) :=
  (visit nm nm.length root []).map (List.map IctEntry.sym)

/-- The node store is the tree of the frequency table, below ROOT (10_state R18 to R21). -/
abbrev TreeOk (s : State) : Prop :=
  LegalTable s.ft ∧
  s.nsym.toNat = s.ft.length ∧
  s.nm.length + 1 = 2 * s.ft.length ∧
  s.root.toNat + 1 = s.nm.length ∧
  s.pq = [s.root] ∧
  s.nm.take s.ft.length = (sortedEntries s.ft).map leafOf ∧
  (∀ n ∈ s.nm.drop s.ft.length, n.isInternal = true) ∧
  (∀ p ∈ s.nm.zipIdx, nodeOk s.nm p.2 p.1 = true) ∧
  (∀ j < s.nm.length, (childRefs s.nm).count j = if j = s.root.toNat then 0 else 1) ∧
  (∃ syms ∈ reachedSymbols s.nm s.root, syms.Perm (s.ft.map (fun e => BitVec.ofNat 8 e.1)))

/-! ### The code tables (10_state R22 to R24) -/

/-- Neither of two codes is a prefix of the other. -/
abbrev PrefixApart (a b : BitString) : Prop := ¬ a <+: b ∧ ¬ b <+: a

/-- CT and ICT hold a prefix-free code of the built alphabet, each the inverse of the other, and ICT is the walk of the
tree (10_state R22 to R24, R27; 42 R90). -/
abbrev CodesOk (s : State) : Prop :=
  s.ict.length = s.nsym.toNat ∧
  (∀ e ∈ s.ict, e.code ≠ [] ∧ e.code.length ≤ Config.codeMax) ∧
  s.ict.Pairwise (fun a b => PrefixApart a.code b.code) ∧
  s.ict.Pairwise (fun a b => a.code < b.code) ∧
  s.ict.Pairwise (fun a b => a.sym ≠ b.sym) ∧
  (∀ e ∈ s.ict, Table.get? s.ct e.sym.toNat = some e.code) ∧
  (∀ p ∈ s.ct, { sym := BitVec.ofNat 8 p.1, code := p.2 : IctEntry } ∈ s.ict) ∧
  s.ct.map Prod.fst = s.ft.map Prod.fst ∧
  visit s.nm s.nm.length s.root [] = some s.ict

/-! ### The whole state -/

/-- What exists in each phase (10_state R27; OUT_LEN and OUT_BITS are results of codec commands, R16). -/
abbrev PhaseOk (s : State) : Prop :=
  (s.phase = .empty →
    s.nsym = 0 ∧ s.root = 0 ∧ s.nm = [] ∧ s.pq = [] ∧ s.ct = [] ∧ s.ict = [] ∧ s.outLen = 0 ∧ s.outBits = 0) ∧
  (s.phase = .tree → TreeOk s ∧ s.ct = [] ∧ s.ict = [] ∧ s.outLen = 0 ∧ s.outBits = 0) ∧
  (s.phase = .ready → TreeOk s ∧ CodesOk s)

/-- The tables are in canonical form and within their index ranges (10_state R17, R22, R25). -/
abbrev TablesOk (s : State) : Prop :=
  Table.wf Config.alphabet s.ft ∧ Table.wf Config.alphabet s.ct ∧ Memory.wf s.cfg.ibCap s.ib

/-- OB holds every live entry and no more than OB_CAP of them (10_state R26). -/
abbrev OutputOk (s : State) : Prop := s.outLen.toNat ≤ s.ob.length ∧ s.ob.length ≤ s.cfg.obCap

/-- The invariant of the block. -/
abbrev State.Inv (s : State) : Prop :=
  s.cfg.wf = true ∧ StatusOk s ∧ TablesOk s ∧ PhaseOk s ∧ OutputOk s

/-- A safe step: the machine has a next state. -/
def SafeStep (s : State) : Prop := ∃ t, step s = .next t

/-! ### How a command ends -/

/-- What a completion without a fault leaves in the status and fault registers (40 R70; 10_state R15). -/
def State.afterSuccess (s : State) : State :=
  { s with engine := none, doneFlag := true, errFlag := false, errReg := 0, errPos := 0 }

/-- What a fault leaves (60 R127), for a command that is no codec command: the record and nothing else. `err` is the
`ERR` word of 60 R120. -/
def State.afterFault (s : State) (err pos : Word) : State :=
  { s with engine := none, doneFlag := true, errFlag := true, errReg := err, errPos := pos }

/-- What a fault of a codec command leaves (60 R127): the record, no output, and every OB entry unspecified. -/
def State.afterCodecFault (s : State) (err pos : Word) : State :=
  { s with
    engine := none, doneFlag := true, errFlag := true, errReg := err, errPos := pos,
    outLen := 0, outBits := 0, ob := [], obTag := s.obTag + 1 }

/-- What a result of a codec command leaves (10_state R16, R26): the bytes in OB, OUT_LEN, OUT_BITS, the entries of OB
above them unspecified anew. -/
def State.withOutput (s : State) (out : List Byte) (len bits : Nat) : State :=
  { s with ob := out, outLen := BitVec.ofNat 32 len, outBits := BitVec.ofNat 32 bits, obTag := s.obTag + 1 }

/-! ### Paths of the tree (42 R91 to R93) -/

/-- `p` is the way from node `i` down to the leaf of `sym`, `false` for a step to a left child and `true` for a step to
a right child. -/
inductive PathTo (nm : List Node) : NodeIdx → BitString → Symbol → Prop where
  | leaf {i : NodeIdx} {sym : Symbol} {f : NodeFreq} :
      nm[i.toNat]? = some (.leaf sym f) → PathTo nm i [] sym
  | left {i : NodeIdx} {f : NodeFreq} {l r : NodeIdx} {p : BitString} {sym : Symbol} :
      nm[i.toNat]? = some (.internal f l r) → PathTo nm l p sym → PathTo nm i (false :: p) sym
  | right {i : NodeIdx} {f : NodeFreq} {l r : NodeIdx} {p : BitString} {sym : Symbol} :
      nm[i.toNat]? = some (.internal f l r) → PathTo nm r p sym → PathTo nm i (true :: p) sym

/-- `e` is the pair of a leaf below ROOT: its symbol, and as code the way to it, or "0" where ROOT is the leaf
(42 R92). -/
def LeafEntry (nm : List Node) (root : NodeIdx) (e : IctEntry) : Prop :=
  ∃ p, PathTo nm root p e.sym ∧ e.code = if p = [] then [false] else p

/-- The queue is sorted ascending by frequency (10_state R21). -/
abbrev QueueSorted (w : Forest) : Prop := w.pq.Pairwise (fun a b => nodeFreq w.nm a ≤ nodeFreq w.nm b)

/-- Every queued index names an allocated node (10_state R21), and there is room for one more. -/
abbrev QueueValid (w : Forest) : Prop := (∀ q ∈ w.pq, q.toNat < w.nm.length) ∧ w.nm.length < Config.nodeCap

/-! ### What the host sees -/

/-- The word an idle host reads at an offset of a space (20_memory R42). -/
def State.readAt (s : State) (space off : Nat) : Word := s.readLoc (locate s.cfg (addrAt space off))

/-- The host has read STATUS, as every WAIT does at its end (30_encoding R65). -/
def State.statusRead (s : State) : State := { s with rdata := some (s.readLoc .status) }

/-- The locations whose contents a command may change (the "state written" of 40 R72, 41 R75, 42 R90, R95, 43 R100,
R105, 44 R110, R115, and the status and fault registers of 40 R70). -/
def Loc.writtenBy (i : Instr) : Loc → Bool
  | .status => true
  | .err => true
  | .errPos => true
  | .cmd => false
  | .inLen => false
  | .inBits => false
  | .outLen => i = .clr || Instr.isCodec i
  | .outBits => i = .clr || Instr.isCodec i
  | .nsym => i = .clr || i = .buildt || i = .construct
  | .nnodes => i = .clr || i = .buildt || i = .construct
  | .root => i = .clr || i = .buildt || i = .construct
  | .pqLen => i = .clr || i = .buildt || i = .construct
  | .ftFreq _ => i = .clr
  | .ftPresent _ => i = .clr
  | .nm _ _ => i = .clr || i = .buildt || i = .construct
  | .pq _ => i = .clr || i = .buildt || i = .construct
  | .ct _ _ => i = .clr || i = .derive || i = .construct
  | .ict _ _ => i = .clr || i = .derive || i = .construct
  | .ib _ => false
  | .ob _ => i = .clr || Instr.isCodec i
  | .reserved => false

end Sys2Proof.Machine
end

