-- ==== Sys2Proof/Certificates/Slice0/Obligations.lean ====
section
/-! DEFINITION. The statements for the provers: what the commands, the host port and the step do, after the numbered
rules of spec/. OBLIGATIONS.json lists them. -/

open Sys2Proof Sys2Proof.Machine

/-! ### Command words (30_encoding R60 to R64) -/

/-- 30_encoding R62: a word is a command exactly when `w & mask = match`, row by row of the opcode map. Bit 3 of the
opcode separates the codec commands from the rest, and within them bit 1 decode from encode and bit 0 the bit-string
form from the packed form. -/
def Obligations.CommandIffMaskedWordIsMatch : Prop :=
  (∀ i : Instr,
    ((opcodeOf i).getLsbD 3 = true ↔ i = .enc ∨ i = .encs ∨ i = .dec ∨ i = .decs) ∧
    ((opcodeOf i).getLsbD 3 = true →
      ((opcodeOf i).getLsbD 1 = true ↔ i = .dec ∨ i = .decs) ∧
      ((opcodeOf i).getLsbD 0 = true ↔ i = .encs ∨ i = .decs))) ∧
  ∀ w : Word,
    (decode w = .ok .clr ↔ w &&& 0xFFFFFFFF#32 = 0x00000001#32) ∧
    (decode w = .ok .buildt ↔ w &&& 0xFFFFFFFF#32 = 0x00000002#32) ∧
    (decode w = .ok .derive ↔ w &&& 0xFFFFFFFF#32 = 0x00000003#32) ∧
    (decode w = .ok .construct ↔ w &&& 0xFFFFFFFF#32 = 0x00000004#32) ∧
    (decode w = .ok .enc ↔ w &&& 0xFFFFFFFF#32 = 0x00000008#32) ∧
    (decode w = .ok .encs ↔ w &&& 0xFFFFFFFF#32 = 0x00000009#32) ∧
    (decode w = .ok .dec ↔ w &&& 0xFFFFFFFF#32 = 0x0000000A#32) ∧
    (decode w = .ok .decs ↔ w &&& 0xFFFFFFFF#32 = 0x0000000B#32)

/-- Decoding the encoding of a well-formed command gives it back, and a word that decodes to a command is that command's
one encoding. -/
def Obligations.DecodeOfEncodeIsTheCommand : Prop :=
  (∀ i : Instr, i.wf = true → decode (encode i) = .ok i) ∧
  ∀ (w : Word) (i : Instr), decode w = .ok i → encode i = w

/-- Words written out from the opcode map decode to their commands (30_encoding R62). -/
def Obligations.WordsOfTheOpcodeMapDecode : Prop :=
  decode 0b00000000000000000000000000000001#32 = .ok .clr ∧
  decode 0b00000000000000000000000000000010#32 = .ok .buildt ∧
  decode 0b00000000000000000000000000000100#32 = .ok .construct ∧
  decode 0b00000000000000000000000000001001#32 = .ok .encs ∧
  decode 0b00000000000000000000000000001010#32 = .ok .dec

/-- 30_encoding R63, 60 R125: an idle engine accepts a word that is no command and completes it at once with
IllegalCommand, the sub-cause RESERVED_BITS if ZERO is not 0 and RESERVED_OPCODE otherwise. Nothing else changes. The
bare write of the word does it (at once: log 17), and so does the line with a wait, which reads STATUS as well. A step
is one line of the host's script, the model's form (log 2). -/
def Obligations.IllegalWordFaultsAndChangesNothingElse : Prop :=
  ∀ (s : State) (w err : Word) (rest : List Line), s.engine = none →
    (w.extractLsb' 8 24 ≠ 0#24 ∧ err = 0x0205) ∨
      (w.extractLsb' 8 24 = 0#24 ∧
        w.extractLsb' 0 8 ∉ [0x01#8, 0x02#8, 0x03#8, 0x04#8, 0x08#8, 0x09#8, 0x0A#8, 0x0B#8] ∧ err = 0x0105) →
    (s.script = .wr (addrAt 0 0) w :: rest →
      step s = .next (State.afterFault { s with script := rest, cp := s.cp + 1 } err w)) ∧
    (s.script = .cmd w :: rest →
      step s = .next (State.afterFault { s with script := rest, cp := s.cp + 1 } err w).statusRead)

/-! ### The step and the command in flight -/

/-- A step whose line is a command word runs the decoded command, from the state with the line taken off the script,
and then reads STATUS, the end of the wait (30_encoding R65). The line that `withFetchWord` places is such a line,
whatever the state was. A step is one line of the host's script, the model's form (log 2). -/
def Obligations.StepRunsTheDecodedCommand : Prop :=
  (∀ (s : State) (w : Word) (i : Instr) (rest : List Line),
    s.engine = none → s.script = .cmd w :: rest → decode w = .ok i →
    step s = andThen (exec i { s with script := rest, cp := s.cp + 1 }) (fun t => .next t.statusRead)) ∧
  (∀ (s : State) (nbits : Nat) (i : Instr),
    step (s.withFetchWord nbits (encode i).toNat) =
      andThen (exec i { s with engine := none, cp := s.cp + 1 }) (fun t => .next t.statusRead))

/-- 70 R141: with nothing from the host an idle engine stays as it is. No read, no wait and no write to another address
than CMD makes it busy. The clause that the word in flight is a command is not R141's: it is the model's reading of
30_encoding R63 "completes at once" (log 17, DEDUCED, unsafe). A step is one line of the host's script, the model's form
(log 2). -/
def Obligations.EngineStaysIdleUntilCmdIsWritten : Prop :=
  ∀ s : State, s.engine = none →
    (s.script = [] → step s = .next s) ∧
    (∀ t, step s = .next t → t.busy = true →
      ∃ a v rest, s.script = .wr a v :: rest ∧ locate s.cfg a = .cmd ∧ t.engine = some v ∧ ∃ i, decode v = .ok i)

/-- 30_encoding R65: a mnemonic's line is the write of its word to CMD followed by WAIT. Done as two lines, the write
of a command leaves the engine busy with DONE and ERR down, and the wait ends where the one line ends, whether the word
is a command or not: with the engine idle and the STATUS word as the word last read. A step is one line of the host's
script, the model's form (log 2). -/
def Obligations.WriteThenWaitIsTheCommandLine : Prop :=
  ∀ (s : State) (w : Word), s.engine = none →
    ∃ t, step { s with script := [.wr (addrAt 0 0) w, .wait] } = .next t ∧ t.script = [.wait] ∧
      (∀ i, decode w = .ok i →
        t = { s with script := [.wait], cp := s.cp + 1, engine := some w, doneFlag := false, errFlag := false }) ∧
      step t = step { s with script := [.cmd w], cp := s.cp + 1 } ∧
      ∀ u, step t = .next u → u.busy = false ∧ u.rdata = some (u.readLoc .status)

/-- 20_memory R54: a write sent while the engine is busy either finds the command still in flight, and is dropped with
HERR set and nothing else changed, or finds it completed. The free choice of the model (log 6) decides. A step is one
line of the host's script, the model's form (log 2). -/
def Obligations.UnpolledWriteIsDroppedUnlessCompleted : Prop :=
  ∀ (s : State) (w : Word) (a : Addr) (v : Word) (rest : List Line),
    s.engine = some w → s.script = .wr a v :: rest →
    step s = .next { s with script := rest, cp := s.cp + 1, pick := s.pick + 1, herrFlag := true } ∨
    step s = andThen (runWord w { s with script := rest, cp := s.cp + 1, pick := s.pick + 1 })
      (fun u => .next (u.memWrite a v))

/-- 20_memory R54: a read while the engine is busy changes nothing of the block. STATUS reads with BUSY 1, DONE 0 and
ERR 0 and with the current PHASE and HERR; any other word is free. -/
def Obligations.BusyReadReturnsStatusOrAnyWord : Prop :=
  ∀ (s : State) (a : Addr), s.Inv → s.busy = true →
    ∃ w, s.memRead a = { s with rdata := some w, pick := (s.memRead a).pick } ∧
      (locate s.cfg a = .status →
        w.getLsbD 0 = true ∧ w.getLsbD 1 = false ∧ w.getLsbD 2 = false ∧
        w.extractLsb' 3 2 = s.phase.bits ∧ w.getLsbD 5 = s.herrFlag ∧ w.extractLsb' 6 26 = 0#26)

/-- 70 R140, 10_state R30: a reset at any time, a command in flight or not, abandons the command and leaves an idle
block in phase EMPTY, every register and table word reading 0. A step is one line of the host's script, the model's
form (log 2). -/
def Obligations.ResetLineClearsTheBlock : Prop :=
  ∀ (s : State) (rest : List Line), s.script = .reset :: rest →
    ∃ t, step s = .next t ∧ t.engine = none ∧ t.phase = .empty ∧
      (∀ l : Loc, (∀ j, l ≠ .ib j) → (∀ j, l ≠ .ob j) → t.readLoc l = 0) ∧
      t.cfg = s.cfg ∧ t.script = rest

/-! ### CLR -/

/-- 40 R72: CLR completes in every state. FT, NM, PQ, CT, ICT, the counters, OUT_LEN and OUT_BITS are cleared, the
phase is EMPTY, and IN_LEN, IN_BITS, IB, OB's contents and HERR are kept. -/
def Obligations.ClrEmptiesTablesAndKeepsInputs : Prop :=
  ∀ s : State,
    exec .clr s = .next (State.afterSuccess
      { s with
        ft := [], nm := [], pq := [], ct := [], ict := [], nsym := 0, root := 0, outLen := 0, outBits := 0,
        phase := .empty })

/-! ### The tree builder -/

/-- 41 R76: BUILDT and CONSTRUCT in phase EMPTY reject an empty table, and otherwise a table with a present entry that
is not positive, reporting the smallest such symbol. Nothing but the fault record changes. Any other table is accepted:
absent entries are not checked. -/
def Obligations.IllegalTableIsRejected : Prop :=
  ∀ (s : State) (i : Instr), i = .buildt ∨ i = .construct → s.phase = .empty → Table.wf Config.alphabet s.ft →
    ((∀ k, s.ftPresent k = false) → exec i s = .next (s.afterFault 0x0101 0)) ∧
    (∀ k, s.ftPresent k = true → sint32 (s.ftFreq k) ≤ 0 →
      (∀ j < k, s.ftPresent j = true → 0 < sint32 (s.ftFreq j)) →
      exec i s = .next (s.afterFault 0x0201 (BitVec.ofNat 32 k))) ∧
    ((∃ k, s.ftPresent k = true) → (∀ k, s.ftPresent k = true → 0 < sint32 (s.ftFreq k)) →
      ∀ t, exec i s = .next t → t.errFlag = false)

/-- 41 R75: on a legal table BUILDT completes with the node store and queue of the merge loop run from the initial
leaves, ROOT the queue's one entry, NSYM the number of symbols, phase TREE, and nothing else changed. -/
def Obligations.BuildtRunsTheMergeLoop : Prop :=
  ∀ s : State, s.phase = .empty → LegalTable s.ft →
    exec .buildt s = .next (State.afterSuccess
      { s with
        nm := (mergeLoop s.ft.length (initialForest s.ft)).nm,
        pq := (mergeLoop s.ft.length (initialForest s.ft)).pq,
        root := (mergeLoop s.ft.length (initialForest s.ft)).pq.headD 0,
        nsym := BitVec.ofNat 9 s.ft.length, phase := .tree })

/-- 41 R77: one leaf per present symbol, in ascending order of the pair (frequency, symbol), at indices 0 to N - 1, and
the queue [0, 1, ..., N - 1]. Tables that hold the same mapping give the same forest. -/
def Obligations.LeavesStandInOrderOfFrequencyThenSymbol : Prop :=
  ∀ ft : Table Word, Table.wf Config.alphabet ft →
    ∃ l : List (Nat × Word), l.Perm ft ∧
      l.Pairwise (fun a b => sint32 a.2 < sint32 b.2 ∨ (sint32 a.2 = sint32 b.2 ∧ a.1 < b.1)) ∧
      (initialForest ft).nm = l.map (fun e => .leaf (BitVec.ofNat 8 e.1) (e.2.setWidth 40)) ∧
      (initialForest ft).pq = (List.range l.length).map (BitVec.ofNat 9) ∧
      ∀ ft' : Table Word, Table.wf Config.alphabet ft' → (∀ k, Table.get? ft' k = Table.get? ft k) →
        initialForest ft' = initialForest ft

/-- 10_state R17, 41 R77: nothing depends on the order in which the host filled the table. Writes of two different
entries commute. -/
def Obligations.TableWritesOfTwoSymbolsCommute : Prop :=
  ∀ (s : State) (j k : Nat) (f g : Word), Table.wf Config.alphabet s.ft → j < Config.alphabet → k < Config.alphabet →
    j ≠ k →
    (s.writeLoc f (.ftFreq j)).writeLoc g (.ftFreq k) = (s.writeLoc g (.ftFreq k)).writeLoc f (.ftFreq j)

/-- 41 R81 with R79, R80: the two front nodes leave the queue, their parent is the next node, the first removed its
left child, and it goes immediately before the first remaining node whose frequency is greater than or equal to its
own, at the end if there is none. -/
def Obligations.ParentGoesBeforeFirstNotSmaller : Prop :=
  ∀ (w : Forest) (a b : NodeIdx) (rest : List NodeIdx), w.pq = a :: b :: rest → QueueValid w →
    (mergeStep w).nm = w.nm ++ [.internal (nodeFreq w.nm a + nodeFreq w.nm b) a b] ∧
    ∃ before after, rest = before ++ after ∧
      (mergeStep w).pq = before ++ BitVec.ofNat 9 w.nm.length :: after ∧
      (∀ q ∈ before, nodeFreq w.nm q < nodeFreq w.nm a + nodeFreq w.nm b) ∧
      (∀ q ∈ after.head?, nodeFreq w.nm a + nodeFreq w.nm b ≤ nodeFreq w.nm q)

/-- 41 R84(c), 10_state R21: a merge step keeps the queue sorted and its indices allocated. -/
def Obligations.MergeStepKeepsTheQueueSorted : Prop :=
  ∀ w : Forest, QueueValid w → QueueSorted w →
    QueueSorted (mergeStep w) ∧ ∀ q ∈ (mergeStep w).pq, q.toNat < (mergeStep w).nm.length

/-- 41 R78, R84(a): the loop on a queue of N nodes makes exactly N - 1 passes and leaves one node. -/
def Obligations.MergeLoopMakesNMinusOnePasses : Prop :=
  ∀ w : Forest, w.pq ≠ [] →
    mergeLoop w.pq.length w = mergeStep^[w.pq.length - 1] w ∧ (mergeLoop w.pq.length w).pq.length = 1

/-- 10_state R18 to R21, 41 R75 to R82: on a legal table in canonical form BUILDT completes and the node store is the
tree of the table. Only NM, PQ, ROOT, NSYM, the phase and the status and fault registers change. -/
def Obligations.BuildtMakesTheTreeOfTheTable : Prop :=
  ∀ s : State, s.phase = .empty → Table.wf Config.alphabet s.ft → LegalTable s.ft →
    ∃ t, exec .buildt s = .next t ∧
      t = State.afterSuccess
        { s with nm := t.nm, pq := t.pq, root := t.root, nsym := t.nsym, phase := .tree } ∧
      TreeOk t

/-- 41 R84(b), (e), (f), 10_state R20: after BUILDT on N symbols NNODES is 2N - 1, ROOT is 2N - 2, NSYM is N, PQ_LEN is
1, and the root's frequency is the exact sum of all frequencies of the table. -/
def Obligations.TreeCountersAndTotalFrequency : Prop :=
  ∀ s : State, s.phase = .empty → Table.wf Config.alphabet s.ft → LegalTable s.ft →
    ∃ t, exec .buildt s = .next t ∧
      t.nnodes.toNat = 2 * s.ft.length - 1 ∧ t.root.toNat = 2 * s.ft.length - 2 ∧ t.nsym.toNat = s.ft.length ∧
      t.pqLen = 1 ∧ (t.readLoc (.pq 0)).toNat = t.root.toNat ∧
      (((nodeFreq t.nm t.root).toNat : Nat) : Int) = (s.ft.map (fun e => sint32 e.2)).sum

/-! ### The code-table generator -/

/-- 42 R90 to R93: on a tree DERIVE completes. ICT holds exactly one entry for each leaf below ROOT, its code the way
to it with left 0 and right 1, or "0" where ROOT is the leaf, in lexicographic order of code; CT is its inverse; the
code is prefix-free. Only CT, ICT, the phase and the status and fault registers change. -/
def Obligations.DeriveGivesEachLeafItsPath : Prop :=
  ∀ s : State, s.Inv → s.phase = .tree →
    ∃ t, exec .derive s = .next t ∧
      t = State.afterSuccess { s with ct := t.ct, ict := t.ict, phase := .ready } ∧
      (∀ e, e ∈ t.ict ↔ LeafEntry s.nm s.root e) ∧
      CodesOk t

/-- 42 R95: CONSTRUCT ends exactly where BUILDT followed by DERIVE ends, faults exactly as BUILDT faults on an illegal
table, and faults with WRONG_PHASE outside phase EMPTY. On a fault nothing but the status and fault registers changes. -/
def Obligations.ConstructIsBuildtThenDerive : Prop :=
  ∀ s : State,
    (s.phase = .empty → ∀ t, exec .buildt s = .next t →
      (t.errFlag = true → exec .construct s = .next t ∧ t = s.afterFault t.errReg t.errPos) ∧
      (t.errFlag = false → exec .construct s = exec .derive t)) ∧
    (s.phase ≠ .empty → exec .construct s = .next (s.afterFault 0x0305 0x00000004))

/-- 42 R95, R96: on a legal table in phase EMPTY CONSTRUCT completes in phase READY with the tree of the table and a
prefix-free code of its symbols, each code the path of its leaf. -/
def Obligations.ConstructMakesACodec : Prop :=
  ∀ s : State, s.Inv → s.phase = .empty → LegalTable s.ft →
    ∃ t, exec .construct s = .next t ∧
      t = State.afterSuccess
        { s with
          nm := t.nm, pq := t.pq, root := t.root, nsym := t.nsym, ct := t.ct, ict := t.ict, phase := .ready } ∧
      TreeOk t ∧ CodesOk t ∧ ∀ e, e ∈ t.ict ↔ LeafEntry t.nm t.root e

/-! ### The bit encoder -/

/-- 43 R100, R102: in phase READY, with the input within IB, every symbol known and the payload within OB, ENC completes
with the packed concatenation of the codes, its length in bytes and its bit count. -/
def Obligations.EncPacksTheConcatenatedCodes : Prop :=
  ∀ s : State, s.phase = .ready → s.inLen.toNat ≤ s.cfg.ibCap →
    (∀ k < s.inLen.toNat, ctValid s.ct (s.ibByte k) = true) →
    ((s.input.flatMap (ctCode s.ct)).length + 7) / 8 ≤ s.cfg.obCap →
    exec .enc s = .next (State.afterSuccess (s.withOutput (packBits (s.input.flatMap (ctCode s.ct)))
      (((s.input.flatMap (ctCode s.ct)).length + 7) / 8) (s.input.map (fun x => (ctCode s.ct x).length)).sum))

/-- 43 R103: the payload of n bits is ceil(n / 8) bytes. Logical bit q is bit 7 - (q mod 8) of byte q div 8, and the
bits after the last one are 0. -/
def Obligations.PayloadIsPackedMsbFirst : Prop :=
  ∀ b : BitString,
    (packBits b).length = (b.length + 7) / 8 ∧
    ∀ q < 8 * ((b.length + 7) / 8),
      ((packBits b)[q / 8]?.getD 0).getLsbD (7 - q % 8) = if q < b.length then bitAt b q else false

/-- 43 R105, R106: ENCS completes under the same conditions with one character a bit, 0x30 or 0x31, first bit first. -/
def Obligations.EncsWritesOneCharacterPerBit : Prop :=
  ∀ s : State, s.phase = .ready → s.inLen.toNat ≤ s.cfg.ibCap →
    (∀ k < s.inLen.toNat, ctValid s.ct (s.ibByte k) = true) →
    (s.input.flatMap (ctCode s.ct)).length ≤ s.cfg.obCap →
    exec .encs s = .next (State.afterSuccess (s.withOutput
      ((s.input.flatMap (ctCode s.ct)).map (fun b => if b then 0x31#8 else 0x30#8))
      (s.input.flatMap (ctCode s.ct)).length (s.input.map (fun x => (ctCode s.ct x).length)).sum))

/-- 43 R100, R101, R104, R105 in the order of 60 R126: ENC and ENCS report an input that is too long, else the first
symbol without a code, else an output that does not fit, and deliver nothing. -/
def Obligations.EncoderFaultsInFixedOrder : Prop :=
  ∀ (s : State) (i : Instr) (need : Nat),
    (i = .enc ∧ need = ((s.input.flatMap (ctCode s.ct)).length + 7) / 8) ∨
      (i = .encs ∧ need = (s.input.flatMap (ctCode s.ct)).length) →
    s.phase = .ready →
    (s.cfg.ibCap < s.inLen.toNat → exec i s = .next (s.afterCodecFault 0x0104 s.inLen)) ∧
    (s.inLen.toNat ≤ s.cfg.ibCap →
      (∀ k < s.inLen.toNat, ctValid s.ct (s.ibByte k) = false →
        (∀ j < k, ctValid s.ct (s.ibByte j) = true) →
        exec i s = .next (s.afterCodecFault 0x0002 (BitVec.ofNat 32 k))) ∧
      ((∀ k < s.inLen.toNat, ctValid s.ct (s.ibByte k) = true) → s.cfg.obCap < need →
        exec i s = .next (s.afterCodecFault 0x0204 (BitVec.ofNat 32 need))))

/-! ### The bit decoder -/

/-- 44 R112: the decoder takes the first IN_BITS bits of the stream unpacked most significant bit first. -/
def Obligations.DecoderTakesTheFirstBits : Prop :=
  ∀ s : State, s.payloadBits.length = s.inBits.toNat ∧
    ∀ q < s.inBits.toNat, s.payloadBits[q]? = some ((s.ibByte (q / 8)).getLsbD (7 - q % 8))

/-- 44 R113 with 10_state R24: over a prefix-free inverse table the matching loop delivers a sequence of symbols
exactly when the bits are the concatenation of their codes. -/
def Obligations.MatchingDeliversExactlyCodeSequences : Prop :=
  ∀ (ict : List IctEntry) (b : BitString) (out : List Symbol),
    (∀ e ∈ ict, e.code ≠ []) → ict.Pairwise (fun x y => PrefixApart x.code y.code) →
    (matchBits ict b = .ok out ↔
      ∃ es : List IctEntry, (∀ e ∈ es, e ∈ ict) ∧ out = es.map IctEntry.sym ∧ b = es.flatMap IctEntry.code)

/-- 44 R114: the loop fails exactly when, after some codes, bits are left over of which no code is a prefix. The
position it reports is that of the first of them. -/
def Obligations.MatchingFailsAtTheUnmatchedCandidate : Prop :=
  ∀ (ict : List IctEntry) (b : BitString) (p : Nat),
    (∀ e ∈ ict, e.code ≠ []) → ict.Pairwise (fun x y => PrefixApart x.code y.code) →
    (matchBits ict b = .error p ↔
      ∃ (es : List IctEntry) (rest : BitString), (∀ e ∈ es, e ∈ ict) ∧ rest ≠ [] ∧
        b = es.flatMap IctEntry.code ++ rest ∧ p = (es.flatMap IctEntry.code).length ∧
        ∀ e ∈ ict, ¬ e.code <+: rest)

/-- 44 R110: DEC completes where the first IN_BITS bits are the codes of known symbols, and delivers these with
OUT_BITS 0. Nothing else but the status and fault registers changes. -/
def Obligations.DecDeliversTheSymbolsOfTheirCodes : Prop :=
  ∀ (s : State) (out : List Symbol), s.Inv → s.phase = .ready →
    s.inLen.toNat ≤ s.cfg.ibCap → s.inBits.toNat ≤ 8 * s.inLen.toNat →
    (∀ x ∈ out, ctValid s.ct x = true) → s.payloadBits = out.flatMap (ctCode s.ct) → out.length ≤ s.cfg.obCap →
    exec .dec s = .next (State.afterSuccess (s.withOutput out out.length 0))

/-- 44 R115, R106: DECS completes where the live characters are those of the codes of known symbols, and delivers these
with OUT_BITS 0. IN_BITS plays no part. -/
def Obligations.DecsDeliversTheSymbolsOfTheirCodes : Prop :=
  ∀ (s : State) (out : List Symbol), s.Inv → s.phase = .ready → s.inLen.toNat ≤ s.cfg.ibCap →
    (∀ x ∈ out, ctValid s.ct x = true) →
    s.input = (out.flatMap (ctCode s.ct)).map (fun b => if b then 0x31#8 else 0x30#8) → out.length ≤ s.cfg.obCap →
    exec .decs s = .next (State.afterSuccess (s.withOutput out out.length 0))

/-- 44 R111: DEC raises SHORT, with position 8 * IN_LEN, exactly when IN_BITS is greater than 8 * IN_LEN. -/
def Obligations.ShortStreamIffBitCountExceedsBytes : Prop :=
  ∀ s : State, s.phase = .ready → s.inLen.toNat ≤ s.cfg.ibCap →
    (8 * s.inLen.toNat < s.inBits.toNat →
      exec .dec s = .next (s.afterCodecFault 0x0203 (BitVec.ofNat 32 (8 * s.inLen.toNat)))) ∧
    (s.inBits.toNat ≤ 8 * s.inLen.toNat → ∀ t, exec .dec s = .next t → t.errReg ≠ 0x0203)

/-- 44 R116: DECS checks every character before matching and reports the first that is neither '0' nor '1'. -/
def Obligations.BadCharacterIsReportedFirst : Prop :=
  ∀ (s : State) (k : Nat), s.phase = .ready → s.inLen.toNat ≤ s.cfg.ibCap → k < s.inLen.toNat →
    s.ibByte k ≠ 0x30 → s.ibByte k ≠ 0x31 →
    (∀ j < k, s.ibByte j = 0x30 ∨ s.ibByte j = 0x31) →
    exec .decs s = .next (s.afterCodecFault 0x0303 (BitVec.ofNat 32 k))

/-- 44 R114, R115, R118, R119(c): a stream that ends with a candidate no code matches faults with MIDCODE, and no symbol
is delivered. The position is that of the candidate's first bit: for DEC a bit index into the payload, for DECS a
character index. Such a rest is any that no code of ICT begins, so a code cut short, and with one symbol in the
alphabet anything that begins with 1. -/
def Obligations.UnmatchedCandidateAtTheEndFaults : Prop :=
  ∀ (s : State) (out : List Symbol) (rest : BitString), s.Inv → s.phase = .ready → s.inLen.toNat ≤ s.cfg.ibCap →
    (∀ y ∈ out, ctValid s.ct y = true) → rest ≠ [] →
    (∀ e ∈ s.ict, ¬ e.code <+: rest) ∨
      (∃ x, ctValid s.ct x = true ∧ rest <+: ctCode s.ct x ∧ rest ≠ ctCode s.ct x) ∨
      (s.nsym = 1 ∧ rest.head? = some true) →
    (s.inBits.toNat ≤ 8 * s.inLen.toNat → s.payloadBits = out.flatMap (ctCode s.ct) ++ rest →
      exec .dec s = .next (s.afterCodecFault 0x0103 (BitVec.ofNat 32 (out.flatMap (ctCode s.ct)).length))) ∧
    (s.input = (out.flatMap (ctCode s.ct) ++ rest).map (fun b => if b then 0x31#8 else 0x30#8) →
      exec .decs s = .next (s.afterCodecFault 0x0103 (BitVec.ofNat 32 (out.flatMap (ctCode s.ct)).length)))

/-- 44 R110, R115, R117 with 60 R124: DEC and DECS report an input longer than IB_CAP before anything else, and a
decoded sequence longer than OB_CAP, with the number of symbols decoded. -/
def Obligations.DecoderCapacityFaults : Prop :=
  ∀ s : State, s.phase = .ready →
    (s.cfg.ibCap < s.inLen.toNat →
      exec .dec s = .next (s.afterCodecFault 0x0104 s.inLen) ∧
      exec .decs s = .next (s.afterCodecFault 0x0104 s.inLen)) ∧
    (∀ out, s.inLen.toNat ≤ s.cfg.ibCap → s.cfg.obCap < out.length →
      (s.inBits.toNat ≤ 8 * s.inLen.toNat → matchBits s.ict s.payloadBits = .ok out →
        exec .dec s = .next (s.afterCodecFault 0x0204 (BitVec.ofNat 32 out.length))) ∧
      ((∀ k < s.inLen.toNat, s.ibByte k = 0x30 ∨ s.ibByte k = 0x31) →
        matchBits s.ict (s.input.map (fun c => c == 0x31#8)) = .ok out →
        exec .decs s = .next (s.afterCodecFault 0x0204 (BitVec.ofNat 32 out.length))))

/-- 44 R110 (padding bits and surplus bytes are not read): the outcome of DEC is the same for any content of IB that
agrees on the first IN_BITS bits. -/
def Obligations.DecDoesNotReadPaddingOrSurplusBytes : Prop :=
  ∀ (s t : State) (m : Memory),
    (∀ q < s.inBits.toNat,
      (State.ibByte { s with ib := m } (q / 8)).getLsbD (7 - q % 8) = (s.ibByte (q / 8)).getLsbD (7 - q % 8)) →
    exec .dec s = .next t → exec .dec { s with ib := m } = .next { t with ib := m }

/-! ### Round trips (44 R119(a)) -/

/-- 44 R119(a), byte form: what ENC packed, copied by the host to IB with its bit count and decoded by a block with the
same tables, comes back as the symbols encoded. -/
def Obligations.DecodingThePackedPayloadRestoresTheSymbols : Prop :=
  ∀ s t u : State, s.Inv → s.phase = .ready → s.inLen.toNat ≤ s.cfg.ibCap →
    exec .enc s = .next t → t.errFlag = false →
    u.Inv → u.phase = .ready → u.ict = s.ict → u.ct = s.ct →
    u.inLen = t.outLen → u.inBits = t.outBits → (∀ k < t.outLen.toNat, u.ibByte k = t.obByte k) →
    u.inLen.toNat ≤ u.cfg.ibCap → s.inLen.toNat ≤ u.cfg.obCap →
    ∃ v, exec .dec u = .next v ∧ v.errFlag = false ∧ v.outLen = s.inLen ∧
      ∀ k < s.inLen.toNat, v.obByte k = s.ibByte k

/-- 44 R119(a), bit-string form: the same through ENCS and DECS. -/
def Obligations.DecodingTheBitStringRestoresTheSymbols : Prop :=
  ∀ s t u : State, s.Inv → s.phase = .ready → s.inLen.toNat ≤ s.cfg.ibCap →
    exec .encs s = .next t → t.errFlag = false →
    u.Inv → u.phase = .ready → u.ict = s.ict → u.ct = s.ct →
    u.inLen = t.outLen → (∀ k < t.outLen.toNat, u.ibByte k = t.obByte k) →
    u.inLen.toNat ≤ u.cfg.ibCap → s.inLen.toNat ≤ u.cfg.obCap →
    ∃ v, exec .decs u = .next v ∧ v.errFlag = false ∧ v.outLen = s.inLen ∧
      ∀ k < s.inLen.toNat, v.obByte k = s.ibByte k

/-! ### Rules of all commands -/

/-- 40 R70: every completion leaves the engine idle with DONE up and STATUS.ERR up exactly when ERR holds a fault
code. A success leaves ERR and ERRPOS 0. -/
def Obligations.EveryCommandEndsInOneCompletion : Prop :=
  ∀ (i : Instr) (s t : State), exec i s = .next t →
    t.busy = false ∧ t.doneFlag = true ∧ (t.errFlag = true ↔ t.errCode ≠ 0) ∧
    (t.errFlag = false → t.errReg = 0 ∧ t.errPos = 0)

/-- 60 R127: a fault latches its code and sub-cause in ERR and leaves everything else as it was at acceptance but
ERRPOS, the status flags and, where the word decoded to a codec command, OUT_LEN, OUT_BITS and OB. -/
def Obligations.FaultLeavesOnlyItsRecord : Prop :=
  ∀ (w : Word) (s t : State), runWord w s = .next t → t.errFlag = true →
    ∃ (f : CmdFault) (pos : Word),
      t = (if decode w ∈ [.ok .enc, .ok .encs, .ok .dec, .ok .decs]
        then s.afterCodecFault t.errReg pos else s.afterFault t.errReg pos) ∧
      t.errReg = (f.sub.setWidth 32 <<< 8) ||| f.code.setWidth 32

/-- 40 R71: the phase table, entry by entry. A command its phase does not allow raises the fault named, with the
command word as position (0 for DERIVE in EMPTY), and one its phase allows raises neither of these faults. -/
def Obligations.PhaseTableDecidesLegality : Prop :=
  ∀ (i : Instr) (s : State),
    (i = .buildt ∨ i = .construct → s.phase ≠ .empty → exec i s = .next (s.afterFault 0x0305 (encode i))) ∧
    (i = .derive → s.phase = .empty → exec i s = .next (s.afterFault 0x0301 0)) ∧
    (i = .derive → s.phase = .ready → exec i s = .next (s.afterFault 0x0305 (encode i))) ∧
    (i = .enc ∨ i = .encs ∨ i = .dec ∨ i = .decs → s.phase ≠ .ready →
      exec i s = .next (s.afterCodecFault 0x0305 (encode i))) ∧
    (∀ t, exec i s = .next t →
      i = .clr ∨ ((i = .buildt ∨ i = .construct) ∧ s.phase = .empty) ∨ (i = .derive ∧ s.phase = .tree) ∨
        ((i = .enc ∨ i = .encs ∨ i = .dec ∨ i = .decs) ∧ s.phase = .ready) →
      t.errReg ≠ 0x0305 ∧ t.errReg ≠ 0x0301)

/-- 10_state R27: no command but CLR moves the phase backwards, a command that faults does not change it, and the codec
commands never do. -/
def Obligations.OnlyClrMovesThePhaseBack : Prop :=
  ∀ (i : Instr) (s t : State), exec i s = .next t →
    (i ≠ .clr → s.phase.bits ≤ t.phase.bits) ∧
    (t.errFlag = true → t.phase = s.phase) ∧
    (t.phase ≠ s.phase →
      (i = .clr ∧ t.phase = .empty) ∨ (i = .buildt ∧ s.phase = .empty ∧ t.phase = .tree) ∨
      (i = .derive ∧ s.phase = .tree ∧ t.phase = .ready) ∨ (i = .construct ∧ s.phase = .empty ∧ t.phase = .ready))

/-- 10_state R27, 20_memory R57, 43 and 44 introductions: the codec commands change nothing but OUT_LEN, OUT_BITS, OB
and the status and fault registers. -/
def Obligations.CodecCommandsChangeOnlyTheirOutputs : Prop :=
  ∀ (i : Instr) (s t : State), i = .enc ∨ i = .encs ∨ i = .dec ∨ i = .decs → exec i s = .next t →
    t = { s with
      outLen := t.outLen, outBits := t.outBits, ob := t.ob, obTag := t.obTag, engine := none, doneFlag := true,
      errFlag := t.errFlag, errReg := t.errReg, errPos := t.errPos }

/-- The frame of every command, through the host's reads: a location outside those the command's rule names (40 R72,
41 R75, 42 R90, R95, 43 R100, R105, 44 R110, R115) reads as before, every byte of IB among them. -/
def Obligations.CommandsLeaveOtherLocationsAlone : Prop :=
  ∀ (i : Instr) (s t : State) (l : Loc), exec i s = .next t → l.writtenBy i = false →
    t.readLoc l = s.readLoc l ∧ t.herrFlag = s.herrFlag ∧ t.cfg = s.cfg ∧ t.script = s.script ∧ t.cp = s.cp

/-! ### The host port -/

/-- 20_memory R56, R51: no read has a side effect. A read of an idle block returns the word of the location and changes
nothing of the block. A wait on an idle block is a read of STATUS (30_encoding R65). A step is one line of the host's
script, the model's form (log 2). -/
def Obligations.ReadsHaveNoSideEffect : Prop :=
  ∀ (s : State) (a : Addr) (rest : List Line), s.engine = none →
    (s.script = .rd a :: rest →
      step s = .next { s with script := rest, cp := s.cp + 1, rdata := some (s.readLoc (locate s.cfg a)) }) ∧
    (s.script = .wait :: rest → step s = .next (State.statusRead { s with script := rest, cp := s.cp + 1 }))

/-- 20_memory R52: a reserved address reads 0, and a write to it is dropped and sets HERR. A step is one line of the
host's script, the model's form (log 2). -/
def Obligations.ReservedAddressesReadZeroAndDropWrites : Prop :=
  ∀ (s : State) (a : Addr) (v : Word) (rest : List Line), s.engine = none →
    8 ≤ addrSpace a ∨ (addrSpace a = 0 ∧ 12 ≤ addrOff a) ∨ (addrSpace a = 1 ∧ 512 ≤ addrOff a) ∨
      (addrSpace a = 2 ∧ 2044 ≤ addrOff a) ∨ (addrSpace a = 3 ∧ 256 ≤ addrOff a) ∨
      ((addrSpace a = 4 ∨ addrSpace a = 5) ∧ (4096 ≤ addrOff a ∨ 9 ≤ addrOff a % 16)) ∨
      (addrSpace a = 6 ∧ s.cfg.ibCap ≤ addrOff a) ∨ (addrSpace a = 7 ∧ s.cfg.obCap ≤ addrOff a) →
    (s.script = .rd a :: rest → step s = .next { s with script := rest, cp := s.cp + 1, rdata := some 0 }) ∧
    (s.script = .wr a v :: rest → step s = .next { s with script := rest, cp := s.cp + 1, herrFlag := true })

/-- 20_memory R51: writes to the read-only registers, to NM, PQ, CT, ICT and OB, and to FT outside phase EMPTY are
dropped: nothing changes but HERR. A step is one line of the host's script, the model's form (log 2). -/
def Obligations.ReadOnlyWritesAreDropped : Prop :=
  ∀ (s : State) (l : Loc) (v : Word) (rest : List Line), s.engine = none → s.cfg.wf = true → l.wf s.cfg = true →
    s.script = .wr (address l) v :: rest →
    l ∈ [.err, .errPos, .outLen, .outBits, .nsym, .nnodes, .root, .pqLen] ∨ (∃ i w, l = .nm i w) ∨ (∃ k, l = .pq k) ∨
      (∃ k w, l = .ct k w) ∨ (∃ i w, l = .ict i w) ∨ (∃ j, l = .ob j) ∨
      (s.phase ≠ .empty ∧ ∃ k, l = .ftFreq k ∨ l = .ftPresent k) →
    step s = .next { s with script := rest, cp := s.cp + 1, herrFlag := true }

/-- 20_memory R44: in phase EMPTY a write of FT word 0 stores the frequency and makes the entry present; word 1 with
bit 0 clear removes the entry, with bit 0 set makes it present and keeps FREQ. No other entry changes. In another phase
the write is dropped and HERR rises. Word 0 reads FREQ and word 1 reads PRESENT in bit 0. Higher offsets are reserved.
A step is one line of the host's script, the model's form (log 2). -/
def Obligations.FrequencyTableWritesInPhaseEmpty : Prop :=
  (∀ (s : State) (k : Nat) (v : Word) (rest : List Line), s.engine = none → k < Config.alphabet →
    (s.phase = .empty → s.script = .wr (addrAt 1 (2 * k)) v :: rest →
      ∃ t, step s = .next t ∧ t = { s with script := rest, cp := s.cp + 1, ft := t.ft } ∧
        t.ftFreq k = v ∧ t.ftPresent k = true ∧
        ∀ j, j ≠ k → t.ftFreq j = s.ftFreq j ∧ t.ftPresent j = s.ftPresent j) ∧
    (s.phase = .empty → s.script = .wr (addrAt 1 (2 * k + 1)) v :: rest →
      ∃ t, step s = .next t ∧ t = { s with script := rest, cp := s.cp + 1, ft := t.ft } ∧
        (v.getLsbD 0 = false → t.ftPresent k = false ∧ t.ftFreq k = 0) ∧
        (v.getLsbD 0 = true → t.ftPresent k = true ∧ t.ftFreq k = s.ftFreq k) ∧
        ∀ j, j ≠ k → t.ftFreq j = s.ftFreq j ∧ t.ftPresent j = s.ftPresent j) ∧
    (s.phase ≠ .empty → ∀ w < 2, s.script = .wr (addrAt 1 (2 * k + w)) v :: rest →
      step s = .next { s with script := rest, cp := s.cp + 1, herrFlag := true }) ∧
    s.readLoc (locate s.cfg (addrAt 1 (2 * k))) = s.ftFreq k ∧
    s.readLoc (locate s.cfg (addrAt 1 (2 * k + 1))) = (if s.ftPresent k = true then 1 else 0)) ∧
  ∀ (c : Config.Params) (off : Nat), 512 ≤ off → off < 2 ^ 16 → locate c (addrAt 1 off) = .reserved

/-- 20_memory R49, R51: a write to IB[j] stores bits 7:0, ignores the rest, and leaves every other entry and everything
else alone. The capacity bounds j. A step is one line of the host's script, the model's form (log 2). -/
def Obligations.InputBufferWriteStoresOneByte : Prop :=
  ∀ (s : State) (j : Nat) (v : Word) (rest : List Line), s.engine = none → s.cfg.wf = true → j < s.cfg.ibCap →
    s.script = .wr (addrAt 6 j) v :: rest →
    ∃ t, step s = .next t ∧ t = { s with script := rest, cp := s.cp + 1, ib := t.ib } ∧
      t.ibByte j = v.extractLsb' 0 8 ∧ t.readLoc (.ib j) = v &&& 0x000000FF#32 ∧
      ∀ k, k ≠ j → t.ibByte k = s.ibByte k

/-- 10_state R14, R16, 20_memory R43: a write to STATUS changes nothing but HERR, which it clears exactly when bit 5 is
set; writes to IN_LEN and IN_BITS store the word. A step is one line of the host's script, the model's form (log 2). -/
def Obligations.WritableRegistersTakeTheirWords : Prop :=
  ∀ (s : State) (v : Word) (rest : List Line), s.engine = none →
    (s.script = .wr (addrAt 0 1) v :: rest →
      step s = .next { s with script := rest, cp := s.cp + 1, herrFlag := s.herrFlag && !v.getLsbD 5 }) ∧
    (s.script = .wr (addrAt 0 4) v :: rest → step s = .next { s with script := rest, cp := s.cp + 1, inLen := v }) ∧
    (s.script = .wr (addrAt 0 5) v :: rest → step s = .next { s with script := rest, cp := s.cp + 1, inBits := v })

/-- 20_memory R42 to R49: a location that exists and its address name each other, so no two locations share an
address. -/
def Obligations.AddressAndLocationNameEachOther : Prop :=
  ∀ c : Config.Params, c.wf = true →
    (∀ l : Loc, l.wf c = true → locate c (address l) = l) ∧
    (∀ a : Addr, locate c a ≠ .reserved → address (locate c a) = a ∧ (locate c a).wf c = true)

/-- 20_memory R43, R46, R49, 10_state R14, R26: what the host reads at each register, the bits of STATUS among them, at
each queue position (0 at and above PQ_LEN), and in the buffers: an IB entry its byte, a live OB entry the byte the
command left there, and bits 31:8 always 0. -/
def Obligations.RegistersQueueAndBuffersRead : Prop :=
  ∀ s : State,
    (s.readAt 0 0x0 = 0 ∧
      ((s.readAt 0 0x1).getLsbD 0 = s.busy ∧ (s.readAt 0 0x1).getLsbD 1 = s.doneFlag ∧
        (s.readAt 0 0x1).getLsbD 2 = s.errFlag ∧ (s.readAt 0 0x1).extractLsb' 3 2 = s.phase.bits ∧
        (s.readAt 0 0x1).getLsbD 5 = s.herrFlag ∧ (s.readAt 0 0x1).extractLsb' 6 26 = 0#26) ∧
      s.readAt 0 0x2 = s.errReg ∧ s.readAt 0 0x3 = s.errPos ∧ s.readAt 0 0x4 = s.inLen ∧ s.readAt 0 0x5 = s.inBits ∧
      s.readAt 0 0x6 = s.outLen ∧ s.readAt 0 0x7 = s.outBits ∧ s.readAt 0 0x8 = s.nsym.setWidth 32 ∧
      (s.nm.length ≤ Config.nodeCap → s.readAt 0 0x9 = BitVec.ofNat 32 s.nm.length) ∧
      s.readAt 0 0xA = s.root.setWidth 32 ∧
      (s.pq.length ≤ Config.alphabet → s.readAt 0 0xB = BitVec.ofNat 32 s.pq.length)) ∧
    (∀ k < Config.alphabet,
      (∀ q, s.pq[k]? = some q → s.readAt 3 k = q.setWidth 32) ∧ (s.pq.length ≤ k → s.readAt 3 k = 0)) ∧
    (s.cfg.wf = true →
      (∀ j < s.cfg.ibCap, s.readAt 6 j = (s.ibByte j).setWidth 32) ∧
      (∀ j < s.cfg.obCap,
        (s.readAt 7 j).extractLsb' 8 24 = 0#24 ∧
        (j < s.outLen.toNat → ∀ b, s.ob[j]? = some b → s.readAt 7 j = b.setWidth 32))) ∧
    (s.Inv → ∀ j < s.outLen.toNat, j < s.cfg.obCap ∧ ∃ b, s.ob[j]? = some b)

/-- 20_memory R47, R48, R50: the word images of CT and ICT and the offsets at which they stand. Word 0 holds VALID, LEN
and, in ICT, SYM. Bit c[j] of a code is bit 31 - (j mod 32) of word 1 + (j div 32), and all positions from LEN on hold
0. An entry that is not valid reads 0, and so do words 9 to 15 of every entry. -/
def Obligations.CodeFieldIsStoredFirstBitFirst : Prop :=
  (∀ (s : State) (k w : Nat), k < Config.alphabet →
    (w < 9 → s.readAt 4 (16 * k + w) = ctWord (Table.get? s.ct k) w ∧
      s.readAt 5 (16 * k + w) = ictWord s.ict[k]? w) ∧
    (9 ≤ w → w < 16 → s.readAt 4 (16 * k + w) = 0 ∧ s.readAt 5 (16 * k + w) = 0)) ∧
  (∀ w, ctWord none w = 0 ∧ ictWord none w = 0) ∧
  ∀ (c : BitString) (e : IctEntry), e.code = c →
    (c.length ≤ Config.codeMax →
      ctWord (some c) 0 = 0x80000000#32 ||| BitVec.ofNat 32 c.length ∧
      ictWord (some e) 0 = 0x80000000#32 ||| (e.sym.setWidth 32 <<< 16) ||| BitVec.ofNat 32 c.length) ∧
    ∀ j < 256,
      (ctWord (some c) (1 + j / 32)).getLsbD (31 - j % 32) = (if j < c.length then bitAt c j else false) ∧
      (ictWord (some e) (1 + j / 32)).getLsbD (31 - j % 32) = (if j < c.length then bitAt c j else false)

/-- 20_memory R45: the four words of a valid NM entry, field by field, and of an invalid one, and the offsets at which
they stand. -/
def Obligations.NodeEntryWordImages : Prop :=
  (∀ (s : State) (i w : Nat), i < Config.nodeCap → w < 4 →
    s.readLoc (locate s.cfg (addrAt 2 (4 * i + w))) = nmWord s.nm[i]? w) ∧
  (∀ (c : Config.Params) (off : Nat), 2044 ≤ off → off < 2 ^ 16 → locate c (addrAt 2 off) = .reserved) ∧
  (∀ w, nmWord none w = 0) ∧
  (∀ (sym : Symbol) (f : NodeFreq),
    nmWord (some (.leaf sym f)) 0 = 0x80000000#32 ||| sym.setWidth 32 ∧
    (nmWord (some (.leaf sym f)) 1).toNat + 2 ^ 32 * (nmWord (some (.leaf sym f)) 2).toNat = f.toNat ∧
    nmWord (some (.leaf sym f)) 3 = 0) ∧
  (∀ (f : NodeFreq) (l r : NodeIdx),
    nmWord (some (.internal f l r)) 0 = 0xC0000000#32 ∧
    (nmWord (some (.internal f l r)) 1).toNat + 2 ^ 32 * (nmWord (some (.internal f l r)) 2).toNat = f.toNat ∧
    nmWord (some (.internal f l r)) 3 = (r.setWidth 32 <<< 16) ||| l.setWidth 32)

/-- 60 R131: HERR falls only by a write to STATUS with bit 5 set or by reset, and rises only when the block drops a
write: one to a location that takes none in this phase, or one sent while the engine is busy. A step is one line of the
host's script, the model's form (log 2). -/
def Obligations.HerrRisesOnDroppedWritesOnly : Prop :=
  ∀ s t : State, step s = .next t →
    (s.herrFlag = true → t.herrFlag = false →
      (∃ rest, s.script = .reset :: rest) ∨
      (∃ a v rest, s.script = .wr a v :: rest ∧ locate s.cfg a = .status ∧ v.getLsbD 5 = true)) ∧
    (s.herrFlag = false → t.herrFlag = true →
      (s.busy = true ∧ ∃ w rest, s.script = .cmd w :: rest) ∨
      (∃ a v rest, s.script = .wr a v :: rest ∧
        (s.busy = true ∨
          (locate s.cfg a ∉ [.cmd, .status, .inLen, .inBits] ∧ (∀ j, locate s.cfg a ≠ .ib j) ∧
            (s.phase = .empty → ∀ k, locate s.cfg a ≠ .ftFreq k ∧ locate s.cfg a ≠ .ftPresent k)))))

/-- 10_state R17, R27, 70 R147: outside phase EMPTY no step changes FT unless the line is a reset or a CLR takes
effect, that is, unless the phase is EMPTY afterwards. The same holds of NM and PQ. A step is one line of the host's
script, the model's form (log 2). -/
def Obligations.TablesAreFrozenOutsidePhaseEmpty : Prop :=
  ∀ s t : State, step s = .next t → s.phase ≠ .empty → t.phase ≠ .empty →
    t.ft = s.ft ∧ t.nm = s.nm ∧ t.pq = s.pq ∧ t.root = s.root ∧ t.nsym = s.nsym

/-! ### The invariant -/

/-- The state after reset meets the invariant (10_state R30). -/
def Obligations.ResetStateMeetsTheInvariant : Prop := State.reset.Inv

/-- Every step keeps the invariant (10_state R14 to R27): status and fault registers agree, the tables are in canonical
form, the node store is the tree of the frequency table, the code tables are inverse, prefix-free and the walk of that
tree, and each phase has what 10_state R27 says exists in it. The clause that only a command is in flight is the model's
reading of 30_encoding R63 "completes at once" (log 17, DEDUCED, unsafe). A step is one line of the host's script, the
model's form (log 2). -/
def Obligations.EveryStepKeepsTheInvariant : Prop := ∀ s t : State, s.Inv → step s = .next t → t.Inv

/-- 60 R127, R128, R134: from every state that meets the invariant the machine has a next state; nothing stops it. A
step is one line of the host's script, the model's form (log 2). -/
def Obligations.EveryGoodStateHasANextState : Prop := ∀ s : State, s.Inv → SafeStep s
end

