-- ==== Sys2Proof/Laws/Bits.lean ====
section
/-! SUPPORT. Bit order: what `msbFirst`, the packing of 43 R103, the unpacking of 44 R112, code words (20_memory R50) and
characters (43 R106) give, bit by bit. -/

namespace Sys2Proof.Machine

theorem bitAt_of_lt {b : BitString} {q : Nat} (h : q < b.length) : bitAt b q = b[q] := by
  simp [bitAt, List.getElem?_eq_getElem h]

theorem bitAt_of_ge {b : BitString} {q : Nat} (h : b.length ≤ q) : bitAt b q = false := by
  simp [bitAt, List.getElem?_eq_none h]

theorem msbFirst_lt (b : BitString) (s n : Nat) : msbFirst b s n < 2 ^ n := by
  induction n with
  | zero => simp [msbFirst]
  | succ n ih =>
    have h1 : (bitAt b (s + n)).toNat ≤ 1 := Bool.toNat_le _
    rw [msbFirst, Nat.pow_succ]; omega

/-- Bit `i` from the low end of an MSB-first number is bit `n - 1 - i` of the string. -/
theorem msbFirst_testBit (b : BitString) (s n i : Nat) (h : i < n) :
    (msbFirst b s n).testBit i = bitAt b (s + (n - 1 - i)) := by
  induction n generalizing i with
  | zero => omega
  | succ n ih =>
    rw [msbFirst]
    cases i with
    | zero =>
      cases hb : bitAt b (s + n) <;> simp [hb, Nat.testBit_zero]
    | succ i =>
      rw [Nat.testBit_succ]
      have h2 : (2 * msbFirst b s n + (bitAt b (s + n)).toNat) / 2 = msbFirst b s n := by
        have h1 : (bitAt b (s + n)).toNat ≤ 1 := Bool.toNat_le _
        omega
      rw [h2, ih i (by omega)]
      congr 2; omega

theorem packByte_getLsbD (b : BitString) (k j : Nat) (h : j < 8) :
    (packByte b k).getLsbD (7 - j) = bitAt b (8 * k + j) := by
  rw [packByte, BitVec.getLsbD_ofNat, msbFirst_testBit _ _ _ _ (by omega)]
  have h1 : 7 - j < 8 := by omega
  have h2 : 8 - 1 - (7 - j) = j := by omega
  simp [h1, h2]

@[simp] theorem packBits_length (b : BitString) : (packBits b).length = ceilDiv b.length 8 := by simp [packBits]

theorem packBits_getElem? {b : BitString} {k : Nat} (h : k < ceilDiv b.length 8) :
    (packBits b)[k]? = some (packByte b k) := by
  simp [packBits, h]

@[simp] theorem unpackBits_length (f : Nat → Byte) (n : Nat) : (unpackBits f n).length = n := by simp [unpackBits]

theorem unpackBits_getElem? {f : Nat → Byte} {n q : Nat} (h : q < n) : (unpackBits f n)[q]? = some (payloadBit f q) := by
  simp [unpackBits, h]

theorem unpackBits_congr {f g : Nat → Byte} {n : Nat} (h : ∀ q < n, payloadBit f q = payloadBit g q) :
    unpackBits f n = unpackBits g n := by
  unfold unpackBits
  exact List.map_congr_left fun q hq => h q (List.mem_range.1 hq)

/-- A stream that begins with the packed bytes unpacks to the bits. -/
theorem unpackBits_packed {f : Nat → Byte} {b : BitString} (h : ∀ k < ceilDiv b.length 8, f k = packByte b k) :
    unpackBits f b.length = b := by
  refine List.ext_getElem (by simp) fun q h1 h2 => ?_
  have hk : q / 8 < ceilDiv b.length 8 := by unfold ceilDiv; omega
  have hq : 8 * (q / 8) + q % 8 = q := Nat.div_add_mod q 8
  simp only [unpackBits, List.getElem_map, List.getElem_range, payloadBit]
  rw [h _ hk, packByte_getLsbD _ _ _ (Nat.mod_lt _ (by decide)), hq, bitAt_of_lt h2]

theorem codeWord_getLsbD (c : BitString) (w j : Nat) (h : j < 32) :
    (codeWord c w).getLsbD (31 - j) = bitAt c (32 * (w - 1) + j) := by
  rw [codeWord, BitVec.getLsbD_ofNat, msbFirst_testBit _ _ _ _ (by omega)]
  have h1 : 31 - j < 32 := by omega
  have h2 : 32 - 1 - (31 - j) = j := by omega
  simp [h1, h2]

@[simp] theorem charBit_bitChar (b : Bool) : charBit (bitChar b) = b := by cases b <;> decide

@[simp] theorem isBitChar_bitChar (b : Bool) : isBitChar (bitChar b) = true := by cases b <;> decide

theorem isBitChar_iff (c : Byte) : isBitChar c = true ↔ c = 0x30 ∨ c = 0x31 := by simp [isBitChar]

@[simp] theorem map_charBit_bitChar (b : BitString) : (b.map bitChar).map charBit = b := by
  simp [List.map_map, Function.comp_def]

@[simp] theorem State.ibBytes_length (s : State) (n : Nat) : (s.ibBytes n).length = n := by simp [State.ibBytes]

@[simp] theorem State.input_length (s : State) : s.input.length = s.inLen.toNat := by simp [State.input]

theorem State.input_getElem? {s : State} {k : Nat} (h : k < s.inLen.toNat) : s.input[k]? = some (s.ibByte k) := by
  simp [State.input, State.ibBytes, h]

theorem State.input_getElem {s : State} {k : Nat} (h : k < s.input.length) : s.input[k] = s.ibByte k := by
  simp [State.input, State.ibBytes]

end Sys2Proof.Machine
end

