-- ==== Sys2Proof/Laws/State.lean ====
section
/-! SUPPORT. One lemma per field of State for each update of State, so that no later proof unfolds a record update. -/

namespace Sys2Proof.Machine

/-! ### Acceptance -/

@[simp] theorem State.accept_cfg (s : State) (w : Word) :
    (s.accept w).cfg = s.cfg := rfl

@[simp] theorem State.accept_engine (s : State) (w : Word) :
    (s.accept w).engine = some w := rfl

@[simp] theorem State.accept_doneFlag (s : State) (w : Word) :
    (s.accept w).doneFlag = false := rfl

@[simp] theorem State.accept_errFlag (s : State) (w : Word) :
    (s.accept w).errFlag = false := rfl

@[simp] theorem State.accept_phase (s : State) (w : Word) :
    (s.accept w).phase = s.phase := rfl

@[simp] theorem State.accept_herrFlag (s : State) (w : Word) :
    (s.accept w).herrFlag = s.herrFlag := rfl

@[simp] theorem State.accept_errReg (s : State) (w : Word) :
    (s.accept w).errReg = s.errReg := rfl

@[simp] theorem State.accept_errPos (s : State) (w : Word) :
    (s.accept w).errPos = s.errPos := rfl

@[simp] theorem State.accept_inLen (s : State) (w : Word) :
    (s.accept w).inLen = s.inLen := rfl

@[simp] theorem State.accept_inBits (s : State) (w : Word) :
    (s.accept w).inBits = s.inBits := rfl

@[simp] theorem State.accept_outLen (s : State) (w : Word) :
    (s.accept w).outLen = s.outLen := rfl

@[simp] theorem State.accept_outBits (s : State) (w : Word) :
    (s.accept w).outBits = s.outBits := rfl

@[simp] theorem State.accept_nsym (s : State) (w : Word) :
    (s.accept w).nsym = s.nsym := rfl

@[simp] theorem State.accept_root (s : State) (w : Word) :
    (s.accept w).root = s.root := rfl

@[simp] theorem State.accept_ft (s : State) (w : Word) :
    (s.accept w).ft = s.ft := rfl

@[simp] theorem State.accept_nm (s : State) (w : Word) :
    (s.accept w).nm = s.nm := rfl

@[simp] theorem State.accept_pq (s : State) (w : Word) :
    (s.accept w).pq = s.pq := rfl

@[simp] theorem State.accept_ct (s : State) (w : Word) :
    (s.accept w).ct = s.ct := rfl

@[simp] theorem State.accept_ict (s : State) (w : Word) :
    (s.accept w).ict = s.ict := rfl

@[simp] theorem State.accept_ib (s : State) (w : Word) :
    (s.accept w).ib = s.ib := rfl

@[simp] theorem State.accept_ob (s : State) (w : Word) :
    (s.accept w).ob = s.ob := rfl

@[simp] theorem State.accept_ibTag (s : State) (w : Word) :
    (s.accept w).ibTag = s.ibTag := rfl

@[simp] theorem State.accept_obTag (s : State) (w : Word) :
    (s.accept w).obTag = s.obTag := rfl

@[simp] theorem State.accept_pick (s : State) (w : Word) :
    (s.accept w).pick = s.pick := rfl

@[simp] theorem State.accept_script (s : State) (w : Word) :
    (s.accept w).script = s.script := rfl

@[simp] theorem State.accept_cp (s : State) (w : Word) :
    (s.accept w).cp = s.cp := rfl

@[simp] theorem State.accept_rdata (s : State) (w : Word) :
    (s.accept w).rdata = s.rdata := rfl

/-! ### Normal completion -/

@[simp] theorem State.complete_cfg (s : State) :
    (s.complete).cfg = s.cfg := rfl

@[simp] theorem State.complete_engine (s : State) :
    (s.complete).engine = none := rfl

@[simp] theorem State.complete_doneFlag (s : State) :
    (s.complete).doneFlag = true := rfl

@[simp] theorem State.complete_errFlag (s : State) :
    (s.complete).errFlag = s.errFlag := rfl

@[simp] theorem State.complete_phase (s : State) :
    (s.complete).phase = s.phase := rfl

@[simp] theorem State.complete_herrFlag (s : State) :
    (s.complete).herrFlag = s.herrFlag := rfl

@[simp] theorem State.complete_errReg (s : State) :
    (s.complete).errReg = 0 := rfl

@[simp] theorem State.complete_errPos (s : State) :
    (s.complete).errPos = 0 := rfl

@[simp] theorem State.complete_inLen (s : State) :
    (s.complete).inLen = s.inLen := rfl

@[simp] theorem State.complete_inBits (s : State) :
    (s.complete).inBits = s.inBits := rfl

@[simp] theorem State.complete_outLen (s : State) :
    (s.complete).outLen = s.outLen := rfl

@[simp] theorem State.complete_outBits (s : State) :
    (s.complete).outBits = s.outBits := rfl

@[simp] theorem State.complete_nsym (s : State) :
    (s.complete).nsym = s.nsym := rfl

@[simp] theorem State.complete_root (s : State) :
    (s.complete).root = s.root := rfl

@[simp] theorem State.complete_ft (s : State) :
    (s.complete).ft = s.ft := rfl

@[simp] theorem State.complete_nm (s : State) :
    (s.complete).nm = s.nm := rfl

@[simp] theorem State.complete_pq (s : State) :
    (s.complete).pq = s.pq := rfl

@[simp] theorem State.complete_ct (s : State) :
    (s.complete).ct = s.ct := rfl

@[simp] theorem State.complete_ict (s : State) :
    (s.complete).ict = s.ict := rfl

@[simp] theorem State.complete_ib (s : State) :
    (s.complete).ib = s.ib := rfl

@[simp] theorem State.complete_ob (s : State) :
    (s.complete).ob = s.ob := rfl

@[simp] theorem State.complete_ibTag (s : State) :
    (s.complete).ibTag = s.ibTag := rfl

@[simp] theorem State.complete_obTag (s : State) :
    (s.complete).obTag = s.obTag := rfl

@[simp] theorem State.complete_pick (s : State) :
    (s.complete).pick = s.pick := rfl

@[simp] theorem State.complete_script (s : State) :
    (s.complete).script = s.script := rfl

@[simp] theorem State.complete_cp (s : State) :
    (s.complete).cp = s.cp := rfl

@[simp] theorem State.complete_rdata (s : State) :
    (s.complete).rdata = s.rdata := rfl

/-! ### The output discarded -/

@[simp] theorem State.dropOutput_cfg (s : State) :
    (s.dropOutput).cfg = s.cfg := rfl

@[simp] theorem State.dropOutput_engine (s : State) :
    (s.dropOutput).engine = s.engine := rfl

@[simp] theorem State.dropOutput_doneFlag (s : State) :
    (s.dropOutput).doneFlag = s.doneFlag := rfl

@[simp] theorem State.dropOutput_errFlag (s : State) :
    (s.dropOutput).errFlag = s.errFlag := rfl

@[simp] theorem State.dropOutput_phase (s : State) :
    (s.dropOutput).phase = s.phase := rfl

@[simp] theorem State.dropOutput_herrFlag (s : State) :
    (s.dropOutput).herrFlag = s.herrFlag := rfl

@[simp] theorem State.dropOutput_errReg (s : State) :
    (s.dropOutput).errReg = s.errReg := rfl

@[simp] theorem State.dropOutput_errPos (s : State) :
    (s.dropOutput).errPos = s.errPos := rfl

@[simp] theorem State.dropOutput_inLen (s : State) :
    (s.dropOutput).inLen = s.inLen := rfl

@[simp] theorem State.dropOutput_inBits (s : State) :
    (s.dropOutput).inBits = s.inBits := rfl

@[simp] theorem State.dropOutput_outLen (s : State) :
    (s.dropOutput).outLen = 0 := rfl

@[simp] theorem State.dropOutput_outBits (s : State) :
    (s.dropOutput).outBits = 0 := rfl

@[simp] theorem State.dropOutput_nsym (s : State) :
    (s.dropOutput).nsym = s.nsym := rfl

@[simp] theorem State.dropOutput_root (s : State) :
    (s.dropOutput).root = s.root := rfl

@[simp] theorem State.dropOutput_ft (s : State) :
    (s.dropOutput).ft = s.ft := rfl

@[simp] theorem State.dropOutput_nm (s : State) :
    (s.dropOutput).nm = s.nm := rfl

@[simp] theorem State.dropOutput_pq (s : State) :
    (s.dropOutput).pq = s.pq := rfl

@[simp] theorem State.dropOutput_ct (s : State) :
    (s.dropOutput).ct = s.ct := rfl

@[simp] theorem State.dropOutput_ict (s : State) :
    (s.dropOutput).ict = s.ict := rfl

@[simp] theorem State.dropOutput_ib (s : State) :
    (s.dropOutput).ib = s.ib := rfl

@[simp] theorem State.dropOutput_ob (s : State) :
    (s.dropOutput).ob = [] := rfl

@[simp] theorem State.dropOutput_ibTag (s : State) :
    (s.dropOutput).ibTag = s.ibTag := rfl

@[simp] theorem State.dropOutput_obTag (s : State) :
    (s.dropOutput).obTag = s.obTag + 1 := rfl

@[simp] theorem State.dropOutput_pick (s : State) :
    (s.dropOutput).pick = s.pick := rfl

@[simp] theorem State.dropOutput_script (s : State) :
    (s.dropOutput).script = s.script := rfl

@[simp] theorem State.dropOutput_cp (s : State) :
    (s.dropOutput).cp = s.cp := rfl

@[simp] theorem State.dropOutput_rdata (s : State) :
    (s.dropOutput).rdata = s.rdata := rfl

/-! ### Fault entry -/

@[simp] theorem State.faultEntry_cfg (s : State) (c : Bool) (f : CmdFault) (p : Word) :
    (s.faultEntry c f p).cfg = s.cfg := by
  cases c <;> rfl

@[simp] theorem State.faultEntry_engine (s : State) (c : Bool) (f : CmdFault) (p : Word) :
    (s.faultEntry c f p).engine = none := by
  cases c <;> rfl

@[simp] theorem State.faultEntry_doneFlag (s : State) (c : Bool) (f : CmdFault) (p : Word) :
    (s.faultEntry c f p).doneFlag = true := by
  cases c <;> rfl

@[simp] theorem State.faultEntry_errFlag (s : State) (c : Bool) (f : CmdFault) (p : Word) :
    (s.faultEntry c f p).errFlag = true := by
  cases c <;> rfl

@[simp] theorem State.faultEntry_phase (s : State) (c : Bool) (f : CmdFault) (p : Word) :
    (s.faultEntry c f p).phase = s.phase := by
  cases c <;> rfl

@[simp] theorem State.faultEntry_herrFlag (s : State) (c : Bool) (f : CmdFault) (p : Word) :
    (s.faultEntry c f p).herrFlag = s.herrFlag := by
  cases c <;> rfl

@[simp] theorem State.faultEntry_errReg (s : State) (c : Bool) (f : CmdFault) (p : Word) :
    (s.faultEntry c f p).errReg = f.errWord := by
  cases c <;> rfl

@[simp] theorem State.faultEntry_errPos (s : State) (c : Bool) (f : CmdFault) (p : Word) :
    (s.faultEntry c f p).errPos = p := by
  cases c <;> rfl

@[simp] theorem State.faultEntry_inLen (s : State) (c : Bool) (f : CmdFault) (p : Word) :
    (s.faultEntry c f p).inLen = s.inLen := by
  cases c <;> rfl

@[simp] theorem State.faultEntry_inBits (s : State) (c : Bool) (f : CmdFault) (p : Word) :
    (s.faultEntry c f p).inBits = s.inBits := by
  cases c <;> rfl

@[simp] theorem State.faultEntry_outLen (s : State) (c : Bool) (f : CmdFault) (p : Word) :
    (s.faultEntry c f p).outLen = if c then 0 else s.outLen := by
  cases c <;> rfl

@[simp] theorem State.faultEntry_outBits (s : State) (c : Bool) (f : CmdFault) (p : Word) :
    (s.faultEntry c f p).outBits = if c then 0 else s.outBits := by
  cases c <;> rfl

@[simp] theorem State.faultEntry_nsym (s : State) (c : Bool) (f : CmdFault) (p : Word) :
    (s.faultEntry c f p).nsym = s.nsym := by
  cases c <;> rfl

@[simp] theorem State.faultEntry_root (s : State) (c : Bool) (f : CmdFault) (p : Word) :
    (s.faultEntry c f p).root = s.root := by
  cases c <;> rfl

@[simp] theorem State.faultEntry_ft (s : State) (c : Bool) (f : CmdFault) (p : Word) :
    (s.faultEntry c f p).ft = s.ft := by
  cases c <;> rfl

@[simp] theorem State.faultEntry_nm (s : State) (c : Bool) (f : CmdFault) (p : Word) :
    (s.faultEntry c f p).nm = s.nm := by
  cases c <;> rfl

@[simp] theorem State.faultEntry_pq (s : State) (c : Bool) (f : CmdFault) (p : Word) :
    (s.faultEntry c f p).pq = s.pq := by
  cases c <;> rfl

@[simp] theorem State.faultEntry_ct (s : State) (c : Bool) (f : CmdFault) (p : Word) :
    (s.faultEntry c f p).ct = s.ct := by
  cases c <;> rfl

@[simp] theorem State.faultEntry_ict (s : State) (c : Bool) (f : CmdFault) (p : Word) :
    (s.faultEntry c f p).ict = s.ict := by
  cases c <;> rfl

@[simp] theorem State.faultEntry_ib (s : State) (c : Bool) (f : CmdFault) (p : Word) :
    (s.faultEntry c f p).ib = s.ib := by
  cases c <;> rfl

@[simp] theorem State.faultEntry_ob (s : State) (c : Bool) (f : CmdFault) (p : Word) :
    (s.faultEntry c f p).ob = if c then [] else s.ob := by
  cases c <;> rfl

@[simp] theorem State.faultEntry_ibTag (s : State) (c : Bool) (f : CmdFault) (p : Word) :
    (s.faultEntry c f p).ibTag = s.ibTag := by
  cases c <;> rfl

@[simp] theorem State.faultEntry_obTag (s : State) (c : Bool) (f : CmdFault) (p : Word) :
    (s.faultEntry c f p).obTag = if c then s.obTag + 1 else s.obTag := by
  cases c <;> rfl

@[simp] theorem State.faultEntry_pick (s : State) (c : Bool) (f : CmdFault) (p : Word) :
    (s.faultEntry c f p).pick = s.pick := by
  cases c <;> rfl

@[simp] theorem State.faultEntry_script (s : State) (c : Bool) (f : CmdFault) (p : Word) :
    (s.faultEntry c f p).script = s.script := by
  cases c <;> rfl

@[simp] theorem State.faultEntry_cp (s : State) (c : Bool) (f : CmdFault) (p : Word) :
    (s.faultEntry c f p).cp = s.cp := by
  cases c <;> rfl

@[simp] theorem State.faultEntry_rdata (s : State) (c : Bool) (f : CmdFault) (p : Word) :
    (s.faultEntry c f p).rdata = s.rdata := by
  cases c <;> rfl

/-! ### A dropped write -/

@[simp] theorem State.dropWrite_cfg (s : State) :
    (s.dropWrite).cfg = s.cfg := rfl

@[simp] theorem State.dropWrite_engine (s : State) :
    (s.dropWrite).engine = s.engine := rfl

@[simp] theorem State.dropWrite_doneFlag (s : State) :
    (s.dropWrite).doneFlag = s.doneFlag := rfl

@[simp] theorem State.dropWrite_errFlag (s : State) :
    (s.dropWrite).errFlag = s.errFlag := rfl

@[simp] theorem State.dropWrite_phase (s : State) :
    (s.dropWrite).phase = s.phase := rfl

@[simp] theorem State.dropWrite_herrFlag (s : State) :
    (s.dropWrite).herrFlag = true := rfl

@[simp] theorem State.dropWrite_errReg (s : State) :
    (s.dropWrite).errReg = s.errReg := rfl

@[simp] theorem State.dropWrite_errPos (s : State) :
    (s.dropWrite).errPos = s.errPos := rfl

@[simp] theorem State.dropWrite_inLen (s : State) :
    (s.dropWrite).inLen = s.inLen := rfl

@[simp] theorem State.dropWrite_inBits (s : State) :
    (s.dropWrite).inBits = s.inBits := rfl

@[simp] theorem State.dropWrite_outLen (s : State) :
    (s.dropWrite).outLen = s.outLen := rfl

@[simp] theorem State.dropWrite_outBits (s : State) :
    (s.dropWrite).outBits = s.outBits := rfl

@[simp] theorem State.dropWrite_nsym (s : State) :
    (s.dropWrite).nsym = s.nsym := rfl

@[simp] theorem State.dropWrite_root (s : State) :
    (s.dropWrite).root = s.root := rfl

@[simp] theorem State.dropWrite_ft (s : State) :
    (s.dropWrite).ft = s.ft := rfl

@[simp] theorem State.dropWrite_nm (s : State) :
    (s.dropWrite).nm = s.nm := rfl

@[simp] theorem State.dropWrite_pq (s : State) :
    (s.dropWrite).pq = s.pq := rfl

@[simp] theorem State.dropWrite_ct (s : State) :
    (s.dropWrite).ct = s.ct := rfl

@[simp] theorem State.dropWrite_ict (s : State) :
    (s.dropWrite).ict = s.ict := rfl

@[simp] theorem State.dropWrite_ib (s : State) :
    (s.dropWrite).ib = s.ib := rfl

@[simp] theorem State.dropWrite_ob (s : State) :
    (s.dropWrite).ob = s.ob := rfl

@[simp] theorem State.dropWrite_ibTag (s : State) :
    (s.dropWrite).ibTag = s.ibTag := rfl

@[simp] theorem State.dropWrite_obTag (s : State) :
    (s.dropWrite).obTag = s.obTag := rfl

@[simp] theorem State.dropWrite_pick (s : State) :
    (s.dropWrite).pick = s.pick := rfl

@[simp] theorem State.dropWrite_script (s : State) :
    (s.dropWrite).script = s.script := rfl

@[simp] theorem State.dropWrite_cp (s : State) :
    (s.dropWrite).cp = s.cp := rfl

@[simp] theorem State.dropWrite_rdata (s : State) :
    (s.dropWrite).rdata = s.rdata := rfl

/-! ### A result delivered -/

@[simp] theorem State.deliver_cfg (s : State) (o : List Byte) (n : Nat) :
    (s.deliver o n).cfg = s.cfg := rfl

@[simp] theorem State.deliver_engine (s : State) (o : List Byte) (n : Nat) :
    (s.deliver o n).engine = s.engine := rfl

@[simp] theorem State.deliver_doneFlag (s : State) (o : List Byte) (n : Nat) :
    (s.deliver o n).doneFlag = s.doneFlag := rfl

@[simp] theorem State.deliver_errFlag (s : State) (o : List Byte) (n : Nat) :
    (s.deliver o n).errFlag = s.errFlag := rfl

@[simp] theorem State.deliver_phase (s : State) (o : List Byte) (n : Nat) :
    (s.deliver o n).phase = s.phase := rfl

@[simp] theorem State.deliver_herrFlag (s : State) (o : List Byte) (n : Nat) :
    (s.deliver o n).herrFlag = s.herrFlag := rfl

@[simp] theorem State.deliver_errReg (s : State) (o : List Byte) (n : Nat) :
    (s.deliver o n).errReg = s.errReg := rfl

@[simp] theorem State.deliver_errPos (s : State) (o : List Byte) (n : Nat) :
    (s.deliver o n).errPos = s.errPos := rfl

@[simp] theorem State.deliver_inLen (s : State) (o : List Byte) (n : Nat) :
    (s.deliver o n).inLen = s.inLen := rfl

@[simp] theorem State.deliver_inBits (s : State) (o : List Byte) (n : Nat) :
    (s.deliver o n).inBits = s.inBits := rfl

@[simp] theorem State.deliver_outLen (s : State) (o : List Byte) (n : Nat) :
    (s.deliver o n).outLen = BitVec.ofNat 32 o.length := rfl

@[simp] theorem State.deliver_outBits (s : State) (o : List Byte) (n : Nat) :
    (s.deliver o n).outBits = BitVec.ofNat 32 n := rfl

@[simp] theorem State.deliver_nsym (s : State) (o : List Byte) (n : Nat) :
    (s.deliver o n).nsym = s.nsym := rfl

@[simp] theorem State.deliver_root (s : State) (o : List Byte) (n : Nat) :
    (s.deliver o n).root = s.root := rfl

@[simp] theorem State.deliver_ft (s : State) (o : List Byte) (n : Nat) :
    (s.deliver o n).ft = s.ft := rfl

@[simp] theorem State.deliver_nm (s : State) (o : List Byte) (n : Nat) :
    (s.deliver o n).nm = s.nm := rfl

@[simp] theorem State.deliver_pq (s : State) (o : List Byte) (n : Nat) :
    (s.deliver o n).pq = s.pq := rfl

@[simp] theorem State.deliver_ct (s : State) (o : List Byte) (n : Nat) :
    (s.deliver o n).ct = s.ct := rfl

@[simp] theorem State.deliver_ict (s : State) (o : List Byte) (n : Nat) :
    (s.deliver o n).ict = s.ict := rfl

@[simp] theorem State.deliver_ib (s : State) (o : List Byte) (n : Nat) :
    (s.deliver o n).ib = s.ib := rfl

@[simp] theorem State.deliver_ob (s : State) (o : List Byte) (n : Nat) :
    (s.deliver o n).ob = o := rfl

@[simp] theorem State.deliver_ibTag (s : State) (o : List Byte) (n : Nat) :
    (s.deliver o n).ibTag = s.ibTag := rfl

@[simp] theorem State.deliver_obTag (s : State) (o : List Byte) (n : Nat) :
    (s.deliver o n).obTag = s.obTag + 1 := rfl

@[simp] theorem State.deliver_pick (s : State) (o : List Byte) (n : Nat) :
    (s.deliver o n).pick = s.pick := rfl

@[simp] theorem State.deliver_script (s : State) (o : List Byte) (n : Nat) :
    (s.deliver o n).script = s.script := rfl

@[simp] theorem State.deliver_cp (s : State) (o : List Byte) (n : Nat) :
    (s.deliver o n).cp = s.cp := rfl

@[simp] theorem State.deliver_rdata (s : State) (o : List Byte) (n : Nat) :
    (s.deliver o n).rdata = s.rdata := rfl

/-! ### A store to IB -/

@[simp] theorem State.writeIb_cfg (s : State) (k : Nat) (v : Byte) :
    (s.writeIb k v).cfg = s.cfg := rfl

@[simp] theorem State.writeIb_engine (s : State) (k : Nat) (v : Byte) :
    (s.writeIb k v).engine = s.engine := rfl

@[simp] theorem State.writeIb_doneFlag (s : State) (k : Nat) (v : Byte) :
    (s.writeIb k v).doneFlag = s.doneFlag := rfl

@[simp] theorem State.writeIb_errFlag (s : State) (k : Nat) (v : Byte) :
    (s.writeIb k v).errFlag = s.errFlag := rfl

@[simp] theorem State.writeIb_phase (s : State) (k : Nat) (v : Byte) :
    (s.writeIb k v).phase = s.phase := rfl

@[simp] theorem State.writeIb_herrFlag (s : State) (k : Nat) (v : Byte) :
    (s.writeIb k v).herrFlag = s.herrFlag := rfl

@[simp] theorem State.writeIb_errReg (s : State) (k : Nat) (v : Byte) :
    (s.writeIb k v).errReg = s.errReg := rfl

@[simp] theorem State.writeIb_errPos (s : State) (k : Nat) (v : Byte) :
    (s.writeIb k v).errPos = s.errPos := rfl

@[simp] theorem State.writeIb_inLen (s : State) (k : Nat) (v : Byte) :
    (s.writeIb k v).inLen = s.inLen := rfl

@[simp] theorem State.writeIb_inBits (s : State) (k : Nat) (v : Byte) :
    (s.writeIb k v).inBits = s.inBits := rfl

@[simp] theorem State.writeIb_outLen (s : State) (k : Nat) (v : Byte) :
    (s.writeIb k v).outLen = s.outLen := rfl

@[simp] theorem State.writeIb_outBits (s : State) (k : Nat) (v : Byte) :
    (s.writeIb k v).outBits = s.outBits := rfl

@[simp] theorem State.writeIb_nsym (s : State) (k : Nat) (v : Byte) :
    (s.writeIb k v).nsym = s.nsym := rfl

@[simp] theorem State.writeIb_root (s : State) (k : Nat) (v : Byte) :
    (s.writeIb k v).root = s.root := rfl

@[simp] theorem State.writeIb_ft (s : State) (k : Nat) (v : Byte) :
    (s.writeIb k v).ft = s.ft := rfl

@[simp] theorem State.writeIb_nm (s : State) (k : Nat) (v : Byte) :
    (s.writeIb k v).nm = s.nm := rfl

@[simp] theorem State.writeIb_pq (s : State) (k : Nat) (v : Byte) :
    (s.writeIb k v).pq = s.pq := rfl

@[simp] theorem State.writeIb_ct (s : State) (k : Nat) (v : Byte) :
    (s.writeIb k v).ct = s.ct := rfl

@[simp] theorem State.writeIb_ict (s : State) (k : Nat) (v : Byte) :
    (s.writeIb k v).ict = s.ict := rfl

@[simp] theorem State.writeIb_ib (s : State) (k : Nat) (v : Byte) :
    (s.writeIb k v).ib = Table.set s.ib k v := rfl

@[simp] theorem State.writeIb_ob (s : State) (k : Nat) (v : Byte) :
    (s.writeIb k v).ob = s.ob := rfl

@[simp] theorem State.writeIb_ibTag (s : State) (k : Nat) (v : Byte) :
    (s.writeIb k v).ibTag = s.ibTag := rfl

@[simp] theorem State.writeIb_obTag (s : State) (k : Nat) (v : Byte) :
    (s.writeIb k v).obTag = s.obTag := rfl

@[simp] theorem State.writeIb_pick (s : State) (k : Nat) (v : Byte) :
    (s.writeIb k v).pick = s.pick := rfl

@[simp] theorem State.writeIb_script (s : State) (k : Nat) (v : Byte) :
    (s.writeIb k v).script = s.script := rfl

@[simp] theorem State.writeIb_cp (s : State) (k : Nat) (v : Byte) :
    (s.writeIb k v).cp = s.cp := rfl

@[simp] theorem State.writeIb_rdata (s : State) (k : Nat) (v : Byte) :
    (s.writeIb k v).rdata = s.rdata := rfl

/-! ### Reset -/

@[simp] theorem State.resetBlock_cfg (s : State) :
    (s.resetBlock).cfg = s.cfg := rfl

@[simp] theorem State.resetBlock_engine (s : State) :
    (s.resetBlock).engine = State.reset.engine := rfl

@[simp] theorem State.resetBlock_doneFlag (s : State) :
    (s.resetBlock).doneFlag = State.reset.doneFlag := rfl

@[simp] theorem State.resetBlock_errFlag (s : State) :
    (s.resetBlock).errFlag = State.reset.errFlag := rfl

@[simp] theorem State.resetBlock_phase (s : State) :
    (s.resetBlock).phase = State.reset.phase := rfl

@[simp] theorem State.resetBlock_herrFlag (s : State) :
    (s.resetBlock).herrFlag = State.reset.herrFlag := rfl

@[simp] theorem State.resetBlock_errReg (s : State) :
    (s.resetBlock).errReg = State.reset.errReg := rfl

@[simp] theorem State.resetBlock_errPos (s : State) :
    (s.resetBlock).errPos = State.reset.errPos := rfl

@[simp] theorem State.resetBlock_inLen (s : State) :
    (s.resetBlock).inLen = State.reset.inLen := rfl

@[simp] theorem State.resetBlock_inBits (s : State) :
    (s.resetBlock).inBits = State.reset.inBits := rfl

@[simp] theorem State.resetBlock_outLen (s : State) :
    (s.resetBlock).outLen = State.reset.outLen := rfl

@[simp] theorem State.resetBlock_outBits (s : State) :
    (s.resetBlock).outBits = State.reset.outBits := rfl

@[simp] theorem State.resetBlock_nsym (s : State) :
    (s.resetBlock).nsym = State.reset.nsym := rfl

@[simp] theorem State.resetBlock_root (s : State) :
    (s.resetBlock).root = State.reset.root := rfl

@[simp] theorem State.resetBlock_ft (s : State) :
    (s.resetBlock).ft = State.reset.ft := rfl

@[simp] theorem State.resetBlock_nm (s : State) :
    (s.resetBlock).nm = State.reset.nm := rfl

@[simp] theorem State.resetBlock_pq (s : State) :
    (s.resetBlock).pq = State.reset.pq := rfl

@[simp] theorem State.resetBlock_ct (s : State) :
    (s.resetBlock).ct = State.reset.ct := rfl

@[simp] theorem State.resetBlock_ict (s : State) :
    (s.resetBlock).ict = State.reset.ict := rfl

@[simp] theorem State.resetBlock_ib (s : State) :
    (s.resetBlock).ib = State.reset.ib := rfl

@[simp] theorem State.resetBlock_ob (s : State) :
    (s.resetBlock).ob = State.reset.ob := rfl

@[simp] theorem State.resetBlock_ibTag (s : State) :
    (s.resetBlock).ibTag = s.ibTag + 1 := rfl

@[simp] theorem State.resetBlock_obTag (s : State) :
    (s.resetBlock).obTag = s.obTag + 1 := rfl

@[simp] theorem State.resetBlock_pick (s : State) :
    (s.resetBlock).pick = s.pick := rfl

@[simp] theorem State.resetBlock_script (s : State) :
    (s.resetBlock).script = s.script := rfl

@[simp] theorem State.resetBlock_cp (s : State) :
    (s.resetBlock).cp = s.cp := rfl

@[simp] theorem State.resetBlock_rdata (s : State) :
    (s.resetBlock).rdata = s.rdata := rfl

/-! ### The script moved on -/

@[simp] theorem State.advance_cfg (s : State) :
    (s.advance).cfg = s.cfg := rfl

@[simp] theorem State.advance_engine (s : State) :
    (s.advance).engine = s.engine := rfl

@[simp] theorem State.advance_doneFlag (s : State) :
    (s.advance).doneFlag = s.doneFlag := rfl

@[simp] theorem State.advance_errFlag (s : State) :
    (s.advance).errFlag = s.errFlag := rfl

@[simp] theorem State.advance_phase (s : State) :
    (s.advance).phase = s.phase := rfl

@[simp] theorem State.advance_herrFlag (s : State) :
    (s.advance).herrFlag = s.herrFlag := rfl

@[simp] theorem State.advance_errReg (s : State) :
    (s.advance).errReg = s.errReg := rfl

@[simp] theorem State.advance_errPos (s : State) :
    (s.advance).errPos = s.errPos := rfl

@[simp] theorem State.advance_inLen (s : State) :
    (s.advance).inLen = s.inLen := rfl

@[simp] theorem State.advance_inBits (s : State) :
    (s.advance).inBits = s.inBits := rfl

@[simp] theorem State.advance_outLen (s : State) :
    (s.advance).outLen = s.outLen := rfl

@[simp] theorem State.advance_outBits (s : State) :
    (s.advance).outBits = s.outBits := rfl

@[simp] theorem State.advance_nsym (s : State) :
    (s.advance).nsym = s.nsym := rfl

@[simp] theorem State.advance_root (s : State) :
    (s.advance).root = s.root := rfl

@[simp] theorem State.advance_ft (s : State) :
    (s.advance).ft = s.ft := rfl

@[simp] theorem State.advance_nm (s : State) :
    (s.advance).nm = s.nm := rfl

@[simp] theorem State.advance_pq (s : State) :
    (s.advance).pq = s.pq := rfl

@[simp] theorem State.advance_ct (s : State) :
    (s.advance).ct = s.ct := rfl

@[simp] theorem State.advance_ict (s : State) :
    (s.advance).ict = s.ict := rfl

@[simp] theorem State.advance_ib (s : State) :
    (s.advance).ib = s.ib := rfl

@[simp] theorem State.advance_ob (s : State) :
    (s.advance).ob = s.ob := rfl

@[simp] theorem State.advance_ibTag (s : State) :
    (s.advance).ibTag = s.ibTag := rfl

@[simp] theorem State.advance_obTag (s : State) :
    (s.advance).obTag = s.obTag := rfl

@[simp] theorem State.advance_pick (s : State) :
    (s.advance).pick = s.pick := rfl

@[simp] theorem State.advance_script (s : State) :
    (s.advance).script = s.script.tail := rfl

@[simp] theorem State.advance_cp (s : State) :
    (s.advance).cp = s.cp + 1 := rfl

@[simp] theorem State.advance_rdata (s : State) :
    (s.advance).rdata = s.rdata := rfl

/-! ### A command word placed -/

@[simp] theorem State.placeWord_cfg (s : State) (w : Word) :
    (s.placeWord w).cfg = s.cfg := rfl

@[simp] theorem State.placeWord_engine (s : State) (w : Word) :
    (s.placeWord w).engine = none := rfl

@[simp] theorem State.placeWord_doneFlag (s : State) (w : Word) :
    (s.placeWord w).doneFlag = s.doneFlag := rfl

@[simp] theorem State.placeWord_errFlag (s : State) (w : Word) :
    (s.placeWord w).errFlag = s.errFlag := rfl

@[simp] theorem State.placeWord_phase (s : State) (w : Word) :
    (s.placeWord w).phase = s.phase := rfl

@[simp] theorem State.placeWord_herrFlag (s : State) (w : Word) :
    (s.placeWord w).herrFlag = s.herrFlag := rfl

@[simp] theorem State.placeWord_errReg (s : State) (w : Word) :
    (s.placeWord w).errReg = s.errReg := rfl

@[simp] theorem State.placeWord_errPos (s : State) (w : Word) :
    (s.placeWord w).errPos = s.errPos := rfl

@[simp] theorem State.placeWord_inLen (s : State) (w : Word) :
    (s.placeWord w).inLen = s.inLen := rfl

@[simp] theorem State.placeWord_inBits (s : State) (w : Word) :
    (s.placeWord w).inBits = s.inBits := rfl

@[simp] theorem State.placeWord_outLen (s : State) (w : Word) :
    (s.placeWord w).outLen = s.outLen := rfl

@[simp] theorem State.placeWord_outBits (s : State) (w : Word) :
    (s.placeWord w).outBits = s.outBits := rfl

@[simp] theorem State.placeWord_nsym (s : State) (w : Word) :
    (s.placeWord w).nsym = s.nsym := rfl

@[simp] theorem State.placeWord_root (s : State) (w : Word) :
    (s.placeWord w).root = s.root := rfl

@[simp] theorem State.placeWord_ft (s : State) (w : Word) :
    (s.placeWord w).ft = s.ft := rfl

@[simp] theorem State.placeWord_nm (s : State) (w : Word) :
    (s.placeWord w).nm = s.nm := rfl

@[simp] theorem State.placeWord_pq (s : State) (w : Word) :
    (s.placeWord w).pq = s.pq := rfl

@[simp] theorem State.placeWord_ct (s : State) (w : Word) :
    (s.placeWord w).ct = s.ct := rfl

@[simp] theorem State.placeWord_ict (s : State) (w : Word) :
    (s.placeWord w).ict = s.ict := rfl

@[simp] theorem State.placeWord_ib (s : State) (w : Word) :
    (s.placeWord w).ib = s.ib := rfl

@[simp] theorem State.placeWord_ob (s : State) (w : Word) :
    (s.placeWord w).ob = s.ob := rfl

@[simp] theorem State.placeWord_ibTag (s : State) (w : Word) :
    (s.placeWord w).ibTag = s.ibTag := rfl

@[simp] theorem State.placeWord_obTag (s : State) (w : Word) :
    (s.placeWord w).obTag = s.obTag := rfl

@[simp] theorem State.placeWord_pick (s : State) (w : Word) :
    (s.placeWord w).pick = s.pick := rfl

@[simp] theorem State.placeWord_script (s : State) (w : Word) :
    (s.placeWord w).script = .cmd w :: s.script := rfl

@[simp] theorem State.placeWord_cp (s : State) (w : Word) :
    (s.placeWord w).cp = s.cp := rfl

@[simp] theorem State.placeWord_rdata (s : State) (w : Word) :
    (s.placeWord w).rdata = s.rdata := rfl

end Sys2Proof.Machine
end

