-- ==== Sys2Proof/Laws/Tables.lean ====
section
/-! SUPPORT. What the table operations do: read after write, canonical form, and that a canonical table is known by its
reads. -/

namespace Sys2Proof.Machine

variable {α : Type}

@[simp] theorem Table.get?_nil (k : Nat) : Table.get? ([] : Table α) k = none := rfl

@[simp] theorem Table.get?_cons (j : Nat) (a : α) (t : Table α) (k : Nat) :
    Table.get? ((j, a) :: t) k = if j = k then some a else Table.get? t k := rfl

/-- Read after write: the entry written, and every other entry as before. -/
theorem Table.get?_set (t : Table α) (k : Nat) (a : α) (j : Nat) :
    Table.get? (Table.set t k a) j = if j = k then some a else Table.get? t j := by
  induction t with
  | nil => simp only [Table.set, Table.get?_cons, Table.get?_nil, eq_comm]
  | cons c r ih =>
    obtain ⟨i, b⟩ := c
    simp only [Table.set]
    split
    · simp only [Table.get?_cons, ih]
      split_ifs <;> first | rfl | omega
    · split
      · simp only [Table.get?_cons]
        split_ifs <;> first | rfl | omega
      · simp only [Table.get?_cons]
        split_ifs <;> first | rfl | omega

@[simp] theorem Table.get?_set_same (t : Table α) (k : Nat) (a : α) :
    Table.get? (Table.set t k a) k = some a := by
  simp [Table.get?_set]

theorem Table.get?_set_ne (t : Table α) {k j : Nat} (a : α) (h : j ≠ k) :
    Table.get? (Table.set t k a) j = Table.get? t j := by
  simp [Table.get?_set, h]

/-- Read after removal: the entry removed is absent, and every other entry as before. -/
theorem Table.get?_erase (t : Table α) (k j : Nat) :
    Table.get? (Table.erase t k) j = if j = k then none else Table.get? t j := by
  induction t with
  | nil => simp [Table.erase]
  | cons c r ih =>
    obtain ⟨i, b⟩ := c
    simp only [Table.erase] at ih
    by_cases h : i = k
    · subst h
      simp only [Table.erase, List.filter_cons, bne_self_eq_false, Bool.false_eq_true, if_false, ih,
        Table.get?_cons]
      split_ifs <;> first | rfl | omega
    · have h' : (i != k) = true := by simpa using h
      simp only [Table.erase, List.filter_cons, h', if_true, Table.get?_cons, ih]
      split_ifs <;> first | rfl | omega

theorem Table.mem_set {t : Table α} {k : Nat} {a : α} {c : Nat × α} (h : c ∈ Table.set t k a) :
    c = (k, a) ∨ c ∈ t := by
  induction t with
  | nil => simpa [Table.set] using h
  | cons d r ih =>
    obtain ⟨i, b⟩ := d
    simp only [Table.set] at h
    split at h
    · rcases List.mem_cons.1 h with h | h
      · exact .inr (by simp [h])
      · exact (ih h).imp_right (List.mem_cons_of_mem _)
    · split at h
      · exact (List.mem_cons.1 h).imp_right (List.mem_cons_of_mem _)
      · exact List.mem_cons.1 h

theorem Table.nil_wf (n : Nat) : Table.wf n ([] : Table α) := by simp [Table.wf]

/-- A write keeps the canonical form. -/
theorem Table.set_wf {n : Nat} {t : Table α} (h : Table.wf n t) {k : Nat} (hk : k < n) (a : α) :
    Table.wf n (Table.set t k a) := by
  obtain ⟨hp, hb⟩ := h
  refine ⟨?_, fun c hc => (Table.mem_set hc).elim (fun e => by simpa [e] using hk) (hb c)⟩
  clear hb hk
  induction t with
  | nil => simp [Table.set]
  | cons d r ih =>
    obtain ⟨i, b⟩ := d
    obtain ⟨hd, hr⟩ := List.pairwise_cons.1 hp
    simp only [Table.set]
    split
    · rename_i hlt
      refine List.pairwise_cons.2 ⟨fun c hc => ?_, ih hr⟩
      rcases Table.mem_set hc with e | hc
      · simpa [e] using hlt
      · exact hd c hc
    · split
      · rename_i hik
        subst hik
        exact List.pairwise_cons.2 ⟨hd, hr⟩
      · refine List.pairwise_cons.2 ⟨fun c hc => ?_, hp⟩
        rcases List.mem_cons.1 hc with e | hc
        · subst e; simp; omega
        · have := hd c hc; simp at this ⊢; omega

/-- A removal keeps the canonical form. -/
theorem Table.erase_wf {n : Nat} {t : Table α} (h : Table.wf n t) (k : Nat) : Table.wf n (Table.erase t k) :=
  ⟨h.1.filter _, fun c hc => h.2 c (List.mem_of_mem_filter hc)⟩

/-- In a canonical table an entry is listed exactly when it is read. -/
theorem Table.get?_eq_some {n : Nat} {t : Table α} (h : Table.wf n t) (k : Nat) (a : α) :
    Table.get? t k = some a ↔ (k, a) ∈ t := by
  obtain ⟨hp, -⟩ := h
  induction t with
  | nil => simp
  | cons d r ih =>
    obtain ⟨i, b⟩ := d
    obtain ⟨hd, hr⟩ := List.pairwise_cons.1 hp
    simp only [Table.get?_cons, List.mem_cons, Prod.mk.injEq]
    split
    · rename_i hik
      subst hik
      refine ⟨fun e => .inl ⟨rfl, (Option.some.inj e).symm⟩, fun e => e.elim (fun e => by rw [e.2]) fun hm => ?_⟩
      exact absurd (hd _ hm) (by simp)
    · rename_i hik
      rw [ih hr]
      exact ⟨.inr, fun e => e.elim (fun e => absurd e.1.symm hik) id⟩

/-- An entry at or above the bound is absent. -/
theorem Table.get?_ge {n : Nat} {t : Table α} (h : Table.wf n t) {k : Nat} (hk : n ≤ k) : Table.get? t k = none := by
  cases e : Table.get? t k with
  | none => rfl
  | some a => exact absurd (h.2 _ ((Table.get?_eq_some h k a).1 e)) (by simp; omega)

/-- Canonical tables with the same reads are equal data. -/
theorem Table.ext {n : Nat} {t u : Table α} (ht : Table.wf n t) (hu : Table.wf n u)
    (h : ∀ k, Table.get? t k = Table.get? u k) : t = u := by
  refine List.Perm.eq_of_pairwise (le := fun a b => a.1 < b.1) ?_ ht.1 hu.1 ?_
  · intro a b _ _ hab hba; exact absurd hab (by omega)
  · have nd : ∀ {v : Table α}, List.Pairwise (fun a b => a.1 < b.1) v → v.Nodup := fun hv =>
      hv.imp fun {a b} hab e => by subst e; omega
    refine (List.perm_ext_iff_of_nodup (nd ht.1) (nd hu.1)).2 fun ⟨k, a⟩ => ?_
    rw [← Table.get?_eq_some ht, ← Table.get?_eq_some hu, h]

/-! ### IB -/

/-- The memory after reset has its canonical form. -/
theorem reset_memory_wf : Memory.wf State.reset.cfg.ibCap State.reset.ib := by decide

/-- A host store to an entry of IB keeps the canonical form of the memory. -/
theorem State.writeIb_wf {s : State} (h : Memory.wf s.cfg.ibCap s.ib) {k : Nat} (hk : k < s.cfg.ibCap) (v : Byte) :
    Memory.wf (s.writeIb k v).cfg.ibCap (s.writeIb k v).ib := Table.set_wf h hk v

/-- A reset leaves the memory in its canonical form. -/
theorem State.resetBlock_memory_wf (s : State) : Memory.wf s.resetBlock.cfg.ibCap s.resetBlock.ib := Table.nil_wf _

/-- Read of IB after a store. -/
theorem State.ibByte_writeIb (s : State) (k : Nat) (v : Byte) (j : Nat) :
    (s.writeIb k v).ibByte j = if j = k then v else s.ibByte j := by
  simp only [State.ibByte, State.writeIb_ib, State.writeIb_ibTag, Table.get?_set]
  split <;> rfl

end Sys2Proof.Machine
end

