-- ==== Sys2Proof/Laws/Commands.lean ====
section
/-! SUPPORT. What an accepted command can do, said once: the frame `command`, the inversion of `exec`, and for each
body the one form its completion has. -/

namespace Sys2Proof.Machine

/-- The body of each command. -/
def bodyOf : Instr → State → Result
  | .clr => clrBody
  | .buildt => buildtBody
  | .derive => deriveBody
  | .construct => constructBody
  | .enc => encBody
  | .encs => encsBody
  | .dec => decBody
  | .decs => decsBody

theorem exec_eq_command (i : Instr) (s : State) : exec i s = command i (bodyOf i) s := by cases i <;> rfl

/-! ### Ends of a command in the words of the statements -/

theorem faultEntry_codec (s : State) (w : Word) (f : CmdFault) (pos : Word) :
    (s.accept w).faultEntry true f pos = s.afterCodecFault f.errWord pos := rfl

theorem faultEntry_plain (s : State) (w : Word) (f : CmdFault) (pos : Word) :
    (s.accept w).faultEntry false f pos = s.afterFault f.errWord pos := rfl

theorem deliver_eq_withOutput (s : State) (out : List Byte) (bits : Nat) :
    s.deliver out bits = s.withOutput out out.length bits := rfl

theorem complete_withOutput (s : State) (w : Word) (out : List Byte) (len bits : Nat) :
    ((s.accept w).withOutput out len bits).complete = (s.withOutput out len bits).afterSuccess := rfl

/-- A fault code is never 0 (60 R120). -/
theorem CmdFault.code_ne_zero (f : CmdFault) : f.code ≠ 0 := by cases f <;> decide

theorem CmdFault.errWord_code (f : CmdFault) : f.errWord.extractLsb' 0 8 = f.code := by cases f <;> decide

theorem CmdFault.errWord_high (f : CmdFault) : f.errWord.extractLsb' 16 16 = 0 := by cases f <;> decide

/-! ### The frame -/

theorem command_illegal {i : Instr} {body : State → Result} {s : State} {f : CmdFault} {pos : Word}
    (h : phaseFault i s.phase = some (f, pos)) :
    command i body s = .next ((s.accept (encode i)).faultEntry (Instr.isCodec i) f pos) := by
  simp only [command, State.accept_phase, h, finish]

theorem command_legal {i : Instr} {body : State → Result} {s : State} (h : phaseFault i s.phase = none) :
    command i body s = finish i (s.accept (encode i)) (body (s.accept (encode i))) := by
  simp only [command, State.accept_phase, h]

/-- Everything a command with a next state can have done. -/
theorem command_next {i : Instr} {body : State → Result} {s t : State} (h : command i body s = .next t) :
    (∃ u, phaseFault i s.phase = none ∧ body (s.accept (encode i)) = .done u ∧ t = u.complete) ∨
    (∃ f pos, (phaseFault i s.phase = some (f, pos) ∨
        (phaseFault i s.phase = none ∧ body (s.accept (encode i)) = .raise f pos)) ∧
      t = (s.accept (encode i)).faultEntry (Instr.isCodec i) f pos) := by
  cases hp : phaseFault i s.phase with
  | some fp =>
    obtain ⟨f, pos⟩ := fp
    rw [command_illegal hp] at h
    exact .inr ⟨f, pos, .inl rfl, (Host.Outcome.next.inj h).symm⟩
  | none =>
    rw [command_legal hp] at h
    cases hb : body (s.accept (encode i)) with
    | done u =>
      rw [hb] at h
      exact .inl ⟨u, rfl, rfl, (Host.Outcome.next.inj h).symm⟩
    | raise f pos =>
      rw [hb] at h
      exact .inr ⟨f, pos, .inr ⟨rfl, rfl⟩, (Host.Outcome.next.inj h).symm⟩
    | refuse r => rw [hb] at h; simp [finish] at h

theorem exec_next {i : Instr} {s t : State} (h : exec i s = .next t) :
    (∃ u, phaseFault i s.phase = none ∧ bodyOf i (s.accept (encode i)) = .done u ∧ t = u.complete) ∨
    (∃ f pos, (phaseFault i s.phase = some (f, pos) ∨
        (phaseFault i s.phase = none ∧ bodyOf i (s.accept (encode i)) = .raise f pos)) ∧
      t = (s.accept (encode i)).faultEntry (Instr.isCodec i) f pos) :=
  command_next (exec_eq_command i s ▸ h)

theorem exec_done {i : Instr} {s u : State} (hp : phaseFault i s.phase = none)
    (h : bodyOf i (s.accept (encode i)) = .done u) : exec i s = .next u.complete := by
  rw [exec_eq_command, command_legal hp, h, finish]

theorem exec_raise {i : Instr} {s : State} {f : CmdFault} {pos : Word} (hp : phaseFault i s.phase = none)
    (h : bodyOf i (s.accept (encode i)) = .raise f pos) :
    exec i s = .next ((s.accept (encode i)).faultEntry (Instr.isCodec i) f pos) := by
  rw [exec_eq_command, command_legal hp, h, finish]

theorem exec_illegal {i : Instr} {s : State} {f : CmdFault} {pos : Word} (hp : phaseFault i s.phase = some (f, pos)) :
    exec i s = .next ((s.accept (encode i)).faultEntry (Instr.isCodec i) f pos) := by
  rw [exec_eq_command, command_illegal hp]

/-- The phase table names two faults only (40 R71). -/
theorem phaseFault_cases {i : Instr} {p : Phase} {f : CmdFault} {pos : Word} (h : phaseFault i p = some (f, pos)) :
    (f = .wrongPhase ∧ pos = encode i) ∨ (f = .malformedRoot ∧ pos = 0 ∧ i = .derive ∧ p = .empty) := by
  cases i <;> cases p <;> simp_all [phaseFault]

/-! ### Completions of the bodies -/

theorem buildtBody_done {s u : State} (h : buildtBody s = .done u) :
    tableFault s.ft = none ∧
      u = { s with
        nm := (builtForest s.ft).nm, pq := (builtForest s.ft).pq, root := (builtForest s.ft).pq.headD 0,
        nsym := BitVec.ofNat 9 s.ft.length, phase := .tree } := by
  unfold buildtBody at h
  split at h
  · cases h
  · rename_i hf
    exact ⟨hf, (Result.done.inj h).symm⟩

theorem buildtBody_of_legal {s : State} (h : tableFault s.ft = none) :
    buildtBody s = .done { s with
        nm := (builtForest s.ft).nm, pq := (builtForest s.ft).pq, root := (builtForest s.ft).pq.headD 0,
        nsym := BitVec.ofNat 9 s.ft.length, phase := .tree } := by
  unfold buildtBody; rw [h]

theorem buildtBody_of_fault {s : State} {f : CmdFault} {pos : Word} (h : tableFault s.ft = some (f, pos)) :
    buildtBody s = .raise f pos := by
  unfold buildtBody; rw [h]

theorem deriveBody_done {s u : State} (h : deriveBody s = .done u) :
    ∃ es, visit s.nm s.nm.length s.root [] = some es ∧
      u = { s with ct := tableOf es, ict := es, phase := .ready } := by
  unfold deriveBody at h
  split at h
  · cases h
  · rename_i es he
    exact ⟨es, he, (Result.done.inj h).symm⟩

theorem deriveBody_ne_raise (s : State) (f : CmdFault) (pos : Word) : deriveBody s ≠ .raise f pos := by
  unfold deriveBody; split <;> simp

theorem deriveBody_of_visit {s : State} {es : List IctEntry} (h : visit s.nm s.nm.length s.root [] = some es) :
    deriveBody s = .done { s with ct := tableOf es, ict := es, phase := .ready } := by
  unfold deriveBody; rw [h]

theorem constructBody_done {s u : State} (h : constructBody s = .done u) :
    ∃ v, buildtBody s = .done v ∧ deriveBody v = .done u := by
  unfold constructBody at h
  split at h
  · rename_i v hv; exact ⟨v, hv, h⟩
  · cases h
  · cases h

theorem constructBody_raise {s : State} {f : CmdFault} {pos : Word} (h : constructBody s = .raise f pos) :
    buildtBody s = .raise f pos := by
  unfold constructBody at h
  split at h
  · exact absurd h (deriveBody_ne_raise _ _ _)
  · rename_i hb; rw [hb]; exact h
  · cases h

theorem encodeWith_done {need : BitString → Nat} {out : BitString → List Byte} {s u : State}
    (h : encodeWith need out s = .done u) :
    s.inLen.toNat ≤ s.cfg.ibCap ∧ firstUnknown s.ct s.input = none ∧
      need (encodeSymbols s.ct s.input) ≤ s.cfg.obCap ∧
      u = s.deliver (out (encodeSymbols s.ct s.input)) (encodeSymbols s.ct s.input).length := by
  unfold encodeWith at h
  split at h
  · cases h
  · rename_i h1
    split at h
    · cases h
    · rename_i h2
      dsimp only at h
      split at h
      · cases h
      · rename_i h3
        exact ⟨by omega, h2, by omega, (Result.done.inj h).symm⟩

theorem encodeWith_of_good {need : BitString → Nat} {out : BitString → List Byte} {s : State}
    (h1 : s.inLen.toNat ≤ s.cfg.ibCap) (h2 : firstUnknown s.ct s.input = none)
    (h3 : need (encodeSymbols s.ct s.input) ≤ s.cfg.obCap) :
    encodeWith need out s =
      .done (s.deliver (out (encodeSymbols s.ct s.input)) (encodeSymbols s.ct s.input).length) := by
  unfold encodeWith
  rw [if_neg (by omega), h2]
  exact if_neg (by omega)

theorem decodeBits_done {b : BitString} {s u : State} (h : decodeBits b s = .done u) :
    ∃ out, matchBits s.ict b = .ok out ∧ out.length ≤ s.cfg.obCap ∧ u = s.deliver out 0 := by
  unfold decodeBits at h
  split at h
  · cases h
  · rename_i out ho
    split at h
    · cases h
    · rename_i hc
      exact ⟨out, ho, by omega, (Result.done.inj h).symm⟩

theorem decodeBits_of_match {b : BitString} {s : State} {out : List Symbol} (h : matchBits s.ict b = .ok out)
    (hc : out.length ≤ s.cfg.obCap) : decodeBits b s = .done (s.deliver out 0) := by
  unfold decodeBits; rw [h]; exact if_neg (by omega)

theorem decBody_done {s u : State} (h : decBody s = .done u) :
    s.inLen.toNat ≤ s.cfg.ibCap ∧ s.inBits.toNat ≤ 8 * s.inLen.toNat ∧ decodeBits s.payloadBits s = .done u := by
  unfold decBody at h
  split at h
  · cases h
  · split at h
    · cases h
    · exact ⟨by omega, by omega, h⟩

theorem decBody_of_good {s : State} (h1 : s.inLen.toNat ≤ s.cfg.ibCap) (h2 : s.inBits.toNat ≤ 8 * s.inLen.toNat) :
    decBody s = decodeBits s.payloadBits s := by
  unfold decBody; rw [if_neg (by omega), if_neg (by omega)]

theorem decsBody_done {s u : State} (h : decsBody s = .done u) :
    s.inLen.toNat ≤ s.cfg.ibCap ∧ s.input.findIdx? (fun c => !isBitChar c) = none ∧
      decodeBits (s.input.map charBit) s = .done u := by
  unfold decsBody at h
  split at h
  · cases h
  · split at h
    · cases h
    · rename_i hf; exact ⟨by omega, hf, h⟩

theorem decsBody_of_good {s : State} (h1 : s.inLen.toNat ≤ s.cfg.ibCap)
    (h2 : s.input.findIdx? (fun c => !isBitChar c) = none) :
    decsBody s = decodeBits (s.input.map charBit) s := by
  unfold decsBody; rw [if_neg (by omega), h2]

/-! ### Faults of the bodies -/

theorem buildtBody_raise {s : State} {f : CmdFault} {pos : Word} (h : buildtBody s = .raise f pos) :
    tableFault s.ft = some (f, pos) := by
  unfold buildtBody at h
  split at h
  · rename_i g q hf; cases h; exact hf
  · cases h

theorem encodeWith_raise {need : BitString → Nat} {out : BitString → List Byte} {s : State} {f : CmdFault} {pos : Word}
    (h : encodeWith need out s = .raise f pos) :
    (s.cfg.ibCap < s.inLen.toNat ∧ f = .inputOverflow ∧ pos = s.inLen) ∨
    (s.inLen.toNat ≤ s.cfg.ibCap ∧ ∃ i, firstUnknown s.ct s.input = some i ∧ f = .unknownSymbol ∧
      pos = BitVec.ofNat 32 i) ∨
    (s.inLen.toNat ≤ s.cfg.ibCap ∧ firstUnknown s.ct s.input = none ∧
      s.cfg.obCap < need (encodeSymbols s.ct s.input) ∧ f = .outputOverflow ∧
      pos = BitVec.ofNat 32 (need (encodeSymbols s.ct s.input))) := by
  unfold encodeWith at h
  split at h
  · rename_i h1; cases h; exact .inl ⟨h1, rfl, rfl⟩
  · rename_i h1
    split at h
    · rename_i i hi; cases h; exact .inr (.inl ⟨by omega, i, hi, rfl, rfl⟩)
    · rename_i h2
      dsimp only at h
      split at h
      · rename_i h3; cases h; exact .inr (.inr ⟨by omega, h2, h3, rfl, rfl⟩)
      · cases h

theorem decodeBits_raise {b : BitString} {s : State} {f : CmdFault} {pos : Word} (h : decodeBits b s = .raise f pos) :
    (∃ p, matchBits s.ict b = .error p ∧ f = .midcode ∧ pos = BitVec.ofNat 32 p) ∨
    (∃ out, matchBits s.ict b = .ok out ∧ s.cfg.obCap < out.length ∧ f = .outputOverflow ∧
      pos = BitVec.ofNat 32 out.length) := by
  unfold decodeBits at h
  split at h
  · rename_i p hp; cases h; exact .inl ⟨p, hp, rfl, rfl⟩
  · rename_i out ho
    split at h
    · rename_i hc; cases h; exact .inr ⟨out, ho, hc, rfl, rfl⟩
    · cases h

theorem decodeBits_of_error {b : BitString} {s : State} {p : Nat} (h : matchBits s.ict b = .error p) :
    decodeBits b s = .raise .midcode (BitVec.ofNat 32 p) := by
  unfold decodeBits; rw [h]

theorem decodeBits_of_overflow {b : BitString} {s : State} {out : List Symbol} (h : matchBits s.ict b = .ok out)
    (hc : s.cfg.obCap < out.length) : decodeBits b s = .raise .outputOverflow (BitVec.ofNat 32 out.length) := by
  unfold decodeBits; rw [h]; exact if_pos hc

theorem decBody_raise {s : State} {f : CmdFault} {pos : Word} (h : decBody s = .raise f pos) :
    (s.cfg.ibCap < s.inLen.toNat ∧ f = .inputOverflow ∧ pos = s.inLen) ∨
    (s.inLen.toNat ≤ s.cfg.ibCap ∧ 8 * s.inLen.toNat < s.inBits.toNat ∧ f = .short ∧
      pos = BitVec.ofNat 32 (8 * s.inLen.toNat)) ∨
    (s.inLen.toNat ≤ s.cfg.ibCap ∧ s.inBits.toNat ≤ 8 * s.inLen.toNat ∧
      decodeBits s.payloadBits s = .raise f pos) := by
  unfold decBody at h
  split at h
  · rename_i h1; cases h; exact .inl ⟨h1, rfl, rfl⟩
  · split at h
    · rename_i h1 h2; cases h; exact .inr (.inl ⟨by omega, h2, rfl, rfl⟩)
    · exact .inr (.inr ⟨by omega, by omega, h⟩)

theorem decBody_of_short {s : State} (h1 : s.inLen.toNat ≤ s.cfg.ibCap) (h2 : 8 * s.inLen.toNat < s.inBits.toNat) :
    decBody s = .raise .short (BitVec.ofNat 32 (8 * s.inLen.toNat)) := by
  unfold decBody; rw [if_neg (by omega), if_pos h2]

theorem decBody_of_overflow {s : State} (h : s.cfg.ibCap < s.inLen.toNat) :
    decBody s = .raise .inputOverflow s.inLen := if_pos h

theorem decsBody_raise {s : State} {f : CmdFault} {pos : Word} (h : decsBody s = .raise f pos) :
    (s.cfg.ibCap < s.inLen.toNat ∧ f = .inputOverflow ∧ pos = s.inLen) ∨
    (s.inLen.toNat ≤ s.cfg.ibCap ∧ ∃ q, s.input.findIdx? (fun c => !isBitChar c) = some q ∧ f = .badchar ∧
      pos = BitVec.ofNat 32 q) ∨
    (s.inLen.toNat ≤ s.cfg.ibCap ∧ s.input.findIdx? (fun c => !isBitChar c) = none ∧
      decodeBits (s.input.map charBit) s = .raise f pos) := by
  unfold decsBody at h
  split at h
  · rename_i h1; cases h; exact .inl ⟨h1, rfl, rfl⟩
  · split at h
    · rename_i q hq; cases h; exact .inr (.inl ⟨by omega, q, hq, rfl, rfl⟩)
    · rename_i hn; exact .inr (.inr ⟨by omega, hn, h⟩)

theorem decsBody_of_badchar {s : State} {q : Nat} (h1 : s.inLen.toNat ≤ s.cfg.ibCap)
    (h2 : s.input.findIdx? (fun c => !isBitChar c) = some q) :
    decsBody s = .raise .badchar (BitVec.ofNat 32 q) := by
  unfold decsBody; rw [if_neg (by omega), h2]

theorem decsBody_of_overflow {s : State} (h : s.cfg.ibCap < s.inLen.toNat) :
    decsBody s = .raise .inputOverflow s.inLen := if_pos h

/-- A codec command that completes delivers a result and changes nothing else. -/
theorem codecBody_done {i : Instr} (hi : Instr.isCodec i = true) {s u : State} (h : bodyOf i s = .done u) :
    ∃ out bits, u = s.deliver out bits ∧ out.length ≤ s.cfg.obCap := by
  cases i with
  | clr => cases hi
  | buildt => cases hi
  | derive => cases hi
  | construct => cases hi
  | enc =>
    change encBody s = _ at h
    unfold encBody at h
    obtain ⟨-, -, h3, h4⟩ := encodeWith_done h
    exact ⟨_, _, h4, by simpa [packBits] using h3⟩
  | encs =>
    obtain ⟨-, -, h3, h4⟩ := encodeWith_done h
    exact ⟨_, _, h4, by simpa using h3⟩
  | dec =>
    obtain ⟨-, -, h3⟩ := decBody_done h
    obtain ⟨out, -, h5, h6⟩ := decodeBits_done h3
    exact ⟨out, 0, h6, h5⟩
  | decs =>
    obtain ⟨-, -, h3⟩ := decsBody_done h
    obtain ⟨out, -, h5, h6⟩ := decodeBits_done h3
    exact ⟨out, 0, h6, h5⟩

/-- What no completing body changes. -/
theorem bodyOf_done_frame {i : Instr} {s u : State} (h : bodyOf i s = .done u) :
    u.cfg = s.cfg ∧ u.doneFlag = s.doneFlag ∧ u.errFlag = s.errFlag ∧ u.herrFlag = s.herrFlag ∧
      u.inLen = s.inLen ∧ u.inBits = s.inBits ∧ u.ib = s.ib ∧ u.ibTag = s.ibTag ∧ u.pick = s.pick ∧
      u.script = s.script ∧ u.cp = s.cp ∧ u.rdata = s.rdata ∧ (i ≠ .clr → u.ft = s.ft) := by
  cases i with
  | clr => cases h; simp
  | buildt => obtain ⟨-, rfl⟩ := buildtBody_done h; simp
  | derive => obtain ⟨es, -, rfl⟩ := deriveBody_done h; simp
  | construct =>
    obtain ⟨v, hv, hu⟩ := constructBody_done h
    obtain ⟨-, rfl⟩ := buildtBody_done hv
    obtain ⟨es, -, rfl⟩ := deriveBody_done hu
    simp
  | enc => obtain ⟨o, b, rfl, -⟩ := codecBody_done rfl h; simp
  | encs => obtain ⟨o, b, rfl, -⟩ := codecBody_done rfl h; simp
  | dec => obtain ⟨o, b, rfl, -⟩ := codecBody_done rfl h; simp
  | decs => obtain ⟨o, b, rfl, -⟩ := codecBody_done rfl h; simp

/-- The one way a body is refused: DERIVE or CONSTRUCT on a node store that is no tree (93 U13). -/
theorem bodyOf_refuse {i : Instr} {s : State} {r : Refusal} (h : bodyOf i s = .refuse r) :
    r = .malformedTree ∧
      ((i = .derive ∧ visit s.nm s.nm.length s.root [] = none) ∨
       (i = .construct ∧ tableFault s.ft = none ∧
          visit (builtForest s.ft).nm (builtForest s.ft).nm.length ((builtForest s.ft).pq.headD 0) [] = none)) := by
  have hd : ∀ v : State, deriveBody v = .refuse r → r = .malformedTree ∧ visit v.nm v.nm.length v.root [] = none := by
    intro v hv
    unfold deriveBody at hv
    split at hv
    · rename_i hn; exact ⟨(Result.refuse.inj hv).symm, hn⟩
    · cases hv
  have hb : ∀ b : BitString, decodeBits b s ≠ .refuse r := by
    intro b hb
    unfold decodeBits at hb
    split at hb
    · cases hb
    · split at hb <;> cases hb
  have he : ∀ n o, encodeWith n o s ≠ .refuse r := by
    intro n o he
    unfold encodeWith at he
    split at he
    · cases he
    · split at he
      · cases he
      · dsimp only at he
        split at he <;> cases he
  cases i with
  | clr => cases h
  | buildt =>
    change buildtBody s = _ at h
    unfold buildtBody at h
    split at h <;> cases h
  | derive => exact (hd s h).imp_right fun hn => .inl ⟨rfl, hn⟩
  | construct =>
    change constructBody s = _ at h
    unfold constructBody at h
    split at h
    · rename_i v hv
      obtain ⟨hf, rfl⟩ := buildtBody_done hv
      exact (hd _ h).imp_right fun hn => .inr ⟨rfl, hf, hn⟩
    · cases h
    · rename_i q hq
      unfold buildtBody at hq
      split at hq <;> cases hq
  | enc => exact absurd h (he (fun b => ceilDiv b.length 8) packBits)
  | encs => exact absurd h (he _ _)
  | dec =>
    change decBody s = _ at h
    unfold decBody at h
    split at h
    · cases h
    · split at h
      · cases h
      · exact absurd h (hb _)
  | decs =>
    change decsBody s = _ at h
    unfold decsBody at h
    split at h
    · cases h
    · split at h
      · cases h
      · exact absurd h (hb _)

end Sys2Proof.Machine
end

