-- ==== Sys2Proof/Laws/CodeTable.lean ====
section
/-! SUPPORT. The walk of the tree (42 R90 to R93): where it succeeds, what it meets, and the tables it fills. -/

namespace Sys2Proof.Machine

/-! ### Node stores -/

/-- Every entry of a node store is sound: children below their parent, frequencies exact. -/
abbrev NodesOk (nm : List Node) : Prop := ∀ j n, nm[j]? = some n → nodeOk nm j n = true

theorem nodesOk_iff_zipIdx (nm : List Node) : (∀ p ∈ nm.zipIdx, nodeOk nm p.2 p.1 = true) ↔ NodesOk nm := by
  constructor
  · intro h j n hn
    exact h (n, j) (List.mem_zipIdx_iff_getElem?.2 hn)
  · rintro h ⟨n, j⟩ hp
    exact h j n (List.mem_zipIdx_iff_getElem?.1 hp)

theorem nodeOk_internal {nm : List Node} {i : Nat} {f : NodeFreq} {l r : NodeIdx}
    (h : nodeOk nm i (.internal f l r) = true) :
    l.toNat < i ∧ r.toNat < i ∧ f.toNat = (nodeFreq nm l).toNat + (nodeFreq nm r).toNat := by
  simpa [nodeOk, and_assoc] using h

theorem getElem?_append_of_some {α : Type} {l : List α} {i : Nat} {a : α} (h : l[i]? = some a) (m : List α) :
    (l ++ m)[i]? = some a := by
  obtain ⟨hi, rfl⟩ := List.getElem?_eq_some_iff.1 h
  simp [List.getElem?_append, hi]

theorem nodeFreq_append {nm : List Node} {q : NodeIdx} (h : q.toNat < nm.length) (m : List Node) :
    nodeFreq (nm ++ m) q = nodeFreq nm q := by
  simp [nodeFreq, List.getElem?_append, h]

/-! ### The walk -/

theorem visit_leaf {nm : List Node} {i : NodeIdx} {sym : Symbol} {f : NodeFreq} (h : nm[i.toNat]? = some (.leaf sym f))
    (fuel : Nat) (path : BitString) : visit nm (fuel + 1) i path = some [{ sym := sym, code := leafCode path }] := by
  simp [visit, h]

theorem visit_internal {nm : List Node} {i : NodeIdx} {f : NodeFreq} {l r : NodeIdx}
    (h : nm[i.toNat]? = some (.internal f l r)) (fuel : Nat) (path : BitString) {a b : List IctEntry}
    (ha : visit nm fuel l (path ++ [false]) = some a) (hb : visit nm fuel r (path ++ [true]) = some b) :
    visit nm (fuel + 1) i path = some (a ++ b) := by
  simp [visit, h, ha, hb]

/-- What a walk that succeeds met at its first node. -/
theorem visit_cases {nm : List Node} {fuel : Nat} {i : NodeIdx} {path : BitString} {es : List IctEntry}
    (h : visit nm (fuel + 1) i path = some es) :
    (∃ sym f, nm[i.toNat]? = some (.leaf sym f) ∧ es = [{ sym := sym, code := leafCode path }]) ∨
    (∃ f l r a b, nm[i.toNat]? = some (.internal f l r) ∧ visit nm fuel l (path ++ [false]) = some a ∧
      visit nm fuel r (path ++ [true]) = some b ∧ es = a ++ b) := by
  unfold visit at h
  split at h
  · cases h
  · rename_i sym f hn
    exact .inl ⟨sym, f, hn, (Option.some.inj h).symm⟩
  · rename_i f l r hn
    split at h
    · rename_i a b ha hb
      exact .inr ⟨f, l, r, a, b, hn, ha, hb, (Option.some.inj h).symm⟩
    · cases h

theorem visit_fuel_pos {nm : List Node} {fuel : Nat} {i : NodeIdx} {path : BitString} {es : List IctEntry}
    (h : visit nm fuel i path = some es) : ∃ k, fuel = k + 1 := by
  cases fuel with
  | zero => simp [visit] at h
  | succ k => exact ⟨k, rfl⟩

/-- More fuel changes nothing. -/
theorem visit_mono {nm : List Node} {fuel : Nat} : ∀ {i : NodeIdx} {path : BitString} {es : List IctEntry} {fuel' : Nat},
    visit nm fuel i path = some es → fuel ≤ fuel' → visit nm fuel' i path = some es := by
  induction fuel with
  | zero => intro i path es fuel' h; simp [visit] at h
  | succ k ih =>
    intro i path es fuel' h hle
    obtain ⟨k', rfl⟩ : ∃ k', fuel' = k' + 1 := ⟨fuel' - 1, by omega⟩
    rcases visit_cases h with ⟨sym, f, hn, rfl⟩ | ⟨f, l, r, a, b, hn, ha, hb, rfl⟩
    · exact visit_leaf hn _ _
    · exact visit_internal hn _ _ (ih ha (by omega)) (ih hb (by omega))

/-- Later entries of the store change nothing. -/
theorem visit_append {nm : List Node} (m : List Node) {fuel : Nat} :
    ∀ {i : NodeIdx} {path : BitString} {es : List IctEntry},
    visit nm fuel i path = some es → visit (nm ++ m) fuel i path = some es := by
  induction fuel with
  | zero => intro i path es h; simp [visit] at h
  | succ k ih =>
    intro i path es h
    rcases visit_cases h with ⟨sym, f, hn, rfl⟩ | ⟨f, l, r, a, b, hn, ha, hb, rfl⟩
    · exact visit_leaf (getElem?_append_of_some hn m) _ _
    · exact visit_internal (getElem?_append_of_some hn m) _ _ (ih ha) (ih hb)

/-- The symbols met do not depend on the path walked so far. -/
theorem visit_syms {nm : List Node} {fuel : Nat} : ∀ {i : NodeIdx} {path : BitString} {es : List IctEntry}
    (path' : BitString), visit nm fuel i path = some es →
    ∃ es', visit nm fuel i path' = some es' ∧ es'.map IctEntry.sym = es.map IctEntry.sym := by
  induction fuel with
  | zero => intro i path es path' h; simp [visit] at h
  | succ k ih =>
    intro i path es path' h
    rcases visit_cases h with ⟨sym, f, hn, rfl⟩ | ⟨f, l, r, a, b, hn, ha, hb, rfl⟩
    · exact ⟨_, visit_leaf hn _ _, rfl⟩
    · obtain ⟨a', ha', hae⟩ := ih (path' ++ [false]) ha
      obtain ⟨b', hb', hbe⟩ := ih (path' ++ [true]) hb
      exact ⟨_, visit_internal hn _ _ ha' hb', by simp [hae, hbe]⟩

/-- In a sound store the walk from any entry succeeds, one level of fuel for each index down to it. -/
theorem visit_exists {nm : List Node} (hok : NodesOk nm) {fuel : Nat} :
    ∀ {i : NodeIdx} (path : BitString), i.toNat < nm.length → i.toNat < fuel → ∃ es, visit nm fuel i path = some es := by
  induction fuel with
  | zero => intro i path _ h; omega
  | succ k ih =>
    intro i path hi hk
    have hn : nm[i.toNat]? = some nm[i.toNat] := List.getElem?_eq_getElem hi
    cases hc : nm[i.toNat] with
    | leaf sym f => exact ⟨_, visit_leaf (hn.trans (by rw [hc])) _ _⟩
    | internal f l r =>
      rw [hc] at hn
      obtain ⟨hl, hr, -⟩ := nodeOk_internal (hok _ _ hn)
      obtain ⟨a, ha⟩ := ih (path ++ [false]) (i := l) (by omega) (by omega)
      obtain ⟨b, hb⟩ := ih (path ++ [true]) (i := r) (by omega) (by omega)
      exact ⟨_, visit_internal hn _ _ ha hb⟩

/-- The walk meets exactly the leaves below its node, each with the way to it appended to the path so far. -/
theorem mem_visit_iff {nm : List Node} {fuel : Nat} : ∀ {i : NodeIdx} {path : BitString} {es : List IctEntry},
    visit nm fuel i path = some es →
    ∀ e, e ∈ es ↔ ∃ p, PathTo nm i p e.sym ∧ e.code = leafCode (path ++ p) := by
  induction fuel with
  | zero => intro i path es h; simp [visit] at h
  | succ k ih =>
    intro i path es h e
    rcases visit_cases h with ⟨sym, f, hn, rfl⟩ | ⟨f, l, r, a, b, hn, ha, hb, rfl⟩
    · constructor
      · intro he
        obtain rfl := List.mem_singleton.1 he
        exact ⟨[], .leaf hn, by simp⟩
      · rintro ⟨p, hp, hc⟩
        cases hp with
        | leaf hn' =>
          rw [hn] at hn'
          obtain ⟨rfl, rfl⟩ := Node.leaf.inj (Option.some.inj hn')
          simp only [List.append_nil] at hc
          simp [← hc]
        | left hn' => rw [hn] at hn'; cases hn'
        | right hn' => rw [hn] at hn'; cases hn'
    · rw [List.mem_append, ih ha, ih hb]
      constructor
      · rintro (⟨p, hp, hc⟩ | ⟨p, hp, hc⟩)
        · exact ⟨false :: p, .left hn hp, by simpa using hc⟩
        · exact ⟨true :: p, .right hn hp, by simpa using hc⟩
      · rintro ⟨p, hp, hc⟩
        cases hp with
        | leaf hn' => rw [hn] at hn'; cases hn'
        | left hn' hp =>
          rw [hn] at hn'
          obtain ⟨rfl, rfl, rfl⟩ := Node.internal.inj (Option.some.inj hn')
          exact .inl ⟨_, hp, by simpa using hc⟩
        | right hn' hp =>
          rw [hn] at hn'
          obtain ⟨rfl, rfl, rfl⟩ := Node.internal.inj (Option.some.inj hn')
          exact .inr ⟨_, hp, by simpa using hc⟩

theorem leafCode_of_ne_nil {p : BitString} (h : p ≠ []) : leafCode p = p := by
  cases p with
  | nil => exact absurd rfl h
  | cons => rfl

theorem leafCode_eq_ite (p : BitString) : leafCode p = if p = [] then [false] else p := by
  cases p <;> rfl

theorem leafCode_ne_nil (p : BitString) : leafCode p ≠ [] := by
  cases p <;> simp [leafCode]

/-- A walk from the top meets the leaves below its node, each with the code of 42 R92. -/
theorem mem_visit_root {nm : List Node} {fuel : Nat} {i : NodeIdx} {es : List IctEntry}
    (h : visit nm fuel i [] = some es) (e : IctEntry) : e ∈ es ↔ LeafEntry nm i e := by
  simp only [mem_visit_iff h, LeafEntry, List.nil_append, leafCode_eq_ite]

/-! ### Codes of a walk -/

theorem codes_extend_path {nm : List Node} {fuel : Nat} {i : NodeIdx} {path : BitString} {es : List IctEntry}
    (h : visit nm fuel i path = some es) (hp : path ≠ []) : ∀ e ∈ es, path <+: e.code := by
  intro e he
  obtain ⟨p, -, hc⟩ := (mem_visit_iff h e).1 he
  rw [hc, leafCode_of_ne_nil (by simp [hp])]
  exact List.prefix_append path p

/-- Codes on the two sides of an internal node differ at that node. -/
theorem sides_apart {path a b : BitString} (ha : path ++ [false] <+: a) (hb : path ++ [true] <+: b) :
    PrefixApart a b ∧ a < b := by
  obtain ⟨x, rfl⟩ := ha
  obtain ⟨y, rfl⟩ := hb
  refine ⟨⟨?_, ?_⟩, ?_⟩
  · intro h; simp [List.append_assoc, List.prefix_append_right_inj, List.cons_prefix_cons] at h
  · intro h; simp [List.append_assoc, List.prefix_append_right_inj, List.cons_prefix_cons] at h
  · rw [List.append_assoc, List.append_assoc]
    exact List.append_left_lt (List.Lex.rel (by decide))

/-- The codes of a walk are prefix-free and in increasing lexicographic order (10_state R24; 42 R96). -/
theorem visit_codes_apart {nm : List Node} {fuel : Nat} : ∀ {i : NodeIdx} {path : BitString} {es : List IctEntry},
    visit nm fuel i path = some es →
    es.Pairwise (fun a b => PrefixApart a.code b.code ∧ a.code < b.code) := by
  induction fuel with
  | zero => intro i path es h; simp [visit] at h
  | succ k ih =>
    intro i path es h
    rcases visit_cases h with ⟨sym, f, hn, rfl⟩ | ⟨f, l, r, a, b, hn, ha, hb, rfl⟩
    · exact List.pairwise_singleton _ _
    · refine List.pairwise_append.2 ⟨ih ha, ih hb, fun x hx y hy => ?_⟩
      exact sides_apart (codes_extend_path ha (by simp) x hx) (codes_extend_path hb (by simp) y hy)

/-- A way down a sound store whose internal nodes all stand at or above `n` has at most `i + 1 - n` steps. -/
theorem pathTo_length {nm : List Node} (hok : NodesOk nm) {n : Nat}
    (hint : ∀ (j : Nat) f l r, nm[j]? = some (.internal f l r) → n ≤ j) {i : NodeIdx} {p : BitString} {sym : Symbol}
    (h : PathTo nm i p sym) : p.length ≤ i.toNat + 1 - n := by
  induction h with
  | leaf _ => simp
  | left hn _ ih =>
    have h1 := hint _ _ _ _ hn
    obtain ⟨hl, -, -⟩ := nodeOk_internal (hok _ _ hn)
    simp only [List.length_cons]; omega
  | right hn _ ih =>
    have h1 := hint _ _ _ _ hn
    obtain ⟨-, hr, -⟩ := nodeOk_internal (hok _ _ hn)
    simp only [List.length_cons]; omega

/-! ### CT filled from the leaves -/

theorem tableOf_concat (es : List IctEntry) (e : IctEntry) :
    tableOf (es ++ [e]) = Table.set (tableOf es) e.sym.toNat e.code := by
  simp [tableOf, List.foldl_append]

theorem tableOf_wf (es : List IctEntry) : Table.wf Config.alphabet (tableOf es) := by
  induction es using List.reverseRecOn with
  | nil => exact Table.nil_wf _
  | append_singleton es e ih => rw [tableOf_concat]; exact Table.set_wf ih e.sym.isLt _

/-- With distinct symbols CT holds exactly the pairs of the leaves. -/
theorem get?_tableOf {es : List IctEntry} (hd : es.Pairwise (fun a b => a.sym ≠ b.sym)) (k : Nat) (c : BitString) :
    Table.get? (tableOf es) k = some c ↔ ∃ e ∈ es, e.sym.toNat = k ∧ e.code = c := by
  induction es using List.reverseRecOn with
  | nil => simp [tableOf]
  | append_singleton es e ih =>
    obtain ⟨hd1, -, hd2⟩ := List.pairwise_append.1 hd
    rw [tableOf_concat, Table.get?_set]
    split
    · rename_i hk
      constructor
      · intro h; exact ⟨e, by simp, hk.symm, Option.some.inj h⟩
      · rintro ⟨x, hx, hxk, rfl⟩
        rcases List.mem_append.1 hx with hx | hx
        · exact absurd (BitVec.eq_of_toNat_eq (hxk.trans hk)) (hd2 x hx e (by simp))
        · rw [List.mem_singleton.1 hx]
    · rename_i hk
      rw [ih hd1]
      constructor
      · rintro ⟨x, hx, h⟩; exact ⟨x, by simp [hx], h⟩
      · rintro ⟨x, hx, hxk, hc⟩
        rcases List.mem_append.1 hx with hx | hx
        · exact ⟨x, hx, hxk, hc⟩
        · rw [List.mem_singleton.1 hx] at hxk; exact absurd hxk.symm hk

end Sys2Proof.Machine
end

