-- ==== Sys2Proof/Laws/Decoder.lean ====
section
/-! SUPPORT. The matching loop (44 R113, R114) over a prefix-free inverse table: what it does with a code, and with bits
no code begins. -/

namespace Sys2Proof.Machine

/-! ### The inverse lookup (10_state R24) -/

theorem ictLookup_none_iff {ict : List IctEntry} {c : BitString} :
    ictLookup ict c = none ↔ ∀ e ∈ ict, e.code ≠ c := by
  simp [ictLookup, List.find?_eq_none]

/-- In a prefix-free table two entries of which one's code is a prefix of the other's are the same entry. -/
theorem eq_of_prefix {ict : List IctEntry} (hp : ict.Pairwise (fun x y => PrefixApart x.code y.code)) {a b : IctEntry}
    (ha : a ∈ ict) (hb : b ∈ ict) (h : a.code <+: b.code) : a = b := by
  by_contra hne
  have hs : Std.Symm (fun x y : IctEntry => PrefixApart x.code y.code) := ⟨fun _ _ h => ⟨h.2, h.1⟩⟩
  exact ((hp.forall ha hb hne).1) h

theorem ictLookup_code {ict : List IctEntry} (hp : ict.Pairwise (fun x y => PrefixApart x.code y.code)) {e : IctEntry}
    (he : e ∈ ict) : ictLookup ict e.code = some e.sym := by
  cases hf : ict.find? (fun x => x.code == e.code) with
  | none =>
    have := List.find?_eq_none.1 hf e he
    simp at this
  | some x =>
    have hx : x = e := by
      have hc := List.find?_some hf
      refine eq_of_prefix hp (List.mem_of_find?_eq_some hf) he ?_
      rw [eq_of_beq hc]
    simp [ictLookup, hf, hx]

/-! ### The loop -/

/-- The position kept for the candidate plays no part while the candidate is empty. -/
theorem matchFrom_start (ict : List IctEntry) (q s t : Nat) (b : BitString) :
    matchFrom ict q s [] b = matchFrom ict q t [] b := by
  cases b <;> simp [matchFrom]

theorem matchFrom_hit {ict : List IctEntry} {q s : Nat} {cand : BitString} {b : Bool} {rest : BitString} {x : Symbol}
    (h : ictLookup ict (cand ++ [b]) = some x) :
    matchFrom ict q s cand (b :: rest) = (matchFrom ict (q + 1) 0 [] rest).map (x :: ·) := by
  simp only [matchFrom, h]
  rw [matchFrom_start ict (q + 1) _ 0]
  cases matchFrom ict (q + 1) 0 [] rest <;> rfl

theorem matchFrom_miss {ict : List IctEntry} {q s : Nat} {cand : BitString} {b : Bool} {rest : BitString}
    (h : ictLookup ict (cand ++ [b]) = none) :
    matchFrom ict q s cand (b :: rest) =
      matchFrom ict (q + 1) (if cand = [] then q else s) (cand ++ [b]) rest := by
  simp only [matchFrom, h]

/-- The rest of a code completes the candidate and emits its symbol. -/
theorem matchFrom_tail {ict : List IctEntry} (hp : ict.Pairwise (fun x y => PrefixApart x.code y.code)) {e : IctEntry}
    (he : e ∈ ict) (rest : BitString) (tail : BitString) : ∀ (q s : Nat) (cand : BitString),
    tail ≠ [] → cand ++ tail = e.code →
    matchFrom ict q s cand (tail ++ rest) = (matchFrom ict (q + tail.length) 0 [] rest).map (e.sym :: ·) := by
  induction tail with
  | nil => intro q s cand h; exact absurd rfl h
  | cons b t ih =>
    intro q s cand _ hc
    by_cases ht : t = []
    · subst ht
      have hl : ictLookup ict (cand ++ [b]) = some e.sym := by rw [hc]; exact ictLookup_code hp he
      simpa using matchFrom_hit (rest := rest) (q := q) (s := s) hl
    · have hl : ictLookup ict (cand ++ [b]) = none := by
        refine ictLookup_none_iff.2 fun x hx hxc => ?_
        have hpre : x.code <+: e.code := by
          rw [hxc, ← hc]; exact ⟨t, by simp⟩
        rw [eq_of_prefix hp hx he hpre, ← hc] at hxc
        exact ht (by simpa using hxc)
      rw [List.cons_append, matchFrom_miss hl, ih _ _ _ ht (by simpa using hc)]
      simp only [List.length_cons]
      rw [show q + 1 + t.length = q + (t.length + 1) by omega]

/-- A code at the front emits its symbol. -/
theorem matchFrom_code {ict : List IctEntry} (hp : ict.Pairwise (fun x y => PrefixApart x.code y.code)) {e : IctEntry}
    (he : e ∈ ict) (hne : e.code ≠ []) (q s : Nat) (rest : BitString) :
    matchFrom ict q s [] (e.code ++ rest) = (matchFrom ict (q + e.code.length) 0 [] rest).map (e.sym :: ·) :=
  matchFrom_tail hp he rest e.code q s [] hne rfl

/-- Codes at the front emit their symbols in order. -/
theorem matchFrom_codes {ict : List IctEntry} (hp : ict.Pairwise (fun x y => PrefixApart x.code y.code))
    (hne : ∀ e ∈ ict, e.code ≠ []) (rest : BitString) (es : List IctEntry) : ∀ q : Nat, (∀ e ∈ es, e ∈ ict) →
    matchFrom ict q 0 [] (es.flatMap IctEntry.code ++ rest) =
      (matchFrom ict (q + (es.flatMap IctEntry.code).length) 0 [] rest).map (es.map IctEntry.sym ++ ·) := by
  induction es with
  | nil =>
    intro q _
    simp only [List.flatMap_nil, List.nil_append, List.length_nil, Nat.add_zero, List.map_nil]
    cases matchFrom ict q 0 [] rest <;> rfl
  | cons e es ih =>
    intro q hm
    have he := hm e (by simp)
    rw [List.flatMap_cons, List.append_assoc, matchFrom_code hp he (hne e he), ih _ (fun x hx => hm x (by simp [hx]))]
    rw [show q + e.code.length + (es.flatMap IctEntry.code).length =
      q + (e.code ++ es.flatMap IctEntry.code).length by simp [Nat.add_assoc]]
    cases matchFrom ict (q + (e.code ++ es.flatMap IctEntry.code).length) 0 [] rest <;> simp [Except.map]

/-- Bits that complete no code leave the candidate unmatched. -/
theorem matchFrom_stuck {ict : List IctEntry} (b : BitString) : ∀ (q s : Nat) (cand : BitString),
    (∀ e ∈ ict, ∀ p, p <+: b → p ≠ [] → e.code ≠ cand ++ p) →
    matchFrom ict q s cand b = if cand ++ b = [] then .ok [] else .error (if cand = [] then q else s) := by
  induction b with
  | nil =>
    intro q s cand _
    by_cases hc : cand = [] <;> simp [matchFrom, hc]
  | cons x b ih =>
    intro q s cand h
    have hl : ictLookup ict (cand ++ [x]) = none :=
      ictLookup_none_iff.2 fun e he => h e he [x] ⟨b, rfl⟩ (by simp)
    rw [matchFrom_miss hl, ih]
    · simp
    · intro e he p hp hpn
      have := h e he (x :: p) (List.cons_prefix_cons.2 ⟨rfl, hp⟩) (by simp)
      simpa using this

/-- Bits that no code begins: nothing is emitted, and what is left over starts at the first of them. -/
theorem matchFrom_rest {ict : List IctEntry} {rest : BitString}
    (h : ∀ e ∈ ict, ¬ e.code <+: rest) (q : Nat) :
    matchFrom ict q 0 [] rest = if rest = [] then .ok [] else .error q := by
  rw [matchFrom_stuck rest q 0 []]
  · simp
  · intro e he p hp _ hc
    exact h e he (by rw [hc]; simpa using hp)

/-- Every bit string is a sequence of codes followed by bits that no code begins. -/
theorem exists_parse (ict : List IctEntry) (hne : ∀ e ∈ ict, e.code ≠ []) : ∀ (n : Nat) (b : BitString), b.length ≤ n →
    ∃ (es : List IctEntry) (rest : BitString), (∀ e ∈ es, e ∈ ict) ∧ b = es.flatMap IctEntry.code ++ rest ∧
      ∀ e ∈ ict, ¬ e.code <+: rest := by
  intro n
  induction n with
  | zero =>
    intro b hb
    have : b = [] := List.length_eq_zero_iff.1 (by omega)
    subst this
    exact ⟨[], [], by simp, by simp, fun e he h => hne e he (List.prefix_nil.1 h)⟩
  | succ n ih =>
    intro b hb
    by_cases h : ∃ e ∈ ict, e.code <+: b
    · obtain ⟨e, he, t, rfl⟩ := h
      have hpos : 0 < e.code.length := List.length_pos_iff.2 (hne e he)
      obtain ⟨es, rest, hes, hb', hr⟩ := ih t (by simp only [List.length_append] at hb; omega)
      refine ⟨e :: es, rest, ?_, by simp [hb'], hr⟩
      intro x hx
      rcases List.mem_cons.1 hx with rfl | hx
      · exact he
      · exact hes x hx
    · exact ⟨[], b, by simp, by simp, fun e he hp => h ⟨e, he, hp⟩⟩

end Sys2Proof.Machine
end

