-- ==== Sys2Proof/Laws/Port.lean ====
section
/-! SUPPORT. The host port and the host's lines: the two fields of an address, everything a write or a read can do, and
everything a line can do (20_memory R40 to R54; 30_encoding R65). -/

namespace Sys2Proof.Machine

/-! ### Addresses (20_memory R42) -/

theorem addrSpace_eq (a : Addr) : addrSpace a = a.toNat / 65536 := by
  have := a.isLt
  simp only [addrSpace, BitVec.extractLsb'_toNat, Nat.shiftRight_eq_div_pow]
  omega

theorem addrOff_eq (a : Addr) : addrOff a = a.toNat % 65536 := by
  simp [addrOff, BitVec.extractLsb'_toNat]

theorem addrAt_toNat {sp off : Nat} (hs : sp < 16) (ho : off < 65536) : (addrAt sp off).toNat = sp * 65536 + off := by
  simp only [addrAt, BitVec.toNat_ofNat]; omega

theorem addrSpace_addrAt {sp off : Nat} (hs : sp < 16) (ho : off < 65536) : addrSpace (addrAt sp off) = sp := by
  rw [addrSpace_eq, addrAt_toNat hs ho]; omega

theorem addrOff_addrAt {sp off : Nat} (hs : sp < 16) (ho : off < 65536) : addrOff (addrAt sp off) = off := by
  rw [addrOff_eq, addrAt_toNat hs ho]; omega

theorem addrSpace_lt (a : Addr) : addrSpace a < 16 := by rw [addrSpace_eq]; have := a.isLt; omega

theorem addrOff_lt (a : Addr) : addrOff a < 65536 := by rw [addrOff_eq]; omega

/-- Space and offset make up the address. -/
theorem addrAt_fields (a : Addr) : addrAt (addrSpace a) (addrOff a) = a := by
  apply BitVec.eq_of_toNat_eq
  rw [addrAt_toNat (addrSpace_lt a) (addrOff_lt a), addrSpace_eq, addrOff_eq]; omega

/-! ### Command words (30_encoding R62, R63) -/

/-- A word that decodes to a command is no illegal word. -/
theorem commandWordWf_of_decode {w : Word} {i : Instr} (h : decode w = .ok i) : commandWordWf w = true := by
  unfold decode at h
  split at h
  · cases h
  · rename_i hz
    have hz : zeroField w = 0#24 := by simpa using hz
    split at h
    · rename_i j hj
      simp only [commandWordWf, zeroFieldClear, Bool.and_eq_true, beq_iff_eq]
      refine ⟨hz, ?_⟩
      simp only [opcodeDefined, List.contains_eq_mem, decide_eq_true_eq, List.mem_cons, List.not_mem_nil, or_false]
      change opcodeField w = _ ∨ opcodeField w = _ ∨ _
      unfold decodeOpcode at hj
      repeat' (split at hj; · simp_all [opcodeField])
      cases hj
    · cases h

/-! ### Writes and reads -/

/-- Everything a write to a location of an idle block can do (20_memory R51). -/
theorem writeLoc_cases (s : State) (v : Word) (l : Loc) :
    (l = .cmd ∧ s.writeLoc v l = s.presentWord v) ∨
    (l = .status ∧ s.writeLoc v l = { s with herrFlag := s.herrFlag && !v.getLsbD 5 }) ∨
    (l = .inLen ∧ s.writeLoc v l = { s with inLen := v }) ∨
    (l = .inBits ∧ s.writeLoc v l = { s with inBits := v }) ∨
    (∃ k, l = .ftFreq k ∧ s.phase = .empty ∧ s.writeLoc v l = { s with ft := Table.set s.ft k v }) ∨
    (∃ k, l = .ftPresent k ∧ s.phase = .empty ∧ s.writeLoc v l = s.writeFtPresent k v) ∨
    (∃ j, l = .ib j ∧ s.writeLoc v l = s.writeIb j (v.extractLsb' 0 8)) ∨
    (l ∉ [Loc.cmd, .status, .inLen, .inBits] ∧ (∀ j, l ≠ .ib j) ∧
      (s.phase = .empty → ∀ k, l ≠ .ftFreq k ∧ l ≠ .ftPresent k) ∧ s.writeLoc v l = s.dropWrite) := by
  cases l with
  | status =>
    refine .inr (.inl ⟨rfl, ?_⟩)
    cases hv : v.getLsbD 5
    · simp only [State.writeLoc, hv, Bool.not_false, Bool.and_true]; rfl
    · simp only [State.writeLoc, hv, Bool.not_true, Bool.and_false]; rfl
  | ftFreq k => by_cases hp : s.phase = .empty <;> simp [State.writeLoc, hp]
  | ftPresent k => by_cases hp : s.phase = .empty <;> simp [State.writeLoc, hp]
  | _ => simp [State.writeLoc]

/-- Everything a word presented on CMD can do (40 R70; 30_encoding R63). -/
theorem presentWord_cases (s : State) (w : Word) :
    (commandWordWf w = true ∧ (∃ i, decode w = .ok i) ∧ s.presentWord w = s.accept w) ∨
    (∃ e, decode w = .error e ∧ s.presentWord w = illegalWord e w s) := by
  cases hd : decode w with
  | ok i => exact .inl ⟨commandWordWf_of_decode hd, ⟨i, rfl⟩, by simp [State.presentWord, hd]⟩
  | error e => exact .inr ⟨e, rfl, by simp [State.presentWord, hd]⟩

/-- A word presented on CMD changes the engine, the status flags and the fault registers, nothing else. -/
theorem presentWord_frame (s : State) (w : Word) :
    ∃ e d f r p,
      s.presentWord w = { s with engine := e, doneFlag := d, errFlag := f, errReg := r, errPos := p } := by
  rcases presentWord_cases s w with ⟨-, -, h⟩ | ⟨e, -, h⟩ <;> rw [h]
  · exact ⟨_, _, _, _, _, rfl⟩
  · cases e <;> exact ⟨_, _, _, _, _, rfl⟩

theorem memWrite_idle {s : State} (h : s.engine = none) (a : Addr) (v : Word) :
    s.memWrite a v = s.writeLoc v (locate s.cfg a) := by simp [State.memWrite, State.busy, h]

theorem memWrite_busy {s : State} (h : s.busy = true) (a : Addr) (v : Word) : s.memWrite a v = s.dropWrite := by
  simp [State.memWrite, h]

theorem memRead_idle {s : State} (h : s.engine = none) (a : Addr) :
    s.memRead a = { s with rdata := some (s.readLoc (locate s.cfg a)) } := by simp [State.memRead, State.busy, h]

/-- A read changes nothing but the word read and the count of free choices (20_memory R51, R54). -/
theorem memRead_frame (s : State) (a : Addr) :
    ∃ w n, s.memRead a = { s with rdata := some w, pick := n } := by
  unfold State.memRead
  split
  · split
    · exact ⟨_, s.pick, rfl⟩
    · exact ⟨_, _, rfl⟩
  · exact ⟨_, s.pick, rfl⟩

/-! ### Command words and lines -/

/-- Everything an accepted word can do (40 R70). -/
theorem runWord_next {w : Word} {s t : State} (h : runWord w s = .next t) :
    (∃ i, decode w = .ok i ∧ exec i s = .next t) ∨ (∃ e, decode w = .error e ∧ t = illegalWord e w s) := by
  unfold runWord at h
  split at h
  · rename_i i hi; exact .inl ⟨i, hi, h⟩
  · rename_i e he; exact .inr ⟨e, he, (Host.Outcome.next.inj h).symm⟩

theorem finishFlight_next {s t : State} (h : finishFlight s = .next t) :
    (s.engine = none ∧ t = s) ∨ (∃ w, s.engine = some w ∧ runWord w s = .next t) := by
  unfold finishFlight at h
  split at h
  · rename_i he; exact .inl ⟨he, (Host.Outcome.next.inj h).symm⟩
  · rename_i w hw; exact .inr ⟨w, hw, h⟩

theorem settle_idle {s : State} (h : s.engine = none) : settle s = .next s := by simp [settle, h]

/-- What stands before a transaction of a host that did not wait (70 R150). -/
theorem settle_next {s t : State} (h : settle s = .next t) :
    (s.engine = none ∧ t = s) ∨
    (∃ w, s.engine = some w ∧ (t = { s with pick := s.pick + 1 } ∨ runWord w { s with pick := s.pick + 1 } = .next t)) := by
  unfold settle at h
  split at h
  · rename_i he; exact .inl ⟨he, (Host.Outcome.next.inj h).symm⟩
  · rename_i w hw
    refine .inr ⟨w, hw, ?_⟩
    dsimp only at h
    split at h
    · right
      simpa [finishFlight, hw] using h
    · exact .inl (Host.Outcome.next.inj h).symm

theorem andThen_next {o : Host.Outcome State Fault Refusal} {k : State → Host.Outcome State Fault Refusal} {t : State}
    (h : andThen o k = .next t) : ∃ u, o = .next u ∧ k u = .next t := by
  cases o with
  | next u => exact ⟨u, rfl, h⟩
  | fault f => cases h
  | refused r => cases h

/-- The write to CMD adds nothing to what the command does on acceptance (40 R70). -/
theorem exec_accept (i : Instr) (w : Word) (s : State) : exec i (s.accept w) = exec i s := by
  cases i <;> rfl

/-- A word presented and then awaited is run. -/
theorem finishFlight_presentWord (s : State) (w : Word) :
    finishFlight (s.presentWord w) = runWord w s := by
  rcases presentWord_cases s w with ⟨-, ⟨i, hi⟩, hp⟩ | ⟨e, he, hp⟩
  · rw [hp]
    simpa [finishFlight, State.accept, runWord, hi] using exec_accept i w s
  · rw [hp]
    simp only [runWord, he]
    cases e <;> rfl

/-- No command leaves the engine busy (40 R70). -/
theorem exec_idle {i : Instr} {s t : State} (h : exec i s = .next t) : t.engine = none := by
  rcases exec_next h with ⟨u, _, _, rfl⟩ | ⟨f, pos, _, rfl⟩
  · rfl
  · cases i <;> rfl

theorem runWord_idle {w : Word} {s t : State} (h : runWord w s = .next t) : t.engine = none := by
  rcases runWord_next h with ⟨i, _, h⟩ | ⟨e, _, rfl⟩
  · exact exec_idle h
  · cases e <;> rfl

theorem finishFlight_idle {s t : State} (h : finishFlight s = .next t) : t.engine = none := by
  rcases finishFlight_next h with ⟨he, rfl⟩ | ⟨w, _, h⟩
  · exact he
  · exact runWord_idle h

/-- The read of STATUS that ends a wait (30_encoding R65). -/
theorem memRead_status {s : State} (h : s.engine = none) :
    s.memRead (address .status) = { s with rdata := some s.statusWord } := by
  rw [memRead_idle h]; rfl

/-- What a wait does: the flight ends, then STATUS is read. -/
theorem waitLine_next {s t : State} (h : waitLine s = .next t) :
    ∃ u, finishFlight s = .next u ∧ t = { u with rdata := some u.statusWord } := by
  obtain ⟨u, hu, ht⟩ := andThen_next h
  exact ⟨u, hu, by rw [← Host.Outcome.next.inj ht, memRead_status (finishFlight_idle hu)]⟩

/-- A command's line on an idle engine runs its word and reads STATUS. -/
theorem commandLine_idle {w : Word} {s : State} (h : s.engine = none) :
    commandLine w s = andThen (runWord w s) (fun t => .next { t with rdata := some t.statusWord }) := by
  have hl : locate s.cfg (address .cmd) = .cmd := rfl
  rw [commandLine, waitLine, memWrite_idle h, hl]
  simp only [State.writeLoc]
  rw [finishFlight_presentWord]
  cases hr : runWord w s with
  | next t => simp only [andThen]; rw [memRead_status (runWord_idle hr)]
  | fault f => rfl
  | refused r => rfl

/-- What a command's line does: the write is dropped while a command is in flight (20_memory R54), and STATUS is read at
the end. -/
theorem commandLine_next {w : Word} {s t : State} (h : commandLine w s = .next t) :
    ∃ u, t = { u with rdata := some u.statusWord } ∧
      ((s.engine = none ∧ runWord w s = .next u) ∨ (∃ v, s.engine = some v ∧ runWord v s.dropWrite = .next u)) := by
  cases he : s.engine with
  | none =>
    rw [commandLine_idle he] at h
    obtain ⟨u, hu, ht⟩ := andThen_next h
    exact ⟨u, (Host.Outcome.next.inj ht).symm, .inl ⟨rfl, hu⟩⟩
  | some v =>
    rw [commandLine, memWrite_busy (by simp [State.busy, he])] at h
    obtain ⟨u, hu, ht⟩ := waitLine_next h
    refine ⟨u, ht, .inr ⟨v, rfl, ?_⟩⟩
    simpa [finishFlight, State.dropWrite, he] using hu

/-- Everything a step can do: no line, or one of the five kinds of line. -/
theorem step_next {s t : State} (h : step s = .next t) :
    (s.script = [] ∧ finishFlight s = .next t) ∨
    (∃ a v rest u, s.script = .wr a v :: rest ∧ settle s.advance = .next u ∧ t = u.memWrite a v) ∨
    (∃ a rest u, s.script = .rd a :: rest ∧ settle s.advance = .next u ∧ t = u.memRead a) ∨
    (∃ w rest u, s.script = .cmd w :: rest ∧ settle s.advance = .next u ∧ commandLine w u = .next t) ∨
    (∃ rest, s.script = .wait :: rest ∧ waitLine s.advance = .next t) ∨
    (∃ rest, s.script = .reset :: rest ∧ t = s.advance.resetBlock) := by
  unfold step machineStep at h
  split at h
  · rename_i hs; exact .inl ⟨hs, h⟩
  · rename_i l rest hs
    right
    cases l with
    | wr a v =>
      obtain ⟨u, hu, ht⟩ := andThen_next h
      exact .inl ⟨a, v, rest, u, hs, hu, (Host.Outcome.next.inj ht).symm⟩
    | rd a =>
      obtain ⟨u, hu, ht⟩ := andThen_next h
      exact .inr (.inl ⟨a, rest, u, hs, hu, (Host.Outcome.next.inj ht).symm⟩)
    | cmd w =>
      obtain ⟨u, hu, ht⟩ := andThen_next h
      exact .inr (.inr (.inl ⟨w, rest, u, hs, hu, ht⟩))
    | wait => exact .inr (.inr (.inr (.inl ⟨rest, hs, h⟩)))
    | reset => exact .inr (.inr (.inr (.inr ⟨rest, hs, (Host.Outcome.next.inj h).symm⟩)))

/-! ### One line of a host with an idle engine -/

theorem step_wr {s : State} {a : Addr} {v : Word} {rest : List Line} (he : s.engine = none)
    (hs : s.script = .wr a v :: rest) : step s = .next (s.advance.writeLoc v (locate s.cfg a)) := by
  have he' : s.advance.engine = none := he
  simp only [step, machineStep, hs, runLine, settle_idle he', andThen, memWrite_idle he']
  rfl

theorem step_rd {s : State} {a : Addr} {rest : List Line} (he : s.engine = none) (hs : s.script = .rd a :: rest) :
    step s = .next (s.advance.memRead a) := by
  have he' : s.advance.engine = none := he
  simp only [step, machineStep, hs, runLine, settle_idle he', andThen]

theorem step_wait {s : State} {rest : List Line} (hs : s.script = .wait :: rest) : step s = waitLine s.advance := by
  simp only [step, machineStep, hs, runLine]

theorem waitLine_idle {s : State} (he : s.engine = none) :
    waitLine s = .next { s with rdata := some s.statusWord } := by
  simp only [waitLine, finishFlight, he, andThen, memRead_status he]

theorem step_cmd {s : State} {w : Word} {rest : List Line} (he : s.engine = none) (hs : s.script = .cmd w :: rest) :
    step s = andThen (runWord w s.advance) (fun t => .next { t with rdata := some t.statusWord }) := by
  have he' : s.advance.engine = none := he
  simp only [step, machineStep, hs, runLine, settle_idle he', andThen]
  exact commandLine_idle he'

end Sys2Proof.Machine
end

