-- ==== Sys2Proof/Laws/TreeBuilder.lean ====
section
/-! SUPPORT. The tree builder (41 R75 to R84): validation, the sorted leaves, one merge step, and what the merge loop
keeps. -/

namespace Sys2Proof.Machine

/-! ### Validation (41 R76) -/

theorem nonpositive_eq_false {f : Word} : nonpositive f = false ↔ 0 < sint32 f := by
  simp [nonpositive]

theorem tableFault_none_iff (ft : Table Word) : tableFault ft = none ↔ LegalTable ft := by
  cases ft with
  | nil => simp [tableFault, LegalTable]
  | cons e r =>
    simp only [tableFault, Option.map_eq_none_iff, List.find?_eq_none, LegalTable, ne_eq, reduceCtorEq,
      not_false_eq_true, true_and, Bool.not_eq_true, nonpositive_eq_false]

/-- A positive frequency as a natural number is itself. -/
theorem sint32_toNat {f : Word} (h : 0 < sint32 f) : sint32 f = (f.toNat : Int) ∧ f.toNat < 2 ^ 31 := by
  unfold sint32 at *
  rw [BitVec.toInt_eq_toNat_cond] at *
  split at h <;> rename_i hc
  · rw [if_pos hc]; exact ⟨rfl, by omega⟩
  · exfalso; have := f.isLt; omega

/-! ### The sorted leaves (41 R77) -/

theorem sortedEntries_perm (ft : Table Word) : (sortedEntries ft).Perm ft := List.perm_insertionSort _ _

@[simp] theorem sortedEntries_length (ft : Table Word) : (sortedEntries ft).length = ft.length :=
  (sortedEntries_perm ft).length_eq

theorem sortedEntries_pairwise (ft : Table Word) : (sortedEntries ft).Pairwise leafLe := by
  have : Std.Total leafLe := ⟨fun a b => by unfold leafLe; omega⟩
  have : IsTrans (Nat × Word) leafLe := ⟨fun a b c => by unfold leafLe; omega⟩
  exact List.pairwise_insertionSort _ _

/-- The leaves of a table, as BUILDT makes them. -/
def leavesOf (ft : Table Word) : List Node := (sortedEntries ft).map leafOf

@[simp] theorem leavesOf_length (ft : Table Word) : (leavesOf ft).length = ft.length := by simp [leavesOf]

theorem leavesOf_getElem? {ft : Table Word} {j : Nat} {n : Node} (h : (leavesOf ft)[j]? = some n) :
    ∃ e ∈ ft, n = leafOf e := by
  obtain ⟨e, he, rfl⟩ := List.mem_map.1 (List.mem_of_getElem? h)
  exact ⟨e, (sortedEntries_perm ft).mem_iff.1 he, rfl⟩

/-! ### One merge step (41 R79 to R81) -/

/-- Reinsertion splits the queue at the first entry that is not smaller (41 R81). -/
theorem insertParent_split (nm : List Node) (f : NodeFreq) (p : NodeIdx) (q : List NodeIdx) :
    ∃ before after, q = before ++ after ∧ insertParent nm f p q = before ++ p :: after ∧
      (∀ x ∈ before, nodeFreq nm x < f) ∧ ∀ x ∈ after.head?, f ≤ nodeFreq nm x := by
  induction q with
  | nil => exact ⟨[], [], rfl, rfl, by simp, by simp⟩
  | cons x r ih =>
    by_cases h : f ≤ nodeFreq nm x
    · exact ⟨[], x :: r, rfl, by simp [insertParent, h], by simp, by simpa using h⟩
    · obtain ⟨b, a, hr, hi, hb, ha⟩ := ih
      refine ⟨x :: b, a, by simp [hr], by simp [insertParent, h, hi], ?_, ha⟩
      intro y hy
      rcases List.mem_cons.1 hy with rfl | hy
      · exact BitVec.not_le.1 h
      · exact hb y hy

@[simp] theorem insertParent_length (nm : List Node) (f : NodeFreq) (p : NodeIdx) (q : List NodeIdx) :
    (insertParent nm f p q).length = q.length + 1 := by
  obtain ⟨b, a, rfl, hi, -, -⟩ := insertParent_split nm f p q
  rw [hi]; simp [Nat.add_assoc]

theorem insertParent_perm (nm : List Node) (f : NodeFreq) (p : NodeIdx) (q : List NodeIdx) :
    (insertParent nm f p q).Perm (p :: q) := by
  obtain ⟨b, a, rfl, hi, -, -⟩ := insertParent_split nm f p q
  rw [hi]; exact List.perm_middle

/-- The node a merge step makes. -/
theorem mergeStep_cons {w : Forest} {a b : NodeIdx} {rest : List NodeIdx} (h : w.pq = a :: b :: rest) :
    mergeStep w =
      { nm := w.nm ++ [.internal (nodeFreq w.nm a + nodeFreq w.nm b) a b],
        pq := insertParent (w.nm ++ [.internal (nodeFreq w.nm a + nodeFreq w.nm b) a b])
          (nodeFreq w.nm a + nodeFreq w.nm b) (BitVec.ofNat 9 w.nm.length) rest } := by
  unfold mergeStep; rw [h]

theorem mergeStep_of_short {w : Forest} (h : w.pq.length < 2) : mergeStep w = w := by
  unfold mergeStep
  split
  · rename_i hq; simp [hq] at h
  · rfl

theorem exists_two_of_length {α : Type} {l : List α} (h : 1 < l.length) : ∃ a b r, l = a :: b :: r := by
  match l, h with
  | a :: b :: r, _ => exact ⟨a, b, r, rfl⟩

/-- A pass shortens the queue by one (41 R84(a)). -/
theorem mergeStep_length {w : Forest} (h : 1 < w.pq.length) : (mergeStep w).pq.length + 1 = w.pq.length := by
  obtain ⟨a, b, r, hq⟩ := exists_two_of_length h
  rw [mergeStep_cons hq, hq]; simp

/-! ### What the merge loop keeps -/

/-- The symbols below a node, in the order of the walk. -/
def symsBelow (nm : List Node) (i : NodeIdx) : List Symbol :=
  ((visit nm nm.length i []).getD []).map IctEntry.sym

theorem symsBelow_of_visit {nm : List Node} {fuel : Nat} {i : NodeIdx} {path : BitString} {es : List IctEntry}
    (h : visit nm fuel i path = some es) (hf : fuel ≤ nm.length) : symsBelow nm i = es.map IctEntry.sym := by
  obtain ⟨es', h', he⟩ := visit_syms [] h
  rw [symsBelow, visit_mono h' hf, Option.getD_some, he]

theorem symsBelow_append {nm : List Node} (hok : NodesOk nm) (m : List Node) {i : NodeIdx} (hi : i.toNat < nm.length) :
    symsBelow (nm ++ m) i = symsBelow nm i := by
  obtain ⟨es, h⟩ := visit_exists hok (fuel := nm.length) [] hi hi
  rw [symsBelow_of_visit h le_rfl, symsBelow_of_visit (visit_append m h) (by simp)]

/-- The forest of a legal table on the way from its leaves to its root: `N` leaves, everything above them internal and
sound, the queue the roots of the forest. -/
structure ForestOk (ft : Table Word) (w : Forest) : Prop where
  leaves : w.nm.take ft.length = leavesOf ft
  inner : ∀ n ∈ w.nm.drop ft.length, n.isInternal = true
  nodes : NodesOk w.nm
  valid : ∀ q ∈ w.pq, q.toNat < w.nm.length
  count : w.nm.length + w.pq.length = 2 * ft.length
  some_root : 0 < w.pq.length
  refs : ∀ j < w.nm.length, (childRefs w.nm).count j = if j ∈ w.pq.map BitVec.toNat then 0 else 1
  nodup : (w.pq.map BitVec.toNat).Nodup
  total : (w.pq.map (fun q => (nodeFreq w.nm q).toNat)).sum = (ft.map (fun e => e.2.toNat)).sum
  syms : (w.pq.flatMap (symsBelow w.nm)).Perm (ft.map (fun e => BitVec.ofNat 8 e.1))
  last : w.nm.length = ft.length ∨ BitVec.ofNat 9 (w.nm.length - 1) ∈ w.pq

theorem childRefs_append (a b : List Node) : childRefs (a ++ b) = childRefs a ++ childRefs b := by
  simp [childRefs]

theorem isInternal_false_children {n : Node} (h : n.isInternal = false) : nodeChildren n = [] := by
  cases n with
  | leaf => rfl
  | internal => cases h

theorem mem_childRefs {nm : List Node} (hok : NodesOk nm) {j : Nat} (h : j ∈ childRefs nm) : j < nm.length := by
  obtain ⟨n, hn, hj⟩ := List.mem_flatMap.1 h
  obtain ⟨i, hi, rfl⟩ := List.getElem_of_mem hn
  have hs : nm[i]? = some nm[i] := List.getElem?_eq_getElem hi
  cases hc : nm[i] with
  | leaf => rw [hc] at hj; simp [nodeChildren] at hj
  | internal f l r =>
    rw [hc] at hj hs
    obtain ⟨hl, hr, -⟩ := nodeOk_internal (hok _ _ hs)
    simp [nodeChildren] at hj
    omega

theorem toNat_sum_le {ft : Table Word} (h : LegalTable ft) (hn : ft.length ≤ Config.alphabet) :
    (ft.map (fun e => e.2.toNat)).sum < 2 ^ 39 := by
  have : (ft.map (fun e => e.2.toNat)).sum ≤ ft.length * (2 ^ 31 - 1) := by
    have hb := List.sum_le_card_nsmul (ft.map (fun e => e.2.toNat)) (2 ^ 31 - 1) (by
      intro x hx
      obtain ⟨e, he, rfl⟩ := List.mem_map.1 hx
      have := (sint32_toNat (h.2 e he)).2
      change e.2.toNat ≤ _
      omega)
    simpa using hb
  unfold Config.alphabet at hn
  have h2 : ft.length * (2 ^ 31 - 1) ≤ 256 * (2 ^ 31 - 1) := Nat.mul_le_mul_right _ hn
  omega

theorem toNat_ofNat9 {n : Nat} (h : n < 512) : (BitVec.ofNat 9 n).toNat = n := by
  rw [BitVec.toNat_ofNat]; exact Nat.mod_eq_of_lt h

theorem initialForest_ok {ft : Table Word} (h : LegalTable ft) (hn : ft.length ≤ Config.alphabet) :
    ForestOk ft (initialForest ft) := by
  unfold Config.alphabet at hn
  have hnm : (initialForest ft).nm = leavesOf ft := rfl
  have hpq : (initialForest ft).pq = (List.range ft.length).map (BitVec.ofNat 9) := rfl
  have hlen : (leavesOf ft).length = ft.length := leavesOf_length ft
  have hmap : (initialForest ft).pq.map BitVec.toNat = List.range ft.length := by
    rw [hpq, List.map_map]
    conv_rhs => rw [← List.map_id (List.range ft.length)]
    refine List.map_congr_left fun j hj => ?_
    exact toNat_ofNat9 (by have := List.mem_range.1 hj; omega)
  have hleaf : ∀ j n, (leavesOf ft)[j]? = some n → ∃ e, e ∈ ft ∧ n = leafOf e := fun j n hj => by
    obtain ⟨e, he, hne⟩ := leavesOf_getElem? hj; exact ⟨e, he, hne⟩
  have hch : childRefs (leavesOf ft) = [] := by
    refine List.flatMap_eq_nil_iff.2 fun n hn' => ?_
    obtain ⟨e, -, rfl⟩ := List.mem_map.1 hn'
    rfl
  have hent : ∀ j, (hj : j < ft.length) →
      (leavesOf ft)[j]? = some (leafOf ((sortedEntries ft)[j]'(by simpa using hj))) := fun j hj => by
    rw [leavesOf, List.getElem?_map, List.getElem?_eq_getElem (by simpa using hj)]; rfl
  have hseq : ∀ {β : Type} (g : Nat × Word → β), (List.range ft.length).map (fun j =>
      ((sortedEntries ft)[j]?).map g) = ((sortedEntries ft).map g).map some := by
    intro β g
    apply List.ext_getElem
    · simp
    · intro j h1 h2
      have hj : j < (sortedEntries ft).length := by simpa using h1
      simp [List.getElem?_eq_getElem hj]
  refine
    { leaves := by rw [hnm, List.take_of_length_le hlen.le]
      inner := by rw [hnm, List.drop_of_length_le hlen.le]; simp
      nodes := ?_
      valid := ?_
      count := by rw [hnm, hpq]; simp [hlen]; omega
      some_root := by rw [hpq]; simpa using List.length_pos_iff.2 h.1
      refs := ?_
      nodup := by rw [hmap]; exact List.nodup_range
      total := ?_
      syms := ?_
      last := .inl (by rw [hnm, hlen]) }
  · intro j n hj
    obtain ⟨e, -, rfl⟩ := hleaf j n hj
    rfl
  · intro q hq
    have : q.toNat ∈ (initialForest ft).pq.map BitVec.toNat := List.mem_map_of_mem hq
    rw [hmap] at this
    rw [hnm, hlen]; exact List.mem_range.1 this
  · intro j hj
    rw [hnm, hlen] at hj
    rw [hnm, hch, hmap, if_pos (List.mem_range.2 hj)]; rfl
  · have h1 : (initialForest ft).pq.map (fun q => (nodeFreq (initialForest ft).nm q).toNat) =
        (sortedEntries ft).map (fun e => e.2.toNat) := by
      rw [hpq, List.map_map]
      apply List.ext_getElem
      · simp
      · intro j h1 h2
        have hj : j < ft.length := by simpa using h1
        simp only [List.getElem_map, List.getElem_range, Function.comp_apply, nodeFreq, hnm]
        rw [toNat_ofNat9 (by omega), hent j hj]
        simp only [leafOf, Node.freq, BitVec.toNat_setWidth]
        exact Nat.mod_eq_of_lt (by have := ((sortedEntries ft)[j]'(by simpa using hj)).2.isLt; omega)
    rw [h1]
    exact ((sortedEntries_perm ft).map _).sum_eq
  · have h1 : (initialForest ft).pq.flatMap (symsBelow (initialForest ft).nm) =
        (sortedEntries ft).map (fun e => BitVec.ofNat 8 e.1) := by
      rw [hpq, hnm, List.flatMap_map]
      have : ∀ j ∈ List.range ft.length, symsBelow (leavesOf ft) (BitVec.ofNat 9 j) =
          (((sortedEntries ft)[j]?).map (fun e => BitVec.ofNat 8 e.1)).toList := by
        intro j hj
        have hj := List.mem_range.1 hj
        have hj9 : (BitVec.ofNat 9 j).toNat = j := toNat_ofNat9 (by omega)
        have hl : (leavesOf ft)[(BitVec.ofNat 9 j).toNat]? =
            some (leafOf ((sortedEntries ft)[j]'(by simpa using hj))) := by rw [hj9]; exact hent j hj
        have hv := visit_leaf hl 0 []
        rw [symsBelow_of_visit hv (by rw [hlen]; omega), List.getElem?_eq_getElem (by simpa using hj)]
        simp
      rw [List.flatMap_congr this]
      have : (List.range ft.length).flatMap (fun j =>
          (((sortedEntries ft)[j]?).map (fun e => (BitVec.ofNat 8 e.1 : Symbol))).toList) =
          (((List.range ft.length).map (fun j =>
            ((sortedEntries ft)[j]?).map (fun e => (BitVec.ofNat 8 e.1 : Symbol))))).flatMap Option.toList := by
        rw [List.flatMap_map]
      rw [this, hseq, List.flatMap_map]
      simp
    rw [h1]
    exact (sortedEntries_perm ft).map _

/-- A merge step keeps the forest (41 R79 to R81, R84). -/
theorem mergeStep_ok {ft : Table Word} (h : LegalTable ft) (hn : ft.length ≤ Config.alphabet) {w : Forest}
    (hw : ForestOk ft w) (h2 : 1 < w.pq.length) : ForestOk ft (mergeStep w) := by
  obtain ⟨a, b, rest, hq⟩ := exists_two_of_length h2
  have hsum := toNat_sum_le h hn
  unfold Config.alphabet at hn
  have hcount := hw.count
  have hva : a.toNat < w.nm.length := hw.valid a (by simp [hq])
  have hvb : b.toNat < w.nm.length := hw.valid b (by simp [hq])
  have hroom : w.nm.length < 511 := by rw [hq] at hcount; simp at hcount; omega
  have hp : (BitVec.ofNat 9 w.nm.length).toNat = w.nm.length := toNat_ofNat9 (by omega)
  have htot := hw.total
  rw [hq] at htot
  simp only [List.map_cons, List.sum_cons] at htot
  have hadd : (nodeFreq w.nm a + nodeFreq w.nm b).toNat = (nodeFreq w.nm a).toNat + (nodeFreq w.nm b).toNat := by
    rw [BitVec.toNat_add]; exact Nat.mod_eq_of_lt (by omega)
  rw [mergeStep_cons hq]
  set f := nodeFreq w.nm a + nodeFreq w.nm b with hf
  set nm := w.nm ++ [Node.internal f a b] with hnm
  have hperm : (insertParent nm f (BitVec.ofNat 9 w.nm.length) rest).Perm (BitVec.ofNat 9 w.nm.length :: rest) :=
    insertParent_perm _ _ _ _
  have hlenle : ft.length ≤ w.nm.length := by
    have := congrArg List.length hw.leaves
    simp at this; omega
  have hnew : nm[w.nm.length]? = some (.internal f a b) := by simp [hnm]
  have hokn : NodesOk nm := by
    intro j n hj
    by_cases hjl : j < w.nm.length
    · have hj' : w.nm[j]? = some n := by rwa [hnm, List.getElem?_append_left hjl] at hj
      have hok := hw.nodes j n hj'
      cases n with
      | leaf => rfl
      | internal g l r =>
        obtain ⟨h1, h3, h4⟩ := nodeOk_internal hok
        simp only [nodeOk, hnm, nodeFreq_append (show l.toNat < w.nm.length by omega),
          nodeFreq_append (show r.toNat < w.nm.length by omega)]
        simp [h1, h3, h4]
    · have hje : j = w.nm.length := by
        have := (List.getElem?_eq_some_iff.1 hj).1
        simp [hnm] at this; omega
      subst hje
      rw [hnew] at hj
      obtain rfl := Option.some.inj hj
      simp only [nodeOk, hnm, nodeFreq_append hva, nodeFreq_append hvb]
      simp [hva, hvb, hadd]
  have hrest : ∀ q ∈ rest, q.toNat < w.nm.length := fun q hqr => hw.valid q (by simp [hq, hqr])
  have hnd := hw.nodup
  rw [hq] at hnd
  simp only [List.map_cons, List.nodup_cons, List.mem_cons, not_or] at hnd
  refine
    { leaves := by rw [hnm, List.take_append_of_le_length hlenle]; exact hw.leaves
      inner := ?_
      nodes := hokn
      valid := ?_
      count := by rw [hnm]; simp; rw [hq] at hcount; simp at hcount; omega
      some_root := by simp
      refs := ?_
      nodup := ?_
      total := ?_
      syms := ?_
      last := .inr ?_ }
  · intro n hn'
    rw [hnm, List.drop_append_of_le_length hlenle, List.mem_append] at hn'
    rcases hn' with hn' | hn'
    · exact hw.inner n hn'
    · rw [List.mem_singleton.1 hn']; rfl
  · intro q hqm
    rcases List.mem_cons.1 (hperm.mem_iff.1 hqm) with rfl | hqm
    · simp only [hp, hnm]; simp
    · have := hrest q hqm; simp only [hnm]; simp; omega
  · intro j hj
    simp only [hnm, List.length_append, List.length_singleton] at hj
    have hmem : j ∈ (insertParent nm f (BitVec.ofNat 9 w.nm.length) rest).map BitVec.toNat ↔
        j = w.nm.length ∨ j ∈ rest.map BitVec.toNat := by
      rw [(hperm.map BitVec.toNat).mem_iff]; simp [hp]
    have hcr : (childRefs nm).count j =
        (childRefs w.nm).count j + ((if a.toNat = j then 1 else 0) + if b.toNat = j then 1 else 0) := by
      rw [hnm, childRefs_append, List.count_append]
      congr 1
      simp only [childRefs, List.flatMap_cons, List.flatMap_nil, List.append_nil, nodeChildren, List.count_cons,
        List.count_nil, beq_iff_eq]
      omega
    change (childRefs nm).count j = if j ∈ (insertParent nm f (BitVec.ofNat 9 w.nm.length) rest).map BitVec.toNat
      then 0 else 1
    rw [hcr, if_congr hmem rfl rfl]
    by_cases hjl : j < w.nm.length
    · have hold := hw.refs j hjl
      rw [hq] at hold
      simp only [List.map_cons, List.mem_cons] at hold
      have hjne : j ≠ w.nm.length := by omega
      rw [hold]
      by_cases ha : a.toNat = j
      · have hb' : b.toNat ≠ j := fun e => hnd.1.1 (ha.trans e.symm)
        have hr' : ¬ (j = w.nm.length ∨ j ∈ rest.map BitVec.toNat) := fun e => e.elim hjne (ha ▸ hnd.1.2)
        rw [if_pos (.inl ha.symm), if_pos ha, if_neg hb', if_neg hr']
      · by_cases hb' : b.toNat = j
        · have hr' : ¬ (j = w.nm.length ∨ j ∈ rest.map BitVec.toNat) := fun e => e.elim hjne (hb' ▸ hnd.2.1)
          rw [if_pos (.inr (.inl hb'.symm)), if_neg ha, if_pos hb', if_neg hr']
        · have hiff : (j = a.toNat ∨ j = b.toNat ∨ j ∈ rest.map BitVec.toNat) ↔
              (j = w.nm.length ∨ j ∈ rest.map BitVec.toNat) := by
            constructor
            · rintro (e | e | e)
              · exact absurd e.symm ha
              · exact absurd e.symm hb'
              · exact .inr e
            · rintro (e | e)
              · exact absurd e hjne
              · exact .inr (.inr e)
          rw [if_congr hiff rfl rfl, if_neg ha, if_neg hb']; omega
    · have hje : j = w.nm.length := by omega
      have h0 : (childRefs w.nm).count j = 0 :=
        List.count_eq_zero.2 fun hm => hjl (mem_childRefs hw.nodes hm)
      rw [h0, if_neg (show ¬ a.toNat = j by omega), if_neg (show ¬ b.toNat = j by omega), if_pos (.inl hje)]
  · refine ((hperm.map BitVec.toNat).nodup_iff).2 ?_
    simp only [List.map_cons, List.nodup_cons, hp]
    refine ⟨fun hm => ?_, hnd.2.2⟩
    obtain ⟨q, hqr, hqe⟩ := List.mem_map.1 hm
    have := hrest q hqr; omega
  · have hfreqp : nodeFreq nm (BitVec.ofNat 9 w.nm.length) = f := by
      simp [nodeFreq, hp, hnew, Node.freq]
    rw [(hperm.map _).sum_eq]
    simp only [List.map_cons, List.sum_cons, hfreqp, hadd]
    have : rest.map (fun q => (nodeFreq nm q).toNat) = rest.map (fun q => (nodeFreq w.nm q).toNat) :=
      List.map_congr_left fun q hqr => by rw [hnm, nodeFreq_append (hrest q hqr)]
    rw [this]; omega
  · refine ((hperm.flatMap_right _)).trans ?_
    refine List.Perm.trans ?_ hw.syms
    rw [hq]
    simp only [List.flatMap_cons]
    have hpsym : symsBelow nm (BitVec.ofNat 9 w.nm.length) = symsBelow w.nm a ++ symsBelow w.nm b := by
      obtain ⟨ea, hea⟩ := visit_exists hw.nodes (fuel := w.nm.length) [false] hva hva
      obtain ⟨eb, heb⟩ := visit_exists hw.nodes (fuel := w.nm.length) [true] hvb hvb
      have hv : visit nm (w.nm.length + 1) (BitVec.ofNat 9 w.nm.length) [] = some (ea ++ eb) :=
        visit_internal (by rw [hp]; exact hnew) _ _ (visit_append _ hea) (visit_append _ heb)
      rw [symsBelow_of_visit hv (by simp [hnm]), symsBelow_of_visit hea le_rfl, symsBelow_of_visit heb le_rfl,
        List.map_append]
    have hrsym : rest.flatMap (symsBelow nm) = rest.flatMap (symsBelow w.nm) :=
      List.flatMap_congr fun q hqr => symsBelow_append hw.nodes _ (hrest q hqr)
    rw [hpsym, hrsym, List.append_assoc]
  · simp only [hnm, List.length_append, List.length_singleton, Nat.add_sub_cancel]
    exact hperm.mem_iff.2 (by simp)

theorem mergeLoop_ok {ft : Table Word} (h : LegalTable ft) (hn : ft.length ≤ Config.alphabet) (n : Nat) :
    ∀ {w : Forest}, ForestOk ft w → w.pq.length ≤ n + 1 →
      ForestOk ft (mergeLoop n w) ∧ (mergeLoop n w).pq.length = 1 := by
  induction n with
  | zero =>
    intro w hw hl
    have := hw.some_root
    exact ⟨hw, by simp only [mergeLoop]; omega⟩
  | succ n ih =>
    intro w hw hl
    unfold mergeLoop
    split
    · rename_i h2
      have := mergeStep_length h2
      exact ih (mergeStep_ok h hn hw h2) (by omega)
    · have := hw.some_root
      exact ⟨hw, by omega⟩

/-- The finished forest of a legal table: a single tree (41 R82, R84). -/
theorem builtForest_ok {ft : Table Word} (h : LegalTable ft) (hn : ft.length ≤ Config.alphabet) :
    ForestOk ft (builtForest ft) ∧ ∃ root, (builtForest ft).pq = [root] := by
  obtain ⟨h1, h2⟩ := mergeLoop_ok h hn ft.length (initialForest_ok h hn) (by simp [initialForest])
  exact ⟨h1, List.length_eq_one_iff.1 h2⟩

theorem table_length_le {α : Type} {n : Nat} {t : Table α} (h : Table.wf n t) : t.length ≤ n := by
  have hnd : (t.map Prod.fst).Nodup := by
    refine (List.pairwise_map.2 ?_)
    exact h.1.imp fun hab => by omega
  have hsub : t.map Prod.fst ⊆ List.range n := by
    intro k hk
    obtain ⟨c, hc, rfl⟩ := List.mem_map.1 hk
    exact List.mem_range.2 (h.2 c hc)
  have := (hnd.subperm hsub).length_le
  simpa using this

end Sys2Proof.Machine
end

