-- ==== Sys2Proof/Laws/Invariant.lean ====
section
/-! SUPPORT. The parts of the invariant: the finished forest is a tree, its walk fills sound code tables, and which
fields each part reads. -/

namespace Sys2Proof.Machine

/-! ### Which fields the parts read -/

theorem TreeOk.congr {s t : State} (h : TreeOk s) (h1 : t.ft = s.ft) (h2 : t.nsym = s.nsym) (h3 : t.nm = s.nm)
    (h4 : t.root = s.root) (h5 : t.pq = s.pq) : TreeOk t := by
  unfold TreeOk
  rw [h1, h2, h3, h4, h5]; exact h

theorem CodesOk.congr {s t : State} (h : CodesOk s) (h1 : t.ft = s.ft) (h2 : t.nsym = s.nsym) (h3 : t.ct = s.ct)
    (h4 : t.ict = s.ict) (h5 : t.nm = s.nm) (h6 : t.root = s.root) : CodesOk t := by
  unfold CodesOk
  rw [h1, h2, h3, h4, h5, h6]; exact h

/-! ### The tree -/

/-- The finished forest of a legal table is the tree of the table. -/
theorem builtForest_treeOk {s : State} (hw : Table.wf Config.alphabet s.ft) (hl : LegalTable s.ft)
    (hnm : s.nm = (builtForest s.ft).nm) (hpq : s.pq = (builtForest s.ft).pq)
    (hroot : s.root = (builtForest s.ft).pq.headD 0) (hnsym : s.nsym = BitVec.ofNat 9 s.ft.length) : TreeOk s := by
  have hlen : s.ft.length ≤ 256 := table_length_le hw
  obtain ⟨hf, r, hr⟩ := builtForest_ok hl hlen
  rw [hr] at hpq hroot
  have hr' : s.root = r := hroot
  have hcnt := hf.count
  rw [← hnm, hr, List.length_singleton] at hcnt
  have hval : r.toNat < s.nm.length := by
    have := hf.valid r (by rw [hr]; simp)
    rwa [← hnm] at this
  have hrn : r.toNat + 1 = s.nm.length := by
    rcases hf.last with h1 | h1
    · rw [← hnm] at h1; omega
    · rw [hr, List.mem_singleton, ← hnm] at h1
      rw [← h1, toNat_ofNat9 (by omega)]; omega
  have hnode : NodesOk s.nm := by rw [hnm]; exact hf.nodes
  obtain ⟨es, hes⟩ := visit_exists hnode (fuel := s.nm.length) [] hval hval
  refine ⟨hl, ?_, hcnt, by rw [hr']; exact hrn, by rw [hpq, hr'], by rw [hnm]; exact hf.leaves,
    by rw [hnm]; exact hf.inner, (nodesOk_iff_zipIdx _).2 hnode, ?_, es.map IctEntry.sym, ?_, ?_⟩
  · rw [hnsym]; exact toNat_ofNat9 (by omega)
  · intro j hj
    have := hf.refs j (by rwa [hnm] at hj)
    rw [hnm, this, hr, hr']
    simp
  · simp only [reachedSymbols, hr', hes, Option.map_some, Option.mem_def]
  · have := hf.syms
    rw [hr, List.flatMap_singleton, ← hnm, symsBelow_of_visit hes le_rfl] at this
    exact this

theorem TreeOk.nodes {s : State} (h : TreeOk s) : NodesOk s.nm := (nodesOk_iff_zipIdx _).1 h.2.2.2.2.2.2.2.1

/-- Internal nodes stand above the leaves. -/
theorem TreeOk.internal_index {s : State} (h : TreeOk s) (j : Nat) (f : NodeFreq) (l r : NodeIdx)
    (hn : s.nm[j]? = some (.internal f l r)) : s.ft.length ≤ j := by
  obtain ⟨-, -, -, -, -, h6, -⟩ := h
  by_contra hj
  have h1 : (s.nm.take s.ft.length)[j]? = some (.internal f l r) := by
    rw [List.getElem?_take_of_lt (by omega)]; exact hn
  rw [h6, List.getElem?_map] at h1
  cases hx : (sortedEntries s.ft)[j]? with
  | none => rw [hx] at h1; cases h1
  | some e => rw [hx] at h1; cases h1

/-- The walk of a tree succeeds. -/
theorem TreeOk.visit {s : State} (h : TreeOk s) :
    ∃ es, Machine.visit s.nm s.nm.length s.root [] = some es ∧
      (es.map IctEntry.sym).Perm (s.ft.map (fun e => BitVec.ofNat 8 e.1)) := by
  obtain ⟨syms, hm, hp⟩ := h.2.2.2.2.2.2.2.2.2
  simp only [reachedSymbols, Option.mem_def, Option.map_eq_some_iff] at hm
  obtain ⟨es, hes, rfl⟩ := hm
  exact ⟨es, hes, hp⟩

/-! ### The code tables -/

theorem symbols_nodup {α : Type} {t : Table α} (hw : Table.wf Config.alphabet t) :
    (t.map (fun e => BitVec.ofNat 8 e.1)).Nodup := by
  refine List.pairwise_map.2 (hw.1.imp_of_mem fun ha hb hab he => ?_)
  have h1 := hw.2 _ ha
  have h2 := hw.2 _ hb
  have h3 := congrArg BitVec.toNat he
  simp only [BitVec.toNat_ofNat, Config.alphabet] at h1 h2 h3
  omega

theorem keys_eq {α β : Type} {m n : Nat} {t : Table α} {u : Table β} (ht : Table.wf m t) (hu : Table.wf n u)
    (h : ∀ k, k ∈ t.map Prod.fst ↔ k ∈ u.map Prod.fst) : t.map Prod.fst = u.map Prod.fst := by
  have h1 : (t.map Prod.fst).Pairwise (· < ·) := List.pairwise_map.2 ht.1
  have h2 : (u.map Prod.fst).Pairwise (· < ·) := List.pairwise_map.2 hu.1
  have hp : (t.map Prod.fst).Perm (u.map Prod.fst) :=
    (List.perm_ext_iff_of_nodup (h1.imp fun h => Nat.ne_of_lt h) (h2.imp fun h => Nat.ne_of_lt h)).2 h
  exact hp.eq_of_pairwise (fun a b _ _ hab hba => absurd hab (Nat.lt_asymm hba)) h1 h2

/-- The walk of a tree fills sound code tables. -/
theorem codesOk_of_visit {s : State} {es : List IctEntry} (hw : Table.wf Config.alphabet s.ft) (h : TreeOk s)
    (hv : Machine.visit s.nm s.nm.length s.root [] = some es) :
    CodesOk { s with ct := tableOf es, ict := es } := by
  have hlen : s.ft.length ≤ 256 := table_length_le hw
  obtain ⟨es', hv', hp⟩ := h.visit
  obtain rfl : es' = es := Option.some.inj (hv'.symm.trans hv)
  have hnd : (es'.map IctEntry.sym).Nodup := hp.nodup_iff.2 (symbols_nodup hw)
  have hds : es'.Pairwise (fun a b => a.sym ≠ b.sym) := List.pairwise_map.1 hnd
  have hap := visit_codes_apart hv
  have hl : es'.length = s.ft.length := by simpa using hp.length_eq
  have htw := tableOf_wf es'
  refine ⟨?_, ?_, hap.imp fun h => h.1, hap.imp fun h => h.2, hds, ?_, ?_, ?_, hv⟩
  · change es'.length = s.nsym.toNat
    rw [h.2.1, hl]
  · intro e he
    obtain ⟨p, hpath, hc⟩ := (mem_visit_root hv e).1 he
    have hpl := pathTo_length h.nodes h.internal_index hpath
    have h3 := h.2.2.1
    have h4 := h.2.2.2.1
    rw [hc]
    split
    · exact ⟨by simp, by simp [Config.codeMax]⟩
    · rename_i hne
      exact ⟨hne, by simp only [Config.codeMax]; omega⟩
  · intro e he
    exact (get?_tableOf hds _ _).2 ⟨e, he, rfl, rfl⟩
  · intro p hpm
    obtain ⟨e, he, hek, hec⟩ := (get?_tableOf hds p.1 p.2).1 ((Table.get?_eq_some htw _ _).2 hpm)
    have : ({ sym := BitVec.ofNat 8 p.1, code := p.2 } : IctEntry) = e := by
      rw [← hek, ← hec]; simp
    exact this ▸ he
  · refine keys_eq htw hw fun k => ?_
    constructor
    · intro hk
      obtain ⟨c, hc, rfl⟩ := List.mem_map.1 hk
      obtain ⟨e, he, hek, -⟩ := (get?_tableOf hds c.1 c.2).1 ((Table.get?_eq_some htw _ _).2 hc)
      have := hp.mem_iff.1 (List.mem_map_of_mem (f := IctEntry.sym) he)
      obtain ⟨x, hx, hxe⟩ := List.mem_map.1 this
      have hxb := hw.2 x hx
      have hxn : x.1 = e.sym.toNat := by
        rw [← hxe, BitVec.toNat_ofNat]; exact (Nat.mod_eq_of_lt hxb).symm
      exact List.mem_map.2 ⟨x, hx, by rw [hxn, hek]⟩
    · intro hk
      obtain ⟨x, hx, rfl⟩ := List.mem_map.1 hk
      have := hp.mem_iff.2 (List.mem_map_of_mem (f := fun e : Nat × Word => BitVec.ofNat 8 e.1) hx)
      obtain ⟨e, he, hes⟩ := List.mem_map.1 this
      have hxb := hw.2 x hx
      have hxn : e.sym.toNat = x.1 := by
        rw [hes, BitVec.toNat_ofNat]; exact Nat.mod_eq_of_lt hxb
      have hg := (get?_tableOf hds x.1 e.code).2 ⟨e, he, hxn, rfl⟩
      exact List.mem_map.2 ⟨_, (Table.get?_eq_some htw _ _).1 hg, rfl⟩

/-- A lone leaf has the code "0" (42 R92). -/
theorem lone_code {s : State} (ht : TreeOk s) (hc : CodesOk s) (h1 : s.nsym = 1) :
    ∀ e ∈ s.ict, e.code = [false] := by
  have hv : Machine.visit s.nm s.nm.length s.root [] = some s.ict := hc.2.2.2.2.2.2.2.2
  have hn : s.ft.length = 1 := by rw [← ht.2.1, h1]; rfl
  have hm : s.nm.length = 1 := by have := ht.2.2.1; omega
  have hi (j : Nat) (f : NodeFreq) (l r : NodeIdx) (h : s.nm[j]? = some (.internal f l r)) : False := by
    have h2 := ht.internal_index j f l r h
    have h3 := (List.getElem?_eq_some_iff.1 h).1
    omega
  rw [hm] at hv
  unfold Machine.visit at hv
  split at hv
  · cases hv
  · intro e he
    obtain rfl := Option.some.inj hv ▸ he |> List.mem_singleton.1
    rfl
  · rename_i f l r h; exact absurd h (hi _ f l r)

end Sys2Proof.Machine
end

