-- ==== Sys2Proof/Laws/PerInstr.lean ====
section
/-! SUPPORT. What holds of each command as syntax (30_encoding R60, R62): its word's two fields, and what the decoder and
the well-formedness check say of it. -/

namespace Sys2Proof.Laws.Encoding

/-- The word of a command has ZERO clear, its opcode in OPCODE, passes the check of command words and decodes to the
command. -/
def Statement (i : Instr) : Prop :=
  i.wf = true ∧ zeroField (encode i) = 0#24 ∧ opcodeField (encode i) = opcodeOf i ∧
    commandWordWf (encode i) = true ∧ decode (encode i) = .ok i

theorem clr : Statement .clr := by unfold Statement; decide

theorem buildt : Statement .buildt := by unfold Statement; decide

theorem derive : Statement .derive := by unfold Statement; decide

theorem construct : Statement .construct := by unfold Statement; decide

theorem enc : Statement .enc := by unfold Statement; decide

theorem encs : Statement .encs := by unfold Statement; decide

theorem dec : Statement .dec := by unfold Statement; decide

theorem decs : Statement .decs := by unfold Statement; decide

end Sys2Proof.Laws.Encoding
end

