-- ==== Sys2Proof/Tests/Slice0.lean ====
section
/-! SUPPORT. Tests with expected results from the spec (30_encoding R60 to R63, 95_test_vectors), the smoke test of
WellFormed, and for every obligation with hypotheses a witness that meets them. -/

namespace Sys2Proof.Tests

open Sys2Proof Sys2Proof.Machine

/-! ### WellFormed: an ill-formed term for each check, refused -/

theorem test_zero_field_bit_31_refused : zeroFieldClear 0x80000001#32 = false := by decide

theorem test_zero_field_bit_8_refused : zeroFieldClear 0x00000104#32 = false := by decide

theorem test_opcode_gap_refused : opcodeDefined 0x00000005#32 = false := by decide

theorem test_opcode_zero_refused : opcodeDefined 0x00000000#32 = false := by decide

theorem test_command_word_reserved_bits_refused : commandWordWf 0x0000010A#32 = false := by decide

theorem test_command_word_reserved_opcode_refused : commandWordWf 0x0000000C#32 = false := by decide

theorem test_command_word_accepted : commandWordWf 0x0000000B#32 = true := by decide

theorem test_no_input_buffer_refused : Config.Params.wf { ibCap := 0, obCap := 1 } = false := by decide

theorem test_input_buffer_too_large_refused : Config.Params.wf { ibCap := 65537, obCap := 1 } = false := by decide

theorem test_no_output_buffer_refused : Config.Params.wf { ibCap := 1, obCap := 0 } = false := by decide

theorem test_output_buffer_too_large_refused : Config.Params.wf { ibCap := 1, obCap := 65537 } = false := by decide

theorem test_smallest_and_largest_buffers_accepted :
    Config.Params.wf { ibCap := 1, obCap := 65536 } = true := by decide

theorem test_unsorted_memory_refused : ¬ Memory.wf 4 [(2, 0x41), (1, 0x41)] := by decide

theorem test_memory_beyond_capacity_refused : ¬ Memory.wf 4 [(4, 0x41)] := by decide

theorem test_location_beyond_node_store_refused : Loc.wf Config.Params.standard (.nm 511 0) = false := by decide

theorem test_commands_accepted :
    [Instr.clr, .buildt, .derive, .construct, .enc, .encs, .dec, .decs].all Instr.wf = true := by decide

/-! ### Decode: words written out bit by bit from 30_encoding R60, R62 (ZERO, then OPCODE) -/

theorem test_decode_clr : decode 0b000000000000000000000000_00000001#32 = .ok .clr := by decide

theorem test_decode_buildt : decode 0b000000000000000000000000_00000010#32 = .ok .buildt := by decide

theorem test_decode_derive : decode 0b000000000000000000000000_00000011#32 = .ok .derive := by decide

theorem test_decode_construct : decode 0b000000000000000000000000_00000100#32 = .ok .construct := by decide

theorem test_decode_enc : decode 0b000000000000000000000000_00001000#32 = .ok .enc := by decide

theorem test_decode_encs : decode 0b000000000000000000000000_00001001#32 = .ok .encs := by decide

theorem test_decode_dec : decode 0b000000000000000000000000_00001010#32 = .ok .dec := by decide

theorem test_decode_decs : decode 0b000000000000000000000000_00001011#32 = .ok .decs := by decide

/-- 95 V16 row 1: reserved bits are reported before the undefined opcode. -/
theorem test_decode_reserved_bits_first : decode 0x0000010C#32 = .error .reservedBits := by decide

/-- 95 V15 row 2. -/
theorem test_decode_reserved_opcode : decode 0x000000FF#32 = .error .reservedOpcode := by decide

theorem test_table_word : decodeTableWord 32 0x04 = some .construct ∧ decodeTableWord 8 0x04 = some .construct := by
  decide

theorem test_table_word_rejects : decodeTableWord 32 0x104 = none ∧ decodeTableWord 64 0x04 = none := by decide

/-- 30_encoding R62: CLR is 0x00000001. -/
theorem test_encode_construct : encode .construct = 0x00000004#32 ∧ encode .clr = 0x00000001#32 := by decide

/-! ### Small states -/

/-- A bit string from its digits. -/
def bits (ds : List Nat) : BitString := ds.map (fun d => d == 1)

/-- Phase EMPTY with a frequency table. -/
def tabled (ft : Table Word) : State := { State.reset with ft := ft }

/-- A state in phase READY with the codes given, in the order of ICT. -/
def codec (es : List IctEntry) : State := { State.reset with ct := tableOf es, ict := es, phase := .ready }

/-- `LDIN` on a state that has not used IB. -/
def withInput (s : State) (bs : List Byte) : State :=
  { s with ib := bs.zipIdx.map (fun p => (p.2, p.1)), inLen := BitVec.ofNat 32 bs.length }

/-- What a command left that answers a next state. -/
def after (i : Instr) (s : State) : State := (nextState (exec i s)).getD State.reset

/-- Codec K1 of 95 Part 2. -/
def k1 : State := codec [⟨0x41, bits [0]⟩]

/-- Codec K2 of 95 Part 2 ("Huffman"). -/
def k2 : State :=
  codec [⟨0x75, bits [0, 0]⟩, ⟨0x6D, bits [0, 1, 0]⟩, ⟨0x6E, bits [0, 1, 1]⟩, ⟨0x48, bits [1, 0, 0]⟩,
    ⟨0x61, bits [1, 0, 1]⟩, ⟨0x66, bits [1, 1]⟩]

/-- The inverse table of codec K4 of 95 Part 2. -/
def k4Codes : List IctEntry := [⟨0x41, bits [0, 0]⟩, ⟨0x42, bits [0, 1]⟩, ⟨0x43, bits [1]⟩]

/-- Codec K4 of 95 Part 2. -/
def k4 : State := codec k4Codes

/-- The node store of K4 (95 Part 2). -/
def k4Nodes : List Node :=
  [.leaf 0x41 1, .leaf 0x42 1, .leaf 0x43 2, .internal 2 0 1, .internal 4 3 2]

/-! ### One step of each command -/

/-- 95 V17 row 3: STATUS 0x22, IN_LEN kept, the tables gone. -/
theorem test_clr_keeps_herr_and_in_len :
    let t := after .clr { withInput k1 [0x41, 0x41] with herrFlag := true }
    t.statusWord = 0x22 ∧ t.inLen = 2 ∧ t.readLoc (.ct 0x41 0) = 0 ∧ t.readLoc (.ib 1) = 0x41 := by decide

/-- 95 V17 row 5: a CLR clears the fault record. -/
theorem test_clr_after_a_fault :
    let t := after .clr (State.reset.afterFault 0x0101 7)
    t.statusWord = 0x02 ∧ t.errReg = 0 ∧ t.errPos = 0 := by decide

/-- 95 V3 row 1: K4's node store and queue, the parent before the leaf of equal frequency. -/
theorem test_buildt_k4 :
    let t := after .buildt (tabled [(0x41, 1), (0x42, 1), (0x43, 2)])
    t.statusWord = 0x0A ∧ t.nm = k4Nodes ∧ t.root = 4 ∧ t.nsym = 3 ∧ t.ct = [] := by decide

/-- 95 V11 row 4: the smallest offending symbol. -/
theorem test_buildt_nonpositive :
    let t := after .buildt (tabled [(0x10, 0xFFFFFFFF), (0x41, 0x80000000), (0x42, 7)])
    t.statusWord = 0x06 ∧ t.errReg = 0x0201 ∧ t.errPos = 0x10 ∧ t.nm = [] := by decide

/-- 95 V3 row 2: K4's codes and their word images. -/
theorem test_derive_k4 :
    let t := after .derive { tabled [] with nm := k4Nodes, root := 4, phase := .tree }
    t.ict = k4Codes ∧ t.readLoc (.ct 0x42 0) = 0x80000002 ∧ t.readLoc (.ct 0x42 1) = 0x40000000 := by decide

/-- 95 V11 row 7, V15 row 8: no root. -/
theorem test_derive_without_tree :
    let t := after .derive State.reset
    t.statusWord = 0x06 ∧ t.errReg = 0x0301 ∧ t.errPos = 0 := by decide

/-- 95 V5: the tie-break decides the code lengths of K6. -/
theorem test_construct_k6 :
    let t := after .construct (tabled [(0x41, 2), (0x42, 2), (0x43, 4), (0x44, 4)])
    t.statusWord = 0x12 ∧
      t.ict = [⟨0x44, bits [0]⟩, ⟨0x41, bits [1, 0, 0]⟩, ⟨0x42, bits [1, 0, 1]⟩, ⟨0x43, bits [1, 1]⟩] := by decide

/-- 95 V10 row 2: the sum passes 2^32 and is held exactly. -/
theorem test_construct_large_frequencies :
    let t := after .construct (tabled [(0, 0x7FFFFFFF), (1, 0x7FFFFFFF), (2, 0x7FFFFFFF)])
    t.readLoc (.nm 4 1) = 0x7FFFFFFD ∧ t.readLoc (.nm 4 2) = 1 ∧ t.readLoc (.nm 4 3) = 0x00030002 := by decide

/-- 95 V2 row 2: "Huffman". -/
theorem test_enc_huffman :
    let t := after .enc (withInput k2 [0x48, 0x75, 0x66, 0x66, 0x6D, 0x61, 0x6E])
    t.ob = [0x87, 0xAA, 0xC0] ∧ t.outLen = 3 ∧ t.outBits = 18 ∧ t.statusWord = 0x12 := by decide

/-- 95 V12 row 1: an unknown symbol. -/
theorem test_enc_unknown_symbol :
    let t := after .enc (withInput k1 [0x41, 0x41, 0x42, 0x41])
    t.statusWord = 0x16 ∧ t.errReg = 0x0002 ∧ t.errPos = 2 ∧ t.outLen = 0 := by decide

/-- 95 V3 row 4 in the bit-string form (V9 row 1 read backwards). -/
theorem test_encs_cabac :
    let t := after .encs (withInput k4 [0x43, 0x41, 0x42, 0x41, 0x43])
    t.ob = [0x31, 0x30, 0x30, 0x30, 0x31, 0x30, 0x30, 0x31] ∧ t.outLen = 8 ∧ t.outBits = 8 := by decide

/-- 95 V15 row 9: ENCS in phase EMPTY. -/
theorem test_encs_wrong_phase :
    let t := after .encs State.reset
    t.statusWord = 0x06 ∧ t.errReg = 0x0305 ∧ t.errPos = 9 := by decide

/-- 95 V2 row 6: the padding is not read. -/
theorem test_dec_huffman :
    let t := after .dec { withInput k2 [0x87, 0xAA, 0xFF] with inBits := 18 }
    t.ob = [0x48, 0x75, 0x66, 0x66, 0x6D, 0x61, 0x6E] ∧ t.outLen = 7 ∧ t.outBits = 0 := by decide

/-- 95 V8, IN_BITS 17: the candidate began at bit 15. -/
theorem test_dec_midcode :
    let t := after .dec { withInput k2 [0x87, 0xAA, 0xC0] with inBits := 17 }
    t.statusWord = 0x16 ∧ t.errReg = 0x0103 ∧ t.errPos = 15 ∧ t.outLen = 0 := by decide

/-- 95 V9 row 1. -/
theorem test_decs_cabac :
    let t := after .decs (withInput k4 [0x31, 0x30, 0x30, 0x30, 0x31, 0x30, 0x30, 0x31])
    t.ob = [0x43, 0x41, 0x42, 0x41, 0x43] ∧ t.outLen = 5 ∧ t.outBits = 0 := by decide

/-- 95 V9 row 4: characters are checked before matching. -/
theorem test_decs_bad_character :
    let t := after .decs (withInput k4 [0x30, 0x78, 0x31, 0x30])
    t.errReg = 0x0303 ∧ t.errPos = 1 := by decide

/-! ### One step of the host's side -/

/-- The state after one line of a host with an idle engine. -/
def afterLine (l : Line) (s : State) : State := (nextState (step { s with script := [l] })).getD State.reset

/-- 95 V15 row 3: an illegal word, and the STATUS word that ends its wait. -/
theorem test_illegal_word :
    let t := afterLine (.cmd 0x104) State.reset
    t.statusWord = 0x06 ∧ t.errReg = 0x0205 ∧ t.errPos = 0x104 ∧ t.rdata = some 0x06 := by decide

/-- 95 P4 cp 3 to 5: the bare write of an illegal word, and the read of ERR after it. -/
theorem test_bare_illegal_word :
    let t := afterLine (.wr 0x00000 0x104) State.reset
    t.statusWord = 0x06 ∧ (afterLine (.rd 0x00002) t).rdata = some 0x0205 := by decide

/-- 95 P4 cp 6: a command's line ends with the read of STATUS. -/
theorem test_command_line_reads_status : (afterLine (.cmd 0x003) State.reset).rdata = some 0x06 := by decide

/-- 20_memory R44: setting a frequency, by the word address of `FT['A']`. -/
theorem test_write_frequency : (afterLine (.wr 0x10082 5) State.reset).ft = [(0x41, 5)] := by decide

/-- 20_memory R51: FT takes no write in phase READY, and HERR rises. -/
theorem test_write_frequency_when_ready :
    (afterLine (.wr 0x10082 5) k1).ft = [] ∧ (afterLine (.wr 0x10082 5) k1).statusWord = 0x30 := by decide

/-- 20_memory R43, R52: offset 12 of REG is reserved. -/
theorem test_read_reserved : (afterLine (.rd 0x0000C) k1).rdata = some 0 := by decide

/-- 95 K2: `CT['a']` word 1, the address by 20_memory R47. -/
theorem test_read_code : (afterLine (.rd 0x40611) k2).rdata = some 0xA0000000 := by decide

/-- 95 K2: `ICT[3]` word 0. -/
theorem test_read_inverse_entry : (afterLine (.rd 0x50030) k2).rdata = some 0x80480003 := by decide

/-! ### Witnesses: states of the codec K3 (95 Part 2) -/

/-- K3's table, phase EMPTY. -/
def tabledK3 : State := tabled [(0x41, 1), (0x42, 1)]

/-- K3 built, phase TREE. -/
def treeK3 : State :=
  { tabledK3 with
    nm := [.leaf 0x41 1, .leaf 0x42 1, .internal 2 0 1], pq := [2], root := 2, nsym := 2, phase := .tree }

/-- K3's codec, phase READY. -/
def readyK3 : State :=
  { treeK3 with
    ct := [(0x41, [false]), (0x42, [true])], ict := [⟨0x41, [false]⟩, ⟨0x42, [true]⟩], phase := .ready }

theorem tabledK3_inv : tabledK3.Inv :=
  ⟨by decide, by decide, by decide, ⟨by decide, fun h => absurd h (by decide), fun h => absurd h (by decide)⟩, by decide⟩

theorem k3_tree : TreeOk treeK3 :=
  ⟨by decide, by decide, by decide, by decide, by decide, by decide, by decide, by decide, by decide,
    [0x41, 0x42], rfl, by decide⟩

theorem treeK3_inv : treeK3.Inv :=
  ⟨by decide, by decide, by decide, ⟨fun h => absurd h (by decide), fun _ => ⟨k3_tree, by decide⟩, fun h => absurd h (by decide)⟩, by decide⟩

theorem readyK3_inv : readyK3.Inv :=
  ⟨by decide, by decide, by decide, ⟨fun h => absurd h (by decide), fun h => absurd h (by decide), fun _ => ⟨k3_tree, by decide⟩⟩, by decide⟩

/-- The input side takes no part in the invariant but for IB's canonical form. -/
theorem input_inv {s : State} (h : s.Inv) {m : Memory} (hm : Memory.wf s.cfg.ibCap m) (n k : Word) :
    State.Inv { s with ib := m, inLen := n, inBits := k } :=
  ⟨h.1, h.2.1, ⟨h.2.2.1.1, h.2.2.1.2.1, hm⟩, h.2.2.2.1, h.2.2.2.2⟩

/-- The host's script takes no part in the invariant. -/
theorem script_inv {s : State} (h : s.Inv) (ls : List Line) : State.Inv { s with script := ls } := h

/-- K3's codec with "AB" in IB. -/
def readyAB : State := withInput readyK3 [0x41, 0x42]

theorem readyAB_inv : readyAB.Inv := input_inv readyK3_inv (by decide) _ _

/-- K3's codec with the payload bits 011 in IB. -/
def readyBits : State := { withInput readyK3 [0x60] with inBits := 3 }

theorem readyBits_inv : readyBits.Inv := input_inv readyK3_inv (by decide) _ _

/-- K3's codec with the characters "01" in IB. -/
def readyChars : State := withInput readyK3 [0x30, 0x31]

theorem readyChars_inv : readyChars.Inv := input_inv readyK3_inv (by decide) _ _

/-- A busy block that meets the invariant. -/
def busyK3 : State := readyK3.accept (encode .enc)

theorem busyK3_inv : busyK3.Inv :=
  ⟨by decide, by decide, by decide, ⟨fun h => absurd h (by decide), fun h => absurd h (by decide), fun _ => ⟨k3_tree, by decide⟩⟩, by decide⟩

/-! ### Witnesses of the obligations -/

theorem witness_IllegalWordFaultsAndChangesNothingElse :
    ∀ w ∈ [0x00000100#32, 0x80000001#32, 0xFFFFFFFF#32, 0x00000000#32, 0x00000005#32, 0x0000000C#32, 0x000000FF#32],
      ∀ l ∈ [Line.cmd w, .wr (addrAt 0 0) w],
        ∃ (s : State) (err : Word), s.engine = none ∧ s.script = l :: [] ∧
          ((w.extractLsb' 8 24 ≠ 0#24 ∧ err = 0x0205) ∨
            (w.extractLsb' 8 24 = 0#24 ∧
              w.extractLsb' 0 8 ∉ [0x01#8, 0x02#8, 0x03#8, 0x04#8, 0x08#8, 0x09#8, 0x0A#8, 0x0B#8] ∧ err = 0x0105)) := by
  intro w hw l _
  refine ⟨{ readyK3 with script := [l] }, if w.extractLsb' 8 24 = 0#24 then 0x0105 else 0x0205, rfl, rfl, ?_⟩
  fin_cases hw <;> decide

theorem witness_StepRunsTheDecodedCommand :
    ∃ (s : State) (w : Word) (i : Instr) (rest : List Line),
      s.engine = none ∧ s.script = .cmd w :: rest ∧ decode w = .ok i :=
  ⟨{ readyK3 with script := [.cmd 8] }, 8, .enc, [], by decide⟩

theorem witness_EngineStaysIdleUntilCmdIsWritten :
    (∃ s : State, s.engine = none ∧ s.script = []) ∧
    ∃ s t : State, s.engine = none ∧ step s = .next t ∧ t.busy = true :=
  ⟨⟨readyK3, by decide⟩, { readyK3 with script := [.wr 0 8] }, _, rfl, rfl, rfl⟩

theorem witness_WriteThenWaitIsTheCommandLine :
    readyK3.engine = none ∧ decode 8 = .ok .enc ∧
      ∃ u, step (readyK3.presentWord 8) = .next u := ⟨rfl, by decide, _, rfl⟩

theorem witness_UnpolledWriteIsDroppedUnlessCompleted :
    ∃ (s : State) (w : Word) (a : Addr) (v : Word) (rest : List Line),
      s.engine = some w ∧ s.script = .wr a v :: rest :=
  ⟨{ busyK3 with script := [.wr 1 0x20] }, 8, 1, 0x20, [], by decide⟩

theorem witness_BusyReadReturnsStatusOrAnyWord :
    busyK3.Inv ∧ busyK3.busy = true ∧ locate busyK3.cfg 1 = .status ∧ locate busyK3.cfg 0x70000 ≠ .status :=
  ⟨busyK3_inv, by decide⟩

theorem witness_ResetLineClearsTheBlock :
    ∃ (s : State) (rest : List Line), s.script = .reset :: rest ∧ s.busy = true :=
  ⟨{ busyK3 with script := [.reset] }, [], by decide⟩

theorem witness_IllegalTableIsRejected :
    (State.reset.phase = .empty ∧ Table.wf Config.alphabet State.reset.ft ∧ ∀ k, State.reset.ftPresent k = false) ∧
    ∀ k ∈ [0, 255], ∃ s : State, s.phase = .empty ∧ Table.wf Config.alphabet s.ft ∧
      s.ftPresent k = true ∧ sint32 (s.ftFreq k) ≤ 0 ∧ ∀ j < k, s.ftPresent j = true → 0 < sint32 (s.ftFreq j) := by
  refine ⟨⟨rfl, by decide, fun _ => rfl⟩, ?_⟩
  intro k hk
  fin_cases hk
  · exact ⟨tabled [(0, 0x80000000)], rfl, by decide, by decide, by decide, by decide⟩
  · refine ⟨tabled [(7, 1), (255, 0)], rfl, by decide, by decide, by decide, ?_⟩
    intro j hj hp
    by_cases h7 : j = 7
    · subst h7; decide
    · have hn : j ≠ 255 := by omega
      simp [State.ftPresent, tabled, Table.get?, Ne.symm h7, Ne.symm hn] at hp

/-- The clause of a legal table. -/
theorem witness_IllegalTableIsRejected_legal :
    (∃ k, tabledK3.ftPresent k = true) ∧ (∀ k, tabledK3.ftPresent k = true → 0 < sint32 (tabledK3.ftFreq k)) ∧
      ∃ t, exec .buildt tabledK3 = .next t := by
  refine ⟨⟨0x41, rfl⟩, ?_, _, rfl⟩
  intro k hp
  by_cases h1 : k = 0x41
  · subst h1; decide
  · by_cases h2 : k = 0x42
    · subst h2; decide
    · simp [State.ftPresent, tabledK3, tabled, Table.get?, Ne.symm h1, Ne.symm h2] at hp

theorem witness_BuildtRunsTheMergeLoop : tabledK3.phase = .empty ∧ LegalTable tabledK3.ft := by decide

theorem witness_LeavesStandInOrderOfFrequencyThenSymbol :
    Table.wf Config.alphabet [(0, (2 : Word)), (3, 1), (255, 0xFFFFFFFF)] := by decide

theorem witness_TableWritesOfTwoSymbolsCommute :
    ∃ (s : State) (j k : Nat), Table.wf Config.alphabet s.ft ∧ j < Config.alphabet ∧ k < Config.alphabet ∧ j ≠ k ∧
      s.phase = .empty :=
  ⟨tabledK3, 0, 255, by decide⟩

theorem witness_ParentGoesBeforeFirstNotSmaller :
    ∃ (w : Forest) (a b : NodeIdx) (rest : List NodeIdx), w.pq = a :: b :: rest ∧ rest ≠ [] ∧ QueueValid w ∧
      QueueSorted w :=
  ⟨{ nm := [.leaf 0x41 1, .leaf 0x42 1, .leaf 0x43 2], pq := [0, 1, 2] }, 0, 1, [2], by decide⟩

theorem witness_MergeStepKeepsTheQueueSorted :
    ∃ w : Forest, QueueValid w ∧ QueueSorted w ∧ 2 < w.pq.length :=
  ⟨{ nm := [.leaf 0x41 1, .leaf 0x42 1, .leaf 0x43 2], pq := [0, 1, 2] }, by decide⟩

theorem witness_MergeLoopMakesNMinusOnePasses : ∃ w : Forest, w.pq ≠ [] ∧ 2 < w.pq.length :=
  ⟨{ nm := [.leaf 0x41 1, .leaf 0x42 1, .leaf 0x43 2], pq := [0, 1, 2] }, by decide⟩

theorem witness_BuildtMakesTheTreeOfTheTable :
    tabledK3.phase = .empty ∧ Table.wf Config.alphabet tabledK3.ft ∧ LegalTable tabledK3.ft := by decide

theorem witness_TreeCountersAndTotalFrequency :
    ∃ s : State, s.phase = .empty ∧ Table.wf Config.alphabet s.ft ∧ LegalTable s.ft ∧ s.ft.length = 1 :=
  ⟨tabled [(255, 0x7FFFFFFF)], by decide⟩

theorem witness_DeriveGivesEachLeafItsPath : treeK3.Inv ∧ treeK3.phase = .tree := ⟨treeK3_inv, rfl⟩

theorem witness_ConstructIsBuildtThenDerive :
    (∃ s t : State, s.phase = .empty ∧ exec .buildt s = .next t ∧ t.errFlag = true) ∧
    (∃ s t : State, s.phase = .empty ∧ exec .buildt s = .next t ∧ t.errFlag = false) ∧
    ∃ s : State, s.phase ≠ .empty :=
  ⟨⟨State.reset, _, rfl, rfl, rfl⟩, ⟨tabledK3, _, rfl, rfl, rfl⟩, treeK3, by decide⟩

theorem witness_ConstructMakesACodec : tabledK3.Inv ∧ tabledK3.phase = .empty ∧ LegalTable tabledK3.ft :=
  ⟨tabledK3_inv, by decide⟩

theorem witness_EncPacksTheConcatenatedCodes :
    readyAB.phase = .ready ∧ readyAB.inLen.toNat ≤ readyAB.cfg.ibCap ∧
      (∀ k < readyAB.inLen.toNat, ctValid readyAB.ct (readyAB.ibByte k) = true) ∧
      ((readyAB.input.flatMap (ctCode readyAB.ct)).length + 7) / 8 ≤ readyAB.cfg.obCap := by decide

theorem witness_EncsWritesOneCharacterPerBit :
    readyAB.phase = .ready ∧ readyAB.inLen.toNat ≤ readyAB.cfg.ibCap ∧
      (∀ k < readyAB.inLen.toNat, ctValid readyAB.ct (readyAB.ibByte k) = true) ∧
      (readyAB.input.flatMap (ctCode readyAB.ct)).length ≤ readyAB.cfg.obCap := by decide

/-- One state for each clause: an input too long, an unknown symbol at the last place, an output that does not fit. -/
theorem witness_EncoderFaultsInFixedOrder :
    (∃ s : State, s.phase = .ready ∧ s.cfg.ibCap < s.inLen.toNat) ∧
    (∃ s : State, s.phase = .ready ∧ s.inLen.toNat ≤ s.cfg.ibCap ∧ ∃ k < s.inLen.toNat,
      ctValid s.ct (s.ibByte k) = false ∧ ∀ j < k, ctValid s.ct (s.ibByte j) = true) ∧
    ∃ s : State, s.phase = .ready ∧ s.inLen.toNat ≤ s.cfg.ibCap ∧
      (∀ k < s.inLen.toNat, ctValid s.ct (s.ibByte k) = true) ∧
      s.cfg.obCap < ((s.input.flatMap (ctCode s.ct)).length + 7) / 8 :=
  ⟨⟨{ readyK3 with inLen := 65537 }, by decide⟩,
    ⟨withInput readyK3 [0x41, 0x5A], rfl, by decide, 1, by decide⟩,
    { withInput readyK3 [0x41, 0x41, 0x41, 0x41, 0x41, 0x41, 0x41, 0x41, 0x42] with cfg := ⟨9, 1⟩ }, by decide⟩

theorem witness_DecoderTakesTheFirstBits : 0 < readyBits.inBits.toNat := by decide

theorem witness_MatchingDeliversExactlyCodeSequences :
    (∀ e ∈ k4Codes, e.code ≠ []) ∧ k4Codes.Pairwise (fun x y => PrefixApart x.code y.code) ∧
      matchBits k4Codes (bits [1, 0, 0, 0, 1]) = .ok [0x43, 0x41, 0x42] := ⟨by decide, by decide, rfl⟩

theorem witness_MatchingFailsAtTheUnmatchedCandidate :
    (∀ e ∈ k4Codes, e.code ≠ []) ∧ k4Codes.Pairwise (fun x y => PrefixApart x.code y.code) ∧
      matchBits k4Codes (bits [0, 0, 1, 0]) = .error 3 := ⟨by decide, by decide, rfl⟩

theorem witness_DecDeliversTheSymbolsOfTheirCodes :
    ∃ (s : State) (out : List Symbol), s.Inv ∧ s.phase = .ready ∧ s.inLen.toNat ≤ s.cfg.ibCap ∧
      s.inBits.toNat ≤ 8 * s.inLen.toNat ∧ (∀ x ∈ out, ctValid s.ct x = true) ∧
      s.payloadBits = out.flatMap (ctCode s.ct) ∧ out.length ≤ s.cfg.obCap :=
  ⟨readyBits, [0x41, 0x42, 0x42], readyBits_inv, by decide⟩

theorem witness_DecsDeliversTheSymbolsOfTheirCodes :
    ∃ (s : State) (out : List Symbol), s.Inv ∧ s.phase = .ready ∧ s.inLen.toNat ≤ s.cfg.ibCap ∧
      (∀ x ∈ out, ctValid s.ct x = true) ∧
      s.input = (out.flatMap (ctCode s.ct)).map (fun b => if b then 0x31#8 else 0x30#8) ∧ out.length ≤ s.cfg.obCap :=
  ⟨readyChars, [0x41, 0x42], readyChars_inv, by decide⟩

/-- Both clauses at the boundary: IN_BITS equal to 8 * IN_LEN and one more. -/
theorem witness_ShortStreamIffBitCountExceedsBytes :
    (∃ s : State, s.phase = .ready ∧ s.inLen.toNat ≤ s.cfg.ibCap ∧ 8 * s.inLen.toNat < s.inBits.toNat) ∧
    ∃ s t : State, s.phase = .ready ∧ s.inLen.toNat ≤ s.cfg.ibCap ∧ s.inBits.toNat ≤ 8 * s.inLen.toNat ∧
      exec .dec s = .next t :=
  ⟨⟨{ readyBits with inBits := 9 }, by decide⟩, { readyBits with inBits := 8 }, _, rfl, by decide, by decide, rfl⟩

theorem witness_BadCharacterIsReportedFirst :
    ∃ (s : State) (k : Nat), s.phase = .ready ∧ s.inLen.toNat ≤ s.cfg.ibCap ∧ k < s.inLen.toNat ∧
      s.ibByte k ≠ 0x30 ∧ s.ibByte k ≠ 0x31 ∧ ∀ j < k, s.ibByte j = 0x30 ∨ s.ibByte j = 0x31 :=
  ⟨withInput readyK3 [0x30, 0x31, 0x32], 2, by decide⟩

/-- K4's codec in phase READY with its tree, and the payload bits 0010 in IB: "AC" and the cut code of B. -/
def readyK4Cut : State :=
  { withInput k4 [0x20] with
    ft := [(0x41, 1), (0x42, 1), (0x43, 2)], nm := k4Nodes, pq := [4], root := 4, nsym := 3, inBits := 4 }

theorem readyK4Cut_inv : readyK4Cut.Inv :=
  ⟨by decide, by decide, by decide,
    ⟨fun h => absurd h (by decide), fun h => absurd h (by decide), fun _ =>
      ⟨⟨by decide, by decide, by decide, by decide, by decide, by decide, by decide, by decide, by decide,
        [0x41, 0x42, 0x43], rfl, by decide⟩, by decide⟩⟩, by decide⟩

/-- K4's codec with the characters "0010" in IB (95 V9 row 3). -/
def readyK4Chars : State := withInput readyK4Cut [0x30, 0x30, 0x31, 0x30]

theorem readyK4Chars_inv : readyK4Chars.Inv := input_inv readyK4Cut_inv (by decide) _ _

/-- K1's codec in phase READY with its tree, and the payload bits 01000 in IB (95 V13 row 2). -/
def readyK1Bits : State :=
  { withInput k1 [0x40] with ft := [(0x41, 5)], nm := [.leaf 0x41 5], pq := [0], root := 0, nsym := 1, inBits := 5 }

theorem readyK1Bits_inv : readyK1Bits.Inv :=
  ⟨by decide, by decide, by decide,
    ⟨fun h => absurd h (by decide), fun h => absurd h (by decide), fun _ =>
      ⟨⟨by decide, by decide, by decide, by decide, by decide, by decide, by decide, by decide, by decide,
        [0x41], rfl, by decide⟩, by decide⟩⟩, by decide⟩

/-- K1's codec with the characters "00100" in IB (95 V13 row 3). -/
def readyK1Chars : State := withInput readyK1Bits [0x30, 0x30, 0x31, 0x30, 0x30]

theorem readyK1Chars_inv : readyK1Chars.Inv := input_inv readyK1Bits_inv (by decide) _ _

/-- A cut code and a lone-leaf codec's 1, each for DEC and for DECS. -/
theorem witness_UnmatchedCandidateAtTheEndFaults :
    (readyK4Cut.Inv ∧ readyK4Cut.phase = .ready ∧ readyK4Cut.inLen.toNat ≤ readyK4Cut.cfg.ibCap ∧
      ctValid readyK4Cut.ct 0x42 = true ∧ [false] <+: ctCode readyK4Cut.ct 0x42 ∧
      [false] ≠ ctCode readyK4Cut.ct 0x42 ∧ (∀ e ∈ readyK4Cut.ict, ¬ e.code <+: [false]) ∧
      readyK4Cut.payloadBits = [0x41, 0x43].flatMap (ctCode readyK4Cut.ct) ++ [false]) ∧
    (readyK4Chars.Inv ∧ readyK4Chars.phase = .ready ∧ (∀ e ∈ readyK4Chars.ict, ¬ e.code <+: [false]) ∧
      readyK4Chars.input = ([0x41, 0x43].flatMap (ctCode readyK4Chars.ct) ++ [false]).map
        (fun b => if b then 0x31#8 else 0x30#8)) ∧
    (readyK1Bits.Inv ∧ readyK1Bits.phase = .ready ∧ readyK1Bits.nsym = 1 ∧
      readyK1Bits.inBits.toNat ≤ 8 * readyK1Bits.inLen.toNat ∧
      readyK1Bits.payloadBits = [0x41].flatMap (ctCode readyK1Bits.ct) ++ [true, false, false, false]) ∧
    (readyK1Chars.Inv ∧ readyK1Chars.phase = .ready ∧ readyK1Chars.nsym = 1 ∧
      readyK1Chars.input = ([0x41, 0x41].flatMap (ctCode readyK1Chars.ct) ++ [true, false, false]).map
        (fun b => if b then 0x31#8 else 0x30#8)) :=
  ⟨⟨readyK4Cut_inv, by decide⟩, ⟨readyK4Chars_inv, by decide⟩, ⟨readyK1Bits_inv, by decide⟩, readyK1Chars_inv, by decide⟩

theorem witness_DecoderCapacityFaults :
    (∃ s : State, s.phase = .ready ∧ s.cfg.ibCap < s.inLen.toNat) ∧
    (∃ (s : State) (out : List Symbol), s.phase = .ready ∧ s.inLen.toNat ≤ s.cfg.ibCap ∧ s.cfg.obCap < out.length ∧
      s.inBits.toNat ≤ 8 * s.inLen.toNat ∧ matchBits s.ict s.payloadBits = .ok out) ∧
    ∃ (s : State) (out : List Symbol), s.phase = .ready ∧ s.inLen.toNat ≤ s.cfg.ibCap ∧ s.cfg.obCap < out.length ∧
      (∀ k < s.inLen.toNat, s.ibByte k = 0x30 ∨ s.ibByte k = 0x31) ∧
      matchBits s.ict (s.input.map (fun c => c == 0x31#8)) = .ok out :=
  ⟨⟨{ readyK3 with inLen := 65537 }, by decide⟩,
    ⟨{ readyBits with cfg := ⟨1, 2⟩ }, [0x41, 0x42, 0x42], rfl, by decide, by decide, by decide, rfl⟩,
    { readyChars with cfg := ⟨2, 1⟩ }, [0x41, 0x42], rfl, by decide, by decide, by decide, rfl⟩

theorem witness_DecDoesNotReadPaddingOrSurplusBytes :
    ∃ (s t : State) (m : Memory), m ≠ s.ib ∧
      (∀ q < s.inBits.toNat,
        (State.ibByte { s with ib := m } (q / 8)).getLsbD (7 - q % 8) = (s.ibByte (q / 8)).getLsbD (7 - q % 8)) ∧
      exec .dec s = .next t :=
  ⟨readyBits, _, [(0, 0x7F)], by decide, by decide, rfl⟩

/-- What ENC left of "AB", copied to the input of a block with the same tables. -/
theorem witness_DecodingThePackedPayloadRestoresTheSymbols :
    ∃ s t u : State, s.Inv ∧ s.phase = .ready ∧ s.inLen.toNat ≤ s.cfg.ibCap ∧ exec .enc s = .next t ∧
      t.errFlag = false ∧ u.Inv ∧ u.phase = .ready ∧ u.ict = s.ict ∧ u.ct = s.ct ∧ u.inLen = t.outLen ∧
      u.inBits = t.outBits ∧ (∀ k < t.outLen.toNat, u.ibByte k = t.obByte k) ∧ u.inLen.toNat ≤ u.cfg.ibCap ∧
      s.inLen.toNat ≤ u.cfg.obCap :=
  ⟨readyAB, _, { withInput readyK3 [0x40] with inBits := 2 }, readyAB_inv, rfl, by decide, rfl, rfl,
    input_inv readyK3_inv (by decide) _ _, rfl, rfl, rfl, rfl, rfl, by decide, by decide, by decide⟩

theorem witness_DecodingTheBitStringRestoresTheSymbols :
    ∃ s t u : State, s.Inv ∧ s.phase = .ready ∧ s.inLen.toNat ≤ s.cfg.ibCap ∧ exec .encs s = .next t ∧
      t.errFlag = false ∧ u.Inv ∧ u.phase = .ready ∧ u.ict = s.ict ∧ u.ct = s.ct ∧ u.inLen = t.outLen ∧
      (∀ k < t.outLen.toNat, u.ibByte k = t.obByte k) ∧ u.inLen.toNat ≤ u.cfg.ibCap ∧
      s.inLen.toNat ≤ u.cfg.obCap :=
  ⟨readyAB, _, readyChars, readyAB_inv, rfl, by decide, rfl, rfl, readyChars_inv, rfl, rfl, rfl, rfl, by decide,
    by decide, by decide⟩

/-- One completion of each kind: a success and a fault. -/
theorem witness_EveryCommandEndsInOneCompletion :
    (∃ t, exec .enc readyAB = .next t ∧ t.errFlag = false) ∧ ∃ t, exec .enc State.reset = .next t ∧ t.errFlag = true :=
  ⟨⟨_, rfl, rfl⟩, _, rfl, rfl⟩

/-- A fault of a codec command, of another command and of an illegal word. -/
theorem witness_FaultLeavesOnlyItsRecord :
    (∃ t, runWord 0x08 State.reset = .next t ∧ t.errFlag = true) ∧
    (∃ t, runWord 0x02 State.reset = .next t ∧ t.errFlag = true) ∧
    ∃ t, runWord 0x108 readyAB = .next t ∧ t.errFlag = true :=
  ⟨⟨_, rfl, rfl⟩, ⟨_, rfl, rfl⟩, _, rfl, rfl⟩

/-- States of the three phases: each clause has its phase in one of them. -/
theorem witness_PhaseTableDecidesLegality :
    State.reset.phase = .empty ∧ treeK3.phase = .tree ∧ readyK3.phase = .ready ∧
      (∃ t, exec .clr readyK3 = .next t) ∧ (∃ t, exec .buildt tabledK3 = .next t) ∧
      (∃ t, exec .derive treeK3 = .next t) ∧ ∃ t, exec .decs readyChars = .next t :=
  ⟨rfl, rfl, rfl, ⟨_, rfl⟩, ⟨_, rfl⟩, ⟨_, rfl⟩, _, rfl⟩

theorem witness_OnlyClrMovesThePhaseBack :
    (∃ t, exec .clr readyK3 = .next t ∧ t.phase ≠ readyK3.phase) ∧
    (∃ t, exec .derive treeK3 = .next t ∧ t.phase ≠ treeK3.phase) ∧
    ∃ t, exec .derive readyK3 = .next t ∧ t.errFlag = true :=
  ⟨⟨_, rfl, by decide⟩, ⟨_, rfl, by decide⟩, _, rfl, rfl⟩

theorem witness_CodecCommandsChangeOnlyTheirOutputs :
    (∃ t, exec .enc readyAB = .next t) ∧ (∃ t, exec .encs readyAB = .next t) ∧ (∃ t, exec .dec readyBits = .next t) ∧
      ∃ t, exec .decs readyChars = .next t := ⟨⟨_, rfl⟩, ⟨_, rfl⟩, ⟨_, rfl⟩, _, rfl⟩

theorem witness_CommandsLeaveOtherLocationsAlone :
    (∃ t, exec .enc readyAB = .next t) ∧ Loc.writtenBy .enc (.ib 0) = false ∧ Loc.writtenBy .enc (.ct 0x41 1) = false :=
  ⟨⟨_, rfl⟩, by decide⟩

theorem witness_ReadsHaveNoSideEffect :
    (∃ (s : State) (a : Addr) (rest : List Line), s.engine = none ∧ s.script = .rd a :: rest) ∧
    ∃ (s : State) (rest : List Line), s.engine = none ∧ s.script = .wait :: rest :=
  ⟨⟨{ readyK3 with script := [.rd 0x70000] }, 0x70000, [], by decide⟩, { readyK3 with script := [.wait] }, [], by decide⟩

/-- K3's codec after ENC of "AB": one live OB entry, one live queue position. -/
def readyOut : State := { readyAB with ob := [0x40], outLen := 1, outBits := 2 }

theorem witness_RegistersQueueAndBuffersRead :
    readyOut.Inv ∧ readyOut.nm.length ≤ Config.nodeCap ∧ readyOut.pq.length ≤ Config.alphabet ∧
      readyOut.pq[0]? = some 2 ∧ readyOut.pq.length ≤ 1 ∧ (255 : Nat) < Config.alphabet ∧
      0 < readyOut.outLen.toNat ∧ readyOut.ob[0]? = some 0x40 ∧ 65535 < readyOut.cfg.obCap ∧
      65535 < readyOut.cfg.ibCap :=
  ⟨⟨by decide, by decide, by decide,
    ⟨fun h => absurd h (by decide), fun h => absurd h (by decide), readyAB_inv.2.2.2.1.2.2⟩, by decide⟩, by decide⟩

/-- The first reserved address of each clause, with buffers of four entries. -/
theorem witness_ReservedAddressesReadZeroAndDropWrites :
    (∃ (s : State) (rest : List Line), s.engine = none ∧ s.script = .rd 0x80000 :: rest) ∧
    (∃ (s : State) (rest : List Line), s.engine = none ∧ s.script = .wr 0x80000 1 :: rest) ∧
    addrSpace 0x80000 = 8 ∧ (addrSpace 0x0000C = 0 ∧ addrOff 0x0000C = 12) ∧
    (addrSpace 0x10200 = 1 ∧ addrOff 0x10200 = 512) ∧ (addrSpace 0x207FC = 2 ∧ addrOff 0x207FC = 2044) ∧
    (addrSpace 0x30100 = 3 ∧ addrOff 0x30100 = 256) ∧ (addrSpace 0x41000 = 4 ∧ addrOff 0x41000 = 4096) ∧
    (addrSpace 0x50009 = 5 ∧ addrOff 0x50009 % 16 = 9) ∧ (addrSpace 0x60004 = 6 ∧ addrOff 0x60004 = 4) ∧
    (addrSpace 0x70004 = 7 ∧ addrOff 0x70004 = 4) :=
  ⟨⟨{ readyK3 with script := [.rd 0x80000], cfg := ⟨4, 4⟩ }, [], by decide⟩,
    ⟨{ readyK3 with script := [.wr 0x80000 1], cfg := ⟨4, 4⟩ }, [], by decide⟩, by decide⟩

theorem witness_ReadOnlyWritesAreDropped :
    ∀ l ∈ [Loc.err, .pqLen, .nm 510 3, .pq 255, .ct 255 8, .ict 255 8, .ob 65535, .ftFreq 255, .ftPresent 0],
      ∃ s : State, s.engine = none ∧ s.cfg.wf = true ∧ l.wf s.cfg = true ∧ s.script = .wr (address l) 1 :: [] ∧
        s.phase ≠ .empty := by
  intro l hl
  refine ⟨{ readyK3 with script := [.wr (address l) 1] }, rfl, rfl, ?_, rfl, Phase.noConfusion⟩
  fin_cases hl <;> decide

theorem witness_FrequencyTableWritesInPhaseEmpty :
    ∀ a ∈ [addrAt 1 0, addrAt 1 1, addrAt 1 510, addrAt 1 511], ∀ v ∈ [0x00000000#32, 0x00000001#32],
      (∃ s : State, s.engine = none ∧ s.phase = .empty ∧ 255 < Config.alphabet ∧ s.script = .wr a v :: []) ∧
      ∃ s : State, s.engine = none ∧ s.phase ≠ .empty ∧ s.script = .wr a v :: [] :=
  fun a _ v _ =>
    ⟨⟨{ tabledK3 with script := [.wr a v] }, rfl, rfl, by decide, rfl⟩,
      { treeK3 with script := [.wr a v] }, rfl, Phase.noConfusion, rfl⟩

theorem witness_DecodeOfEncodeIsTheCommand :
    Instr.wf .decs = true ∧ decode 0x0B = .ok .decs ∧ (opcodeOf .decs).getLsbD 3 = true := by decide

theorem witness_InputBufferWriteStoresOneByte :
    ∃ (s : State) (j : Nat) (v : Word) (rest : List Line), s.engine = none ∧ s.cfg.wf = true ∧ j < s.cfg.ibCap ∧
      s.script = .wr (addrAt 6 j) v :: rest :=
  ⟨{ readyK3 with script := [.wr (addrAt 6 65535) 0x1FF] }, 65535, 0x1FF, [], by decide⟩

theorem witness_WritableRegistersTakeTheirWords :
    ∀ a ∈ [addrAt 0 1, addrAt 0 4, addrAt 0 5], ∃ s : State, s.engine = none ∧ s.script = .wr a 0x20 :: [] :=
  fun a _ => ⟨{ readyK3 with script := [.wr a 0x20] }, rfl, rfl⟩

/-- The last entry of every space, with the largest buffers and with the smallest. -/
theorem witness_AddressAndLocationNameEachOther :
    Config.Params.standard.wf = true ∧
      [Loc.pqLen, .ftPresent 255, .nm 510 3, .pq 255, .ct 255 8, .ict 255 8, .ib 65535, .ob 65535].all
        (Loc.wf Config.Params.standard) = true ∧
      locate Config.Params.standard 0x7FFFF ≠ .reserved ∧
      Config.Params.wf ⟨1, 1⟩ = true ∧ Loc.wf ⟨1, 1⟩ (.ib 0) = true := by decide

theorem witness_CodeFieldIsStoredFirstBitFirst :
    ((255 : Nat) < Config.alphabet ∧ (8 : Nat) < 9 ∧ (9 : Nat) ≤ 15 ∧ (15 : Nat) < 16) ∧
    ∃ (c : BitString) (e : IctEntry) (j : Nat), e.code = c ∧ j < 256 ∧ j < c.length ∧ c.length ≤ Config.codeMax :=
  ⟨by decide, [true], ⟨0x41, [true]⟩, 0, by decide⟩

theorem witness_NodeEntryWordImages : 510 < Config.nodeCap ∧ (2044 : Nat) < 2 ^ 16 := by decide

theorem witness_HerrRisesOnDroppedWritesOnly :
    (∃ s t : State, step s = .next t ∧ s.herrFlag = true ∧ t.herrFlag = false) ∧
    ∃ s t : State, step s = .next t ∧ s.herrFlag = false ∧ t.herrFlag = true :=
  ⟨⟨{ readyK3 with herrFlag := true, script := [.wr 1 0x20] }, _, rfl, rfl, rfl⟩,
    { readyK3 with script := [.wr 2 0] }, _, rfl, rfl, rfl⟩

theorem witness_TablesAreFrozenOutsidePhaseEmpty :
    ∃ s t : State, step s = .next t ∧ s.phase ≠ .empty ∧ t.phase ≠ .empty :=
  ⟨{ treeK3 with script := [.cmd 3] }, _, rfl, by decide, by decide⟩

theorem witness_EveryStepKeepsTheInvariant : ∃ s t : State, s.Inv ∧ step s = .next t :=
  ⟨{ treeK3 with script := [.cmd 3] }, _, script_inv treeK3_inv _, rfl⟩

theorem witness_EveryGoodStateHasANextState : readyK3.Inv := readyK3_inv

end Sys2Proof.Tests
end

/-! SUPPORT. The statements of 10_state R14 to R30: writes of registers and of the frequency table, the phase, the frozen
tables, and the invariant through commands, host accesses and lines. -/

namespace Sys2Proof.Machine

/-! ### Writes of registers and of the frequency table (10_state R14, R16, R17) -/

/-- Writes of two different entries of a canonical table commute. -/
theorem Table.set_comm {α : Type} {n : Nat} {t : Table α} (h : Table.wf n t) {j k : Nat} (hj : j < n) (hk : k < n)
    (hne : j ≠ k) (a b : α) : Table.set (Table.set t j a) k b = Table.set (Table.set t k b) j a := by
  refine Table.ext (Table.set_wf (Table.set_wf h hj a) hk b) (Table.set_wf (Table.set_wf h hk b) hj a) fun i => ?_
  simp only [Table.get?_set]
  split_ifs with hik hij
  · exact absurd (hij.symm.trans hik) hne
  · rfl
  · rfl
  · rfl

theorem writeLoc_ftFreq_empty {s : State} (h : s.phase = .empty) (v : Word) (k : Nat) :
    s.writeLoc v (.ftFreq k) = { s with ft := Table.set s.ft k v } := if_pos h

theorem writeLoc_ftFreq_frozen {s : State} (h : s.phase ≠ .empty) (v : Word) (k : Nat) :
    s.writeLoc v (.ftFreq k) = s.dropWrite := if_neg h

/-- Settles O15: in phase EMPTY by the commuting writes of a canonical table, elsewhere because both are dropped. -/
theorem tableWritesOfTwoSymbolsCommute : Obligations.TableWritesOfTwoSymbolsCommute := by
  intro s j k f g hw hj hk hne
  by_cases hp : s.phase = .empty
  · simp only [writeLoc_ftFreq_empty, hp, Table.set_comm hw hj hk hne f g]
  · have hd : s.dropWrite.phase ≠ .empty := hp
    rw [writeLoc_ftFreq_frozen hp, writeLoc_ftFreq_frozen hp, writeLoc_ftFreq_frozen hd, writeLoc_ftFreq_frozen hd]

theorem advance_of_script {s : State} {l : Line} {rest : List Line} (h : s.script = l :: rest) :
    s.advance = { s with script := rest, cp := s.cp + 1 } := by
  rw [State.advance, h, List.tail_cons]

theorem writeLoc_status (s : State) (v : Word) :
    s.writeLoc v .status = { s with herrFlag := s.herrFlag && !v.getLsbD 5 } := by
  simpa using writeLoc_cases s v .status

/-- Settles O51: the step of an idle block is the write to the location that the address names. -/
theorem writableRegistersTakeTheirWords : Obligations.WritableRegistersTakeTheirWords := by
  intro s v rest he
  have hstatus : locate s.cfg (addrAt 0 1) = .status := rfl
  have hlen : locate s.cfg (addrAt 0 4) = .inLen := rfl
  have hbits : locate s.cfg (addrAt 0 5) = .inBits := rfl
  refine ⟨fun hs => ?_, fun hs => ?_, fun hs => ?_⟩
  · rw [step_wr he hs, hstatus, writeLoc_status, advance_of_script hs]
  · rw [step_wr he hs, hlen, advance_of_script hs]; rfl
  · rw [step_wr he hs, hbits, advance_of_script hs]; rfl

/-! ### Legal commands and the phase after a command (10_state R27) -/

/-- The commands by the phase in which they are legal (40 R71). -/
theorem legal_cases {i : Instr} {p : Phase} (h : phaseFault i p = none) :
    i = .clr ∨ (i = .buildt ∧ p = .empty) ∨ (i = .derive ∧ p = .tree) ∨ (i = .construct ∧ p = .empty) ∨
    (Instr.isCodec i = true ∧ p = .ready) := by
  cases i <;> cases p <;> simp_all [phaseFault, Instr.isCodec]

/-- Every way a command that completes without a fault moves the phase. -/
theorem bodyOf_done_phase {i : Instr} {s u : State} (hlegal : phaseFault i s.phase = none)
    (h : bodyOf i s = .done u) :
    u.phase = s.phase ∨ (i = .clr ∧ u.phase = .empty) ∨ (i = .buildt ∧ s.phase = .empty ∧ u.phase = .tree) ∨
    (i = .derive ∧ s.phase = .tree ∧ u.phase = .ready) ∨ (i = .construct ∧ s.phase = .empty ∧ u.phase = .ready) := by
  obtain rfl | ⟨rfl, hp⟩ | ⟨rfl, hp⟩ | ⟨rfl, hp⟩ | ⟨hcodec, -⟩ := legal_cases hlegal
  · cases h
    exact .inr (.inl ⟨rfl, rfl⟩)
  · obtain ⟨-, rfl⟩ := buildtBody_done h
    exact .inr (.inr (.inl ⟨rfl, hp, rfl⟩))
  · obtain ⟨es, -, rfl⟩ := deriveBody_done h
    exact .inr (.inr (.inr (.inl ⟨rfl, hp, rfl⟩)))
  · obtain ⟨v, -, hv⟩ := constructBody_done h
    obtain ⟨es, -, rfl⟩ := deriveBody_done hv
    exact .inr (.inr (.inr (.inr ⟨rfl, hp, rfl⟩)))
  · obtain ⟨out, bits, rfl, -⟩ := codecBody_done hcodec h
    exact .inl rfl

/-- Settles O43: a fault keeps the phase, and the moves of the commands that complete without one are listed. -/
theorem onlyClrMovesThePhaseBack : Obligations.OnlyClrMovesThePhaseBack := by
  intro i s t h
  obtain ⟨u, hlegal, hbody, rfl⟩ | ⟨f, pos, -, rfl⟩ := exec_next h
  · have hmoves := bodyOf_done_phase (s := s.accept (encode i)) hlegal hbody
    obtain ⟨-, -, herr, -⟩ := bodyOf_done_frame hbody
    have hnoerr : u.errFlag = false := herr
    refine ⟨fun hclr => ?_, fun he => absurd (hnoerr.symm.trans he) Bool.false_ne_true, hmoves.resolve_left⟩
    rw [State.complete_phase]
    obtain hs | ⟨hi, -⟩ | ⟨-, hs, hu⟩ | ⟨-, hs, hu⟩ | ⟨-, hs, hu⟩ := hmoves
    · rw [hs]; exact BitVec.le_refl _
    · exact absurd hi hclr
    all_goals rw [hu, ← State.accept_phase s (encode i), hs]; decide
  · have hp := State.faultEntry_phase (s.accept (encode i)) (Instr.isCodec i) f pos
    exact ⟨fun _ => by rw [hp]; exact BitVec.le_refl _, fun _ => hp, fun hne => absurd hp hne⟩

theorem isCodec_iff (i : Instr) : Instr.isCodec i = true ↔ i = .enc ∨ i = .encs ∨ i = .dec ∨ i = .decs := by
  cases i <;> decide

/-- Settles O44: a codec command delivers a result or enters a fault, and neither touches anything else. -/
theorem codecCommandsChangeOnlyTheirOutputs : Obligations.CodecCommandsChangeOnlyTheirOutputs := by
  intro i s t hi h
  have hcodec := (isCodec_iff i).2 hi
  obtain ⟨u, -, hbody, rfl⟩ | ⟨f, pos, -, rfl⟩ := exec_next h
  · obtain ⟨out, bits, rfl, -⟩ := codecBody_done hcodec hbody
    rfl
  · rw [hcodec]; rfl

/-! ### The tables of a built tree (10_state R17, R27; 70 R147) -/

/-- The tables that stay fixed from BUILDT until the phase is EMPTY again, and the counters made with them. -/
def State.treeTables (s : State) : Table Word × List Node × List NodeIdx × NodeIdx × BitVec 9 :=
  (s.ft, s.nm, s.pq, s.root, s.nsym)

/-- The block still has the tables of `s`, or it was cleared and holds no frequency table either. In the second case no
command can build before the host has written FT. -/
def KeptOrCleared (s t : State) : Prop :=
  (t.phase ≠ .empty ∧ t.treeTables = s.treeTables) ∨ (t.phase = .empty ∧ t.ft = [])

theorem KeptOrCleared.refl {s : State} (h : s.phase ≠ .empty) : KeptOrCleared s s := .inl ⟨h, rfl⟩

theorem KeptOrCleared.treeTables {s t : State} (h : KeptOrCleared s t) (hp : t.phase ≠ .empty) :
    t.treeTables = s.treeTables :=
  h.elim And.right fun hc => absurd hc.1 hp

theorem KeptOrCleared.congr {s t u : State} (h : KeptOrCleared s t) (hp : u.phase = t.phase)
    (ht : u.treeTables = t.treeTables) : KeptOrCleared s u := by
  have hft : u.ft = t.ft := congrArg Prod.fst ht
  rw [KeptOrCleared, hp, ht, hft]; exact h

theorem faultEntry_treeTables (s : State) (c : Bool) (f : CmdFault) (pos : Word) :
    (s.faultEntry c f pos).treeTables = s.treeTables := by
  simp only [State.treeTables, State.faultEntry_ft, State.faultEntry_nm, State.faultEntry_pq, State.faultEntry_root,
    State.faultEntry_nsym]

/-- BUILDT does not complete on an empty table (41 R76). -/
theorem buildtBody_done_ft {s u : State} (h : buildtBody s = .done u) : s.ft ≠ [] :=
  ((tableFault_none_iff s.ft).1 (buildtBody_done h).1).1

theorem bodyOf_keptOrCleared {i : Instr} {s t u : State} (h : KeptOrCleared s t)
    (hlegal : phaseFault i t.phase = none) (hbody : bodyOf i t = .done u) : KeptOrCleared s u := by
  have no_build (hp : t.phase = .empty) {v : State} (hv : buildtBody t = .done v) : False :=
    h.elim (fun hkept => hkept.1 hp) fun hcleared => buildtBody_done_ft hv hcleared.2
  obtain rfl | ⟨rfl, hp⟩ | ⟨rfl, hp⟩ | ⟨rfl, hp⟩ | ⟨hcodec, -⟩ := legal_cases hlegal
  · cases hbody
    exact .inr ⟨rfl, rfl⟩
  · exact (no_build hp hbody).elim
  · have htables := h.treeTables (hp ▸ Phase.noConfusion)
    obtain ⟨es, -, rfl⟩ := deriveBody_done hbody
    exact .inl ⟨Phase.noConfusion, htables⟩
  · obtain ⟨v, hv, -⟩ := constructBody_done hbody
    exact (no_build hp hv).elim
  · obtain ⟨out, bits, rfl, -⟩ := codecBody_done hcodec hbody
    exact h

theorem runWord_keptOrCleared {w : Word} {s t u : State} (h : KeptOrCleared s t) (hrun : runWord w t = .next u) :
    KeptOrCleared s u := by
  obtain ⟨i, -, hexec⟩ | ⟨e, -, rfl⟩ := runWord_next hrun
  · have ha : KeptOrCleared s (t.accept (encode i)) := h
    obtain ⟨v, hlegal, hbody, rfl⟩ | ⟨f, pos, -, rfl⟩ := exec_next hexec
    · have hv : KeptOrCleared s v := bodyOf_keptOrCleared ha hlegal hbody
      exact hv
    · exact ha.congr (State.faultEntry_phase ..) (faultEntry_treeTables ..)
  · cases e <;> exact h

theorem finishFlight_keptOrCleared {s t u : State} (h : KeptOrCleared s t) (hf : finishFlight t = .next u) :
    KeptOrCleared s u := by
  obtain ⟨-, rfl⟩ | ⟨w, -, hrun⟩ := finishFlight_next hf
  · exact h
  · exact runWord_keptOrCleared h hrun

theorem settle_keptOrCleared {s t u : State} (h : KeptOrCleared s t) (hs : settle t = .next u) :
    KeptOrCleared s u := by
  obtain ⟨-, rfl⟩ | ⟨w, -, rfl | hrun⟩ := settle_next hs
  · exact h
  · exact h
  · have ht : KeptOrCleared s { t with pick := t.pick + 1 } := h
    exact runWord_keptOrCleared ht hrun

theorem memRead_treeTables (s : State) (a : Addr) :
    (s.memRead a).phase = s.phase ∧ (s.memRead a).treeTables = s.treeTables := by
  obtain ⟨w, n, h⟩ := memRead_frame s a
  rw [h]; exact ⟨rfl, rfl⟩

theorem writeFtPresent_phase (s : State) (k : Nat) (v : Word) : (s.writeFtPresent k v).phase = s.phase := by
  unfold State.writeFtPresent; split <;> rfl

/-- No write changes the phase, and outside phase EMPTY none changes the tables. -/
theorem memWrite_treeTables (s : State) (a : Addr) (v : Word) :
    (s.memWrite a v).phase = s.phase ∧ (s.phase ≠ .empty → (s.memWrite a v).treeTables = s.treeTables) := by
  by_cases hb : s.busy = true
  · rw [memWrite_busy hb]; exact ⟨rfl, fun _ => rfl⟩
  · have he : s.engine = none := by simpa [State.busy] using hb
    rw [memWrite_idle he]
    obtain ⟨-, h⟩ | ⟨-, h⟩ | ⟨-, h⟩ | ⟨-, h⟩ | ⟨k, -, hp, h⟩ | ⟨k, -, hp, h⟩ | ⟨j, -, h⟩ | ⟨-, -, -, h⟩ :=
      writeLoc_cases s v (locate s.cfg a) <;> rw [h]
    · obtain ⟨e, d, f, r, p, hw⟩ := presentWord_frame s v
      rw [hw]; exact ⟨rfl, fun _ => rfl⟩
    · exact ⟨rfl, fun _ => rfl⟩
    · exact ⟨rfl, fun _ => rfl⟩
    · exact ⟨rfl, fun _ => rfl⟩
    · exact ⟨rfl, fun hne => absurd hp hne⟩
    · exact ⟨writeFtPresent_phase s k v, fun hne => absurd hp hne⟩
    · exact ⟨rfl, fun _ => rfl⟩
    · exact ⟨rfl, fun _ => rfl⟩

theorem commandLine_keptOrCleared {w : Word} {s t u : State} (h : KeptOrCleared s t)
    (hc : commandLine w t = .next u) : KeptOrCleared s u := by
  obtain ⟨v, rfl, ⟨-, hrun⟩ | ⟨x, -, hrun⟩⟩ := commandLine_next hc
  · have hv : KeptOrCleared s v := runWord_keptOrCleared h hrun
    exact hv
  · have ht : KeptOrCleared s t.dropWrite := h
    have hv : KeptOrCleared s v := runWord_keptOrCleared ht hrun
    exact hv

theorem waitLine_keptOrCleared {s t u : State} (h : KeptOrCleared s t) (hw : waitLine t = .next u) :
    KeptOrCleared s u := by
  obtain ⟨v, hv, rfl⟩ := waitLine_next hw
  have hv : KeptOrCleared s v := finishFlight_keptOrCleared h hv
  exact hv

/-- A step outside phase EMPTY that does not end in phase EMPTY keeps the tables. -/
theorem step_treeTables {s t : State} (h : step s = .next t) (hs : s.phase ≠ .empty) (ht : t.phase ≠ .empty) :
    t.treeTables = s.treeTables := by
  have h0 : KeptOrCleared s s.advance := KeptOrCleared.refl hs
  obtain ⟨-, hf⟩ | ⟨a, v, rest, u, -, hu, rfl⟩ | ⟨a, rest, u, -, hu, rfl⟩ | ⟨w, rest, u, -, hu, hc⟩ | ⟨rest, -, hw⟩ |
    ⟨rest, -, rfl⟩ := step_next h
  · exact (finishFlight_keptOrCleared (.refl hs) hf).treeTables ht
  · obtain ⟨hp, hkept⟩ := memWrite_treeTables u a v
    have hu' : u.phase ≠ .empty := hp ▸ ht
    rw [hkept hu', (settle_keptOrCleared h0 hu).treeTables hu']
  · obtain ⟨hp, hkept⟩ := memRead_treeTables u a
    rw [hkept, (settle_keptOrCleared h0 hu).treeTables (hp ▸ ht)]
  · exact (commandLine_keptOrCleared (settle_keptOrCleared h0 hu) hc).treeTables ht
  · exact (waitLine_keptOrCleared h0 hw).treeTables ht
  · exact absurd rfl ht

/-- Settles O57: the five fields are those of `treeTables`. -/
theorem tablesAreFrozenOutsidePhaseEmpty : Obligations.TablesAreFrozenOutsidePhaseEmpty := by
  intro s t h hs ht
  simpa only [State.treeTables, Prod.mk.injEq] using step_treeTables h hs ht

/-! ### The part of the invariant that the status and fault registers take no part in -/

/-- The invariant without its clause about status and faults. -/
abbrev DataOk (s : State) : Prop := s.cfg.wf = true ∧ TablesOk s ∧ PhaseOk s ∧ OutputOk s

theorem inv_iff (s : State) : s.Inv ↔ StatusOk s ∧ DataOk s := and_left_comm

theorem State.Inv.ft_wf {s : State} (h : s.Inv) : Table.wf Config.alphabet s.ft := by
  obtain ⟨-, -, ⟨hft, -, -⟩, -, -⟩ := h
  exact hft

theorem phaseOk_of_empty {s : State} (hp : s.phase = .empty)
    (h : s.nsym = 0 ∧ s.root = 0 ∧ s.nm = [] ∧ s.pq = [] ∧ s.ct = [] ∧ s.ict = [] ∧ s.outLen = 0 ∧ s.outBits = 0) :
    PhaseOk s := by
  simp only [PhaseOk, hp, reduceCtorEq, false_implies, and_true]; exact fun _ => h

theorem phaseOk_of_tree {s : State} (hp : s.phase = .tree)
    (h : TreeOk s ∧ s.ct = [] ∧ s.ict = [] ∧ s.outLen = 0 ∧ s.outBits = 0) : PhaseOk s := by
  simp only [PhaseOk, hp, reduceCtorEq, false_implies, and_true, true_and]; exact fun _ => h

theorem phaseOk_of_ready {s : State} (hp : s.phase = .ready) (h : TreeOk s ∧ CodesOk s) : PhaseOk s := by
  simp only [PhaseOk, hp, reduceCtorEq, false_implies, true_and]; exact fun _ => h

/-! ### The invariant at reset (10_state R30) -/

theorem resetBlock_inv {s : State} (h : s.cfg.wf = true) : s.resetBlock.Inv := by
  refine ⟨h, ?_, ⟨Table.nil_wf _, Table.nil_wf _, Table.nil_wf _⟩, phaseOk_of_empty rfl ?_, le_rfl, Nat.zero_le _⟩
  · refine ⟨fun _ => ⟨rfl, rfl⟩, fun hd => absurd hd Bool.false_ne_true, fun _ => rfl, ?_, rfl⟩
    rw [State.resetBlock_errReg]; decide
  · exact ⟨rfl, rfl, rfl, rfl, rfl, rfl, rfl, rfl⟩

/-- Settles O58: the invariant reads nothing in which the state after reset differs from a block just reset. -/
theorem resetStateMeetsTheInvariant : Obligations.ResetStateMeetsTheInvariant :=
  resetBlock_inv (s := State.reset) (by decide)

/-! ### The invariant through the commands -/

theorem clrBody_dataOk {s u : State} (h : DataOk s) (hbody : clrBody s = .done u) : DataOk u := by
  obtain ⟨hcfg, ⟨-, -, hib⟩, -, -, hob⟩ := h
  cases hbody
  refine ⟨hcfg, ⟨Table.nil_wf _, Table.nil_wf _, hib⟩, phaseOk_of_empty rfl ?_, Nat.zero_le _, hob⟩
  exact ⟨rfl, rfl, rfl, rfl, rfl, rfl, rfl, rfl⟩

theorem buildtBody_treeOk {s u : State} (hw : Table.wf Config.alphabet s.ft) (hbody : buildtBody s = .done u) :
    TreeOk u := by
  obtain ⟨hf, rfl⟩ := buildtBody_done hbody
  exact builtForest_treeOk hw ((tableFault_none_iff _).1 hf) rfl rfl rfl rfl

theorem buildtBody_dataOk {s u : State} (h : DataOk s) (hp : s.phase = .empty) (hbody : buildtBody s = .done u) :
    DataOk u := by
  obtain ⟨hcfg, htables, ⟨hempty, -, -⟩, hout⟩ := h
  obtain ⟨-, -, -, -, hct, hict, hlen, hbits⟩ := hempty hp
  have htree := buildtBody_treeOk htables.1 hbody
  obtain ⟨-, rfl⟩ := buildtBody_done hbody
  exact ⟨hcfg, htables, phaseOk_of_tree rfl ⟨htree, hct, hict, hlen, hbits⟩, hout⟩

theorem deriveBody_dataOk {s u : State} (h : DataOk s) (hp : s.phase = .tree) (hbody : deriveBody s = .done u) :
    DataOk u := by
  obtain ⟨hcfg, ⟨hft, -, hib⟩, ⟨-, htree, -⟩, hout⟩ := h
  have htree := (htree hp).1
  obtain ⟨es, hv, rfl⟩ := deriveBody_done hbody
  exact ⟨hcfg, ⟨hft, tableOf_wf es, hib⟩, phaseOk_of_ready rfl ⟨htree, codesOk_of_visit hft htree hv⟩, hout⟩

theorem deliver_dataOk {s : State} (h : DataOk s) (hp : s.phase = .ready) {out : List Byte}
    (hcap : out.length ≤ s.cfg.obCap) (bits : Nat) : DataOk (s.deliver out bits) := by
  obtain ⟨hcfg, htables, ⟨-, -, hready⟩, -⟩ := h
  have hlen : (BitVec.ofNat 32 out.length).toNat ≤ out.length := by
    rw [BitVec.toNat_ofNat]; exact Nat.mod_le _ _
  exact ⟨hcfg, htables, phaseOk_of_ready hp (hready hp), hlen, hcap⟩

theorem bodyOf_dataOk {i : Instr} {s u : State} (h : DataOk s) (hlegal : phaseFault i s.phase = none)
    (hbody : bodyOf i s = .done u) : DataOk u := by
  obtain rfl | ⟨rfl, hp⟩ | ⟨rfl, hp⟩ | ⟨rfl, hp⟩ | ⟨hcodec, hp⟩ := legal_cases hlegal
  · exact clrBody_dataOk h hbody
  · exact buildtBody_dataOk h hp hbody
  · exact deriveBody_dataOk h hp hbody
  · obtain ⟨v, hv, hu⟩ := constructBody_done hbody
    have hvp : v.phase = .tree := by rw [(buildtBody_done hv).2]
    exact deriveBody_dataOk (buildtBody_dataOk h hp hv) hvp hu
  · obtain ⟨out, bits, rfl, hcap⟩ := codecBody_done hcodec hbody
    exact deliver_dataOk h hp hcap bits

/-- Settles O19: on a legal table BUILDT completes with the finished forest, which is the tree of the table. -/
theorem buildtMakesTheTreeOfTheTable : Obligations.BuildtMakesTheTreeOfTheTable := by
  intro s hp hw hl
  have hlegal : phaseFault .buildt s.phase = none := by rw [hp]; rfl
  have hbody := buildtBody_of_legal (s := s.accept (encode .buildt)) ((tableFault_none_iff _).2 hl)
  have htree := buildtBody_treeOk (s := s.accept (encode .buildt)) hw hbody
  exact ⟨_, exec_done hlegal hbody, rfl, htree⟩

theorem dropOutput_dataOk {s : State} (h : DataOk s) : DataOk s.dropOutput := by
  obtain ⟨hcfg, htables, ⟨hempty, htree, hready⟩, -⟩ := h
  refine ⟨hcfg, htables, ⟨fun hp => ?_, fun hp => ?_, hready⟩, le_rfl, Nat.zero_le _⟩
  · obtain ⟨hnsym, hroot, hnm, hpq, hct, hict, -⟩ := hempty hp
    exact ⟨hnsym, hroot, hnm, hpq, hct, hict, rfl, rfl⟩
  · obtain ⟨ht, hct, hict, -⟩ := htree hp
    exact ⟨ht, hct, hict, rfl, rfl⟩

theorem statusOk_complete {s : State} (h : s.errFlag = false) : StatusOk s.complete := by
  refine ⟨fun hb => absurd hb Bool.false_ne_true, fun _ => ?_, fun _ => h, ?_, rfl⟩
  · simp [State.errCode, h]
  · rw [State.complete_errReg]; decide

theorem statusOk_faultEntry (s : State) (c : Bool) (f : CmdFault) (pos : Word) :
    StatusOk (s.faultEntry c f pos) := by
  have hcode : (s.faultEntry c f pos).errCode ≠ 0 := by
    rw [State.errCode, State.faultEntry_errReg, CmdFault.errWord_code]; exact f.code_ne_zero
  refine ⟨fun hb => ?_, fun _ => ?_, fun hd => ?_, ?_, ?_⟩
  · simp [State.busy] at hb
  · exact iff_of_true (State.faultEntry_errFlag ..) hcode
  · simp at hd
  · rw [State.faultEntry_errReg]; exact f.errWord_high
  · simp

theorem faultEntry_inv {s : State} (h : DataOk s) (c : Bool) (f : CmdFault) (pos : Word) :
    (s.faultEntry c f pos).Inv := by
  refine (inv_iff _).2 ⟨statusOk_faultEntry s c f pos, ?_⟩
  cases c with
  | false => exact h
  | true =>
    have hd : DataOk s.dropOutput := dropOutput_dataOk h
    exact hd

theorem exec_inv {i : Instr} {s t : State} (h : DataOk s) (hexec : exec i s = .next t) : t.Inv := by
  have ha : DataOk (s.accept (encode i)) := h
  obtain ⟨u, hlegal, hbody, rfl⟩ | ⟨f, pos, -, rfl⟩ := exec_next hexec
  · obtain ⟨-, -, herr, -⟩ := bodyOf_done_frame hbody
    have hu : DataOk u := bodyOf_dataOk ha hlegal hbody
    exact (inv_iff _).2 ⟨statusOk_complete herr, hu⟩
  · exact faultEntry_inv ha _ f pos

theorem illegalWord_inv {s : State} (h : DataOk s) (e : DecodeError) (w : Word) : (illegalWord e w s).Inv := by
  have ha : DataOk (s.accept w) := h
  cases e with
  | reservedBits => exact faultEntry_inv ha ..
  | reservedOpcode => exact faultEntry_inv ha ..

theorem runWord_inv {w : Word} {s t : State} (h : DataOk s) (hrun : runWord w s = .next t) : t.Inv := by
  obtain ⟨i, -, hexec⟩ | ⟨e, -, rfl⟩ := runWord_next hrun
  · exact exec_inv h hexec
  · exact illegalWord_inv h e w

theorem finishFlight_inv {s t : State} (h : s.Inv) (hf : finishFlight s = .next t) : t.Inv := by
  obtain ⟨-, rfl⟩ | ⟨w, -, hrun⟩ := finishFlight_next hf
  · exact h
  · exact runWord_inv ((inv_iff s).1 h).2 hrun

theorem settle_inv {s t : State} (h : s.Inv) (hs : settle s = .next t) : t.Inv := by
  obtain ⟨-, rfl⟩ | ⟨w, -, rfl | hrun⟩ := settle_next hs
  · exact h
  · exact h
  · have hd : DataOk { s with pick := s.pick + 1 } := ((inv_iff s).1 h).2
    exact runWord_inv hd hrun

/-! ### The invariant through the host port -/

theorem regLoc_wf (c : Config.Params) (off : Nat) : (regLoc off).wf c = true := by
  unfold regLoc; split <;> rfl

theorem ftLoc_wf (c : Config.Params) (off : Nat) : (ftLoc off).wf c = true := by
  unfold ftLoc
  split_ifs
  · simp only [Loc.wf, decide_eq_true_eq]; omega
  · simp only [Loc.wf, decide_eq_true_eq]; omega
  · rfl

theorem nmLoc_wf (c : Config.Params) (off : Nat) : (nmLoc off).wf c = true := by
  unfold nmLoc
  split_ifs
  · simp only [Loc.wf, Bool.and_eq_true, decide_eq_true_eq]; omega
  · rfl

theorem pqLoc_wf (c : Config.Params) (off : Nat) : (pqLoc off).wf c = true := by
  unfold pqLoc
  split_ifs with h
  · simpa only [Loc.wf, decide_eq_true_eq] using h
  · rfl

theorem ctLoc_wf (c : Config.Params) (off : Nat) : (ctLoc off).wf c = true := by
  unfold ctLoc
  split_ifs
  · simp only [Loc.wf, Bool.and_eq_true, decide_eq_true_eq]; omega
  · rfl

theorem ictLoc_wf (c : Config.Params) (off : Nat) : (ictLoc off).wf c = true := by
  unfold ictLoc
  split_ifs
  · simp only [Loc.wf, Bool.and_eq_true, decide_eq_true_eq]; omega
  · rfl

/-- Every address names a location that exists (20_memory R42 to R49). -/
theorem locate_wf (c : Config.Params) (a : Addr) : (locate c a).wf c = true := by
  unfold locate
  dsimp only
  split
  · exact regLoc_wf c _
  · exact ftLoc_wf c _
  · exact nmLoc_wf c _
  · exact pqLoc_wf c _
  · exact ctLoc_wf c _
  · exact ictLoc_wf c _
  · split_ifs with h
    · simpa only [Loc.wf, decide_eq_true_eq] using h
    · rfl
  · split_ifs with h
    · simpa only [Loc.wf, decide_eq_true_eq] using h
    · rfl
  · rfl

/-- A canonical frequency table written in phase EMPTY, where nothing is derived from it. -/
theorem setFt_inv {s : State} (h : s.Inv) (hp : s.phase = .empty) {ft : Table Word}
    (hft : Table.wf Config.alphabet ft) : State.Inv { s with ft := ft } := by
  obtain ⟨hcfg, hstatus, ⟨-, hct, hib⟩, ⟨hempty, -, -⟩, hout⟩ := h
  exact ⟨hcfg, hstatus, ⟨hft, hct, hib⟩, phaseOk_of_empty hp (hempty hp), hout⟩

theorem writeFtPresent_inv {s : State} (h : s.Inv) (hp : s.phase = .empty) {k : Nat} (hk : k < Config.alphabet)
    (v : Word) : (s.writeFtPresent k v).Inv := by
  have hft := h.ft_wf
  unfold State.writeFtPresent
  split
  · exact setFt_inv h hp (Table.set_wf hft hk _)
  · exact setFt_inv h hp (Table.erase_wf hft k)

theorem writeIb_inv {s : State} (h : s.Inv) {j : Nat} (hj : j < s.cfg.ibCap) (b : Byte) : (s.writeIb j b).Inv := by
  obtain ⟨hcfg, hstatus, ⟨hft, hct, hib⟩, hphase, hout⟩ := h
  exact ⟨hcfg, hstatus, ⟨hft, hct, State.writeIb_wf hib hj b⟩, hphase, hout⟩

theorem accept_inv {s : State} (h : DataOk s) (hhigh : s.errReg.extractLsb' 16 16 = 0) {w : Word}
    (hw : commandWordWf w = true) : (s.accept w).Inv := by
  refine (inv_iff _).2 ⟨⟨fun _ => ⟨rfl, rfl⟩, ?_, fun _ => rfl, hhigh, ?_⟩, h⟩
  · exact fun hd => absurd hd Bool.false_ne_true
  · exact hw

theorem presentWord_inv {s : State} (h : s.Inv) (w : Word) : (s.presentWord w).Inv := by
  obtain ⟨⟨-, -, -, hhigh, -⟩, hd⟩ := (inv_iff s).1 h
  obtain ⟨hw, -, hp⟩ | ⟨e, -, hp⟩ := presentWord_cases s w
  · rw [hp]; exact accept_inv hd hhigh hw
  · rw [hp]; exact illegalWord_inv hd e w

theorem writeLoc_inv {s : State} (h : s.Inv) {l : Loc} (hl : l.wf s.cfg = true) (v : Word) : (s.writeLoc v l).Inv := by
  obtain ⟨-, he⟩ | ⟨-, he⟩ | ⟨-, he⟩ | ⟨-, he⟩ | ⟨k, rfl, hp, he⟩ | ⟨k, rfl, hp, he⟩ | ⟨j, rfl, he⟩ | ⟨-, -, -, he⟩ :=
    writeLoc_cases s v l <;> rw [he]
  · exact presentWord_inv h v
  · exact h
  · exact h
  · exact h
  · exact setFt_inv h hp (Table.set_wf h.ft_wf (of_decide_eq_true hl) v)
  · exact writeFtPresent_inv h hp (of_decide_eq_true hl) v
  · exact writeIb_inv h (of_decide_eq_true hl) _
  · exact h

theorem memWrite_inv {s : State} (h : s.Inv) (a : Addr) (v : Word) : (s.memWrite a v).Inv := by
  by_cases hb : s.busy = true
  · rw [memWrite_busy hb]; exact h
  · rw [memWrite_idle (by simpa [State.busy] using hb)]
    exact writeLoc_inv h (locate_wf s.cfg a) v

theorem memRead_inv {s : State} (h : s.Inv) (a : Addr) : (s.memRead a).Inv := by
  obtain ⟨w, n, hr⟩ := memRead_frame s a
  rw [hr]; exact h

/-! ### The invariant through the lines -/

theorem waitLine_inv {s t : State} (h : s.Inv) (hw : waitLine s = .next t) : t.Inv := by
  obtain ⟨u, hu, rfl⟩ := waitLine_next hw
  have hinv : u.Inv := finishFlight_inv h hu
  exact hinv

theorem commandLine_inv {w : Word} {s t : State} (h : s.Inv) (hc : commandLine w s = .next t) : t.Inv :=
  waitLine_inv (memWrite_inv h _ _) hc

/-- Settles O59, by the kinds of line: each is made of accesses and completions that keep the invariant. -/
theorem everyStepKeepsTheInvariant : Obligations.EveryStepKeepsTheInvariant := by
  intro s t h hstep
  have ha : s.advance.Inv := h
  obtain ⟨-, hf⟩ | ⟨a, v, rest, u, -, hu, rfl⟩ | ⟨a, rest, u, -, hu, rfl⟩ | ⟨w, rest, u, -, hu, hc⟩ | ⟨rest, -, hw⟩ |
    ⟨rest, -, rfl⟩ := step_next hstep
  · exact finishFlight_inv h hf
  · exact memWrite_inv (settle_inv ha hu) a v
  · exact memRead_inv (settle_inv ha hu) a
  · exact commandLine_inv (settle_inv ha hu) hc
  · exact waitLine_inv ha hw
  · exact resetBlock_inv ha.1

end Sys2Proof.Machine

/-! SUPPORT. The statements of 20_memory: the address map, the words a host reads, and the writes and reads of a host on
an idle and on a busy engine. -/

namespace Sys2Proof.Machine

/-! ### The address map by space and offset (20_memory R42 to R49) -/

theorem exists_addrAt (a : Addr) : ∃ sp off, sp < 16 ∧ off < 65536 ∧ a = addrAt sp off :=
  ⟨_, _, addrSpace_lt a, addrOff_lt a, (addrAt_fields a).symm⟩

section
variable (c : Config.Params) {off : Nat} (h : off < 65536)
include h

theorem locate_reg : locate c (addrAt 0 off) = regLoc off := by
  simp only [locate, addrSpace_addrAt (sp := 0) (by decide) h, addrOff_addrAt (sp := 0) (by decide) h]

theorem locate_ft : locate c (addrAt 1 off) = ftLoc off := by
  simp only [locate, addrSpace_addrAt (sp := 1) (by decide) h, addrOff_addrAt (sp := 1) (by decide) h]

theorem locate_nm : locate c (addrAt 2 off) = nmLoc off := by
  simp only [locate, addrSpace_addrAt (sp := 2) (by decide) h, addrOff_addrAt (sp := 2) (by decide) h]

theorem locate_pq : locate c (addrAt 3 off) = pqLoc off := by
  simp only [locate, addrSpace_addrAt (sp := 3) (by decide) h, addrOff_addrAt (sp := 3) (by decide) h]

theorem locate_ct : locate c (addrAt 4 off) = ctLoc off := by
  simp only [locate, addrSpace_addrAt (sp := 4) (by decide) h, addrOff_addrAt (sp := 4) (by decide) h]

theorem locate_ict : locate c (addrAt 5 off) = ictLoc off := by
  simp only [locate, addrSpace_addrAt (sp := 5) (by decide) h, addrOff_addrAt (sp := 5) (by decide) h]

theorem locate_ib : locate c (addrAt 6 off) = if off < c.ibCap then .ib off else .reserved := by
  simp only [locate, addrSpace_addrAt (sp := 6) (by decide) h, addrOff_addrAt (sp := 6) (by decide) h]

theorem locate_ob : locate c (addrAt 7 off) = if off < c.obCap then .ob off else .reserved := by
  simp only [locate, addrSpace_addrAt (sp := 7) (by decide) h, addrOff_addrAt (sp := 7) (by decide) h]

end

theorem locate_high (c : Config.Params) {sp off : Nat} (h8 : 8 ≤ sp) (h16 : sp < 16) (h : off < 65536) :
    locate c (addrAt sp off) = .reserved := by
  obtain ⟨n, rfl⟩ := Nat.exists_eq_add_of_le' h8
  simp only [locate, addrSpace_addrAt h16 h]

/-! ### The offsets of each space: those in use and those beyond (20_memory R43 to R48, R52) -/

theorem regLoc_of_ge {off : Nat} (h : 12 ≤ off) : regLoc off = .reserved := by
  obtain ⟨n, rfl⟩ := Nat.exists_eq_add_of_le' h
  rfl

theorem ftLoc_freq {k : Nat} (h : k < 256) : ftLoc (2 * k) = .ftFreq k := by
  rw [ftLoc, if_pos (by omega), if_pos (by omega), show 2 * k / 2 = k by omega]

theorem ftLoc_present {k : Nat} (h : k < 256) : ftLoc (2 * k + 1) = .ftPresent k := by
  rw [ftLoc, if_pos (by omega), if_neg (by omega), show (2 * k + 1) / 2 = k by omega]

theorem ftLoc_of_ge {off : Nat} (h : 512 ≤ off) : ftLoc off = .reserved := if_neg (by omega)

theorem nmLoc_word {i w : Nat} (hi : i < 511) (hw : w < 4) : nmLoc (4 * i + w) = .nm i w := by
  rw [nmLoc, if_pos (by omega), show (4 * i + w) / 4 = i by omega, show (4 * i + w) % 4 = w by omega]

theorem nmLoc_of_ge {off : Nat} (h : 2044 ≤ off) : nmLoc off = .reserved := if_neg (by omega)

theorem pqLoc_of_lt {k : Nat} (h : k < 256) : pqLoc k = .pq k := if_pos h

theorem pqLoc_of_ge {off : Nat} (h : 256 ≤ off) : pqLoc off = .reserved := if_neg (by omega)

theorem ctLoc_word {k w : Nat} (hk : k < 256) (hw : w < 9) : ctLoc (16 * k + w) = .ct k w := by
  rw [ctLoc, if_pos (by omega), show (16 * k + w) / 16 = k by omega, show (16 * k + w) % 16 = w by omega]

theorem ctLoc_reserved {off : Nat} (h : 4096 ≤ off ∨ 9 ≤ off % 16) : ctLoc off = .reserved := if_neg (by omega)

theorem ictLoc_word {i w : Nat} (hi : i < 256) (hw : w < 9) : ictLoc (16 * i + w) = .ict i w := by
  rw [ictLoc, if_pos (by omega), show (16 * i + w) / 16 = i by omega, show (16 * i + w) % 16 = w by omega]

theorem ictLoc_reserved {off : Nat} (h : 4096 ≤ off ∨ 9 ≤ off % 16) : ictLoc off = .reserved := if_neg (by omega)

theorem caps_le {c : Config.Params} (h : c.wf = true) : c.ibCap ≤ 65536 ∧ c.obCap ≤ 65536 := by
  simp only [Config.Params.wf, Bool.and_eq_true, decide_eq_true_eq] at h
  obtain ⟨⟨-, hib⟩, -, hob⟩ := h
  exact ⟨hib, hob⟩

theorem locate_ib_of_lt {c : Config.Params} (hc : c.wf = true) {j : Nat} (hj : j < c.ibCap) :
    locate c (addrAt 6 j) = .ib j := by
  rw [locate_ib c (hj.trans_le (caps_le hc).1), if_pos hj]

theorem locate_ob_of_lt {c : Config.Params} (hc : c.wf = true) {j : Nat} (hj : j < c.obCap) :
    locate c (addrAt 7 j) = .ob j := by
  rw [locate_ob c (hj.trans_le (caps_le hc).2), if_pos hj]

theorem locate_ftFreq (c : Config.Params) {k : Nat} (hk : k < 256) : locate c (addrAt 1 (2 * k)) = .ftFreq k := by
  rw [locate_ft c (by omega), ftLoc_freq hk]

theorem locate_ftPresent (c : Config.Params) {k : Nat} (hk : k < 256) :
    locate c (addrAt 1 (2 * k + 1)) = .ftPresent k := by
  rw [locate_ft c (by omega), ftLoc_present hk]

/-! ### Locations and addresses name each other (20_memory R42 to R49) -/

theorem locate_address {c : Config.Params} (hc : c.wf = true) {l : Loc} (hl : l.wf c = true) :
    locate c (address l) = l := by
  cases l with
  | ftFreq k => exact locate_ftFreq c (of_decide_eq_true hl)
  | ftPresent k => exact locate_ftPresent c (of_decide_eq_true hl)
  | nm i w =>
    simp only [Loc.wf, Bool.and_eq_true, decide_eq_true_eq] at hl
    rw [address, locate_nm c (by omega), nmLoc_word hl.1 hl.2]
  | pq k =>
    have hk : k < 256 := of_decide_eq_true hl
    rw [address, locate_pq c (by omega), pqLoc_of_lt hk]
  | ct k w =>
    simp only [Loc.wf, Bool.and_eq_true, decide_eq_true_eq] at hl
    rw [address, locate_ct c (by omega), ctLoc_word hl.1 hl.2]
  | ict i w =>
    simp only [Loc.wf, Bool.and_eq_true, decide_eq_true_eq] at hl
    rw [address, locate_ict c (by omega), ictLoc_word hl.1 hl.2]
  | ib j => exact locate_ib_of_lt hc (of_decide_eq_true hl)
  | ob j => exact locate_ob_of_lt hc (of_decide_eq_true hl)
  | _ => rfl

theorem address_regLoc {off : Nat} (h : regLoc off ≠ .reserved) : address (regLoc off) = addrAt 0 off := by
  have hlt : off < 12 := Nat.lt_of_not_le fun hge => h (regLoc_of_ge hge)
  interval_cases off <;> rfl

theorem address_ftLoc {off : Nat} (h : ftLoc off ≠ .reserved) : address (ftLoc off) = addrAt 1 off := by
  have hlt : off < 512 := Nat.lt_of_not_le fun hge => h (ftLoc_of_ge hge)
  obtain ⟨k, rfl | rfl⟩ := Nat.even_or_odd' off
  · rw [ftLoc_freq (by omega)]; rfl
  · rw [ftLoc_present (by omega)]; rfl

theorem address_nmLoc {off : Nat} (h : nmLoc off ≠ .reserved) : address (nmLoc off) = addrAt 2 off := by
  unfold nmLoc at h ⊢
  split_ifs at h ⊢
  · rw [address, Nat.div_add_mod]
  · exact absurd rfl h

theorem address_pqLoc {off : Nat} (h : pqLoc off ≠ .reserved) : address (pqLoc off) = addrAt 3 off := by
  unfold pqLoc at h ⊢
  split_ifs at h ⊢
  · rfl
  · exact absurd rfl h

theorem address_ctLoc {off : Nat} (h : ctLoc off ≠ .reserved) : address (ctLoc off) = addrAt 4 off := by
  unfold ctLoc at h ⊢
  split_ifs at h ⊢
  · rw [address, Nat.div_add_mod]
  · exact absurd rfl h

theorem address_ictLoc {off : Nat} (h : ictLoc off ≠ .reserved) : address (ictLoc off) = addrAt 5 off := by
  unfold ictLoc at h ⊢
  split_ifs at h ⊢
  · rw [address, Nat.div_add_mod]
  · exact absurd rfl h

theorem address_locate {c : Config.Params} {a : Addr} (h : locate c a ≠ .reserved) : address (locate c a) = a := by
  obtain ⟨sp, off, hsp, hoff, rfl⟩ := exists_addrAt a
  have hlow : sp < 8 := Nat.lt_of_not_le fun hge => h (locate_high c hge hsp hoff)
  interval_cases sp
  · rw [locate_reg c hoff] at h ⊢; exact address_regLoc h
  · rw [locate_ft c hoff] at h ⊢; exact address_ftLoc h
  · rw [locate_nm c hoff] at h ⊢; exact address_nmLoc h
  · rw [locate_pq c hoff] at h ⊢; exact address_pqLoc h
  · rw [locate_ct c hoff] at h ⊢; exact address_ctLoc h
  · rw [locate_ict c hoff] at h ⊢; exact address_ictLoc h
  · rw [locate_ib c hoff] at h ⊢
    split_ifs at h ⊢
    · rfl
    · exact absurd rfl h
  · rw [locate_ob c hoff] at h ⊢
    split_ifs at h ⊢
    · rfl
    · exact absurd rfl h

/-- Settles O52: location by location one way, space by space the other. -/
theorem addressAndLocationNameEachOther : Obligations.AddressAndLocationNameEachOther :=
  fun c hc => ⟨fun _ hl => locate_address hc hl, fun a ha => ⟨address_locate ha, locate_wf c a⟩⟩

/-! ### Lines of a host with an idle engine (20_memory R51, R52, R56) -/

section
variable {s : State} {a : Addr} {v : Word} {rest : List Line}

theorem step_rd_word (he : s.engine = none) (hs : s.script = .rd a :: rest) :
    step s = .next { s with script := rest, cp := s.cp + 1, rdata := some (s.readLoc (locate s.cfg a)) } := by
  rw [step_rd he hs, memRead_idle (s := s.advance) he, advance_of_script hs]
  rfl

theorem step_wr_dropped (he : s.engine = none) (hs : s.script = .wr a v :: rest)
    (hdrop : s.advance.writeLoc v (locate s.cfg a) = s.advance.dropWrite) :
    step s = .next { s with script := rest, cp := s.cp + 1, herrFlag := true } := by
  rw [step_wr he hs, hdrop, advance_of_script hs]
  rfl

/-- The written location is the one the address names, the script moved on. -/
theorem step_wr_loc {l : Loc} (he : s.engine = none) (hs : s.script = .wr a v :: rest) (hl : locate s.cfg a = l) :
    step s = .next (State.writeLoc { s with script := rest, cp := s.cp + 1 } v l) := by
  rw [step_wr he hs, hl, advance_of_script hs]

end

/-- Settles O46: the two lines that read. -/
theorem readsHaveNoSideEffect : Obligations.ReadsHaveNoSideEffect := by
  intro s a rest he
  refine ⟨step_rd_word he, fun hs => ?_⟩
  rw [step_wait hs, waitLine_idle (s := s.advance) he, advance_of_script hs]
  rfl

/-- Settles O47: each of these addresses names the reserved location. -/
theorem reservedAddressesReadZeroAndDropWrites : Obligations.ReservedAddressesReadZeroAndDropWrites := by
  intro s a v rest he ha
  have hl : locate s.cfg a = .reserved := by
    obtain ⟨sp, off, hsp, hoff, rfl⟩ := exists_addrAt a
    rw [addrSpace_addrAt hsp hoff, addrOff_addrAt hsp hoff] at ha
    obtain h | ⟨rfl, h⟩ | ⟨rfl, h⟩ | ⟨rfl, h⟩ | ⟨rfl, h⟩ | ⟨rfl | rfl, h⟩ | ⟨rfl, h⟩ | ⟨rfl, h⟩ := ha
    · exact locate_high s.cfg h hsp hoff
    · rw [locate_reg s.cfg hoff, regLoc_of_ge h]
    · rw [locate_ft s.cfg hoff, ftLoc_of_ge h]
    · rw [locate_nm s.cfg hoff, nmLoc_of_ge h]
    · rw [locate_pq s.cfg hoff, pqLoc_of_ge h]
    · rw [locate_ct s.cfg hoff, ctLoc_reserved h]
    · rw [locate_ict s.cfg hoff, ictLoc_reserved h]
    · rw [locate_ib s.cfg hoff, if_neg (Nat.not_lt.2 h)]
    · rw [locate_ob s.cfg hoff, if_neg (Nat.not_lt.2 h)]
  refine ⟨fun hs => ?_, fun hs => step_wr_dropped he hs ?_⟩
  · rw [step_rd_word he hs, hl]; rfl
  · rw [hl]; rfl

theorem writeLoc_ftPresent_empty {s : State} (h : s.phase = .empty) (v : Word) (k : Nat) :
    s.writeLoc v (.ftPresent k) = s.writeFtPresent k v := if_pos h

theorem writeLoc_ftPresent_frozen {s : State} (h : s.phase ≠ .empty) (v : Word) (k : Nat) :
    s.writeLoc v (.ftPresent k) = s.dropWrite := if_neg h

/-- Settles O48: the address names the location, and the location takes no write. -/
theorem readOnlyWritesAreDropped : Obligations.ReadOnlyWritesAreDropped := by
  intro s l v rest he hc hl hs h
  refine step_wr_dropped he hs ?_
  rw [locate_address hc hl]
  obtain hreg | ⟨i, w, rfl⟩ | ⟨k, rfl⟩ | ⟨k, w, rfl⟩ | ⟨i, w, rfl⟩ | ⟨j, rfl⟩ | ⟨hp, k, rfl | rfl⟩ := h
  · simp only [List.mem_cons, List.not_mem_nil, or_false] at hreg
    obtain rfl | rfl | rfl | rfl | rfl | rfl | rfl | rfl := hreg <;> rfl
  · rfl
  · rfl
  · rfl
  · rfl
  · rfl
  · exact writeLoc_ftFreq_frozen (s := s.advance) hp v k
  · exact writeLoc_ftPresent_frozen (s := s.advance) hp v k

/-! ### The frequency table (20_memory R44) -/

theorem ftFreq_set {s : State} (k : Nat) (v : Word) (j : Nat) :
    State.ftFreq { s with ft := Table.set s.ft k v } j = if j = k then v else s.ftFreq j := by
  simp only [State.ftFreq, Table.get?_set]
  split <;> rfl

theorem ftPresent_set {s : State} (k : Nat) (v : Word) (j : Nat) :
    State.ftPresent { s with ft := Table.set s.ft k v } j = if j = k then true else s.ftPresent j := by
  simp only [State.ftPresent, Table.get?_set]
  split <;> rfl

theorem ftFreq_erase {s : State} (k j : Nat) :
    State.ftFreq { s with ft := Table.erase s.ft k } j = if j = k then 0 else s.ftFreq j := by
  simp only [State.ftFreq, Table.get?_erase]
  split <;> rfl

theorem ftPresent_erase {s : State} (k j : Nat) :
    State.ftPresent { s with ft := Table.erase s.ft k } j = if j = k then false else s.ftPresent j := by
  simp only [State.ftPresent, Table.get?_erase]
  split <;> rfl

theorem writeFtPresent_of_set {v : Word} (h : v.getLsbD 0 = true) (s : State) (k : Nat) :
    s.writeFtPresent k v = { s with ft := Table.set s.ft k (s.ftFreq k) } := if_pos h

theorem writeFtPresent_of_clear {v : Word} (h : v.getLsbD 0 = false) (s : State) (k : Nat) :
    s.writeFtPresent k v = { s with ft := Table.erase s.ft k } := if_neg (Bool.eq_false_iff.1 h)

theorem writeFtPresent_frame (s : State) (k : Nat) (v : Word) :
    s.writeFtPresent k v = { s with ft := (s.writeFtPresent k v).ft } := by
  unfold State.writeFtPresent; split <;> rfl

theorem ftPresent_writeFtPresent (s : State) (k : Nat) (v : Word) (j : Nat) :
    (s.writeFtPresent k v).ftPresent j = if j = k then v.getLsbD 0 else s.ftPresent j := by
  cases h : v.getLsbD 0 with
  | false => rw [writeFtPresent_of_clear h, ftPresent_erase]
  | true => rw [writeFtPresent_of_set h, ftPresent_set]

theorem ftFreq_writeFtPresent (s : State) (k : Nat) (v : Word) (j : Nat) :
    (s.writeFtPresent k v).ftFreq j = if j = k ∧ v.getLsbD 0 = false then 0 else s.ftFreq j := by
  cases h : v.getLsbD 0 with
  | false => rw [writeFtPresent_of_clear h, ftFreq_erase]; simp only [and_true]
  | true =>
    rw [writeFtPresent_of_set h, ftFreq_set]
    simp only [Bool.true_eq_false, and_false, if_false]
    exact ite_eq_right_iff.2 fun hj => hj ▸ rfl

/-- Settles O49: the two words of an entry name its frequency and its presence, and each is read back after a write. -/
theorem frequencyTableWritesInPhaseEmpty : Obligations.FrequencyTableWritesInPhaseEmpty := by
  refine ⟨fun s k v rest he hk => ?_, fun c off h hoff => by rw [locate_ft c hoff, ftLoc_of_ge h]⟩
  have hfreq := locate_ftFreq s.cfg hk
  have hpresent := locate_ftPresent s.cfg hk
  refine ⟨fun hp hs => ?_, fun hp hs => ?_, fun hp w hw hs => ?_, ?_, ?_⟩
  · refine ⟨_, step_wr_loc he hs hfreq, ?_⟩
    rw [writeLoc_ftFreq_empty (s := { s with script := rest, cp := s.cp + 1 }) hp]
    refine ⟨rfl, ?_, ?_, fun j hj => ⟨?_, ?_⟩⟩
    · rw [ftFreq_set, if_pos rfl]
    · rw [ftPresent_set, if_pos rfl]
    · rw [ftFreq_set, if_neg hj]; rfl
    · rw [ftPresent_set, if_neg hj]; rfl
  · refine ⟨_, step_wr_loc he hs hpresent, ?_⟩
    rw [writeLoc_ftPresent_empty (s := { s with script := rest, cp := s.cp + 1 }) hp]
    refine ⟨writeFtPresent_frame _ k v, fun hv => ?_, fun hv => ?_, fun j hj => ?_⟩
    · rw [ftPresent_writeFtPresent, ftFreq_writeFtPresent, if_pos rfl, if_pos ⟨rfl, hv⟩]
      exact ⟨hv, rfl⟩
    · rw [ftPresent_writeFtPresent, ftFreq_writeFtPresent, if_pos rfl, if_neg (by simp [hv])]
      exact ⟨hv, rfl⟩
    · rw [ftPresent_writeFtPresent, ftFreq_writeFtPresent, if_neg hj, if_neg (fun h => hj h.1)]
      exact ⟨rfl, rfl⟩
  · refine step_wr_dropped he hs ?_
    interval_cases w
    · rw [Nat.add_zero, hfreq]
      exact writeLoc_ftFreq_frozen (s := s.advance) hp v k
    · rw [hpresent]
      exact writeLoc_ftPresent_frozen (s := s.advance) hp v k
  · rw [hfreq]; rfl
  · rw [hpresent]
    simp only [State.readLoc]
    cases s.ftPresent k <;> rfl

/-! ### Word images (10_state R14; 20_memory R45 to R50) -/

theorem statusWord_fields (s : State) :
    s.statusWord.getLsbD 0 = s.busy ∧ s.statusWord.getLsbD 1 = s.doneFlag ∧ s.statusWord.getLsbD 2 = s.errFlag ∧
    s.statusWord.extractLsb' 3 2 = s.phase.bits ∧ s.statusWord.getLsbD 5 = s.herrFlag ∧
    s.statusWord.extractLsb' 6 26 = 0#26 := by
  unfold State.statusWord
  refine ⟨?_, ?_, ?_, ?_, ?_, ?_⟩
  · simp only [BitVec.getLsbD_append]; simp
  · simp only [BitVec.getLsbD_append]; simp
  · simp only [BitVec.getLsbD_append]; simp
  · iterate 3 rw [BitVec.extractLsb'_append_eq_of_le (by decide)]
    exact BitVec.extractLsb'_append_eq_right
  · simp only [BitVec.getLsbD_append]; simp
  · iterate 4 rw [BitVec.extractLsb'_append_eq_of_le (by decide)]
    exact BitVec.extractLsb'_append_eq_left

theorem byteWord_eq_setWidth (b : Byte) : byteWord b = b.setWidth 32 :=
  (BitVec.setWidth_eq_append (x := b) (w := 32) (by decide)).symm

theorem byteWord_high (b : Byte) : (byteWord b).extractLsb' 8 24 = 0#24 := BitVec.extractLsb'_append_eq_left

theorem byteWord_low_byte (v : Word) : byteWord (v.extractLsb' 0 8) = v &&& 0x000000FF#32 := by
  apply BitVec.eq_of_toNat_eq
  rw [byteWord, BitVec.toNat_append, BitVec.extractLsb'_toNat, BitVec.toNat_and]
  exact (Nat.zero_or _).trans (Nat.and_two_pow_sub_one_eq_mod v.toNat 8).symm

/-- A 40-bit frequency is split over words 1 and 2 of its entry. -/
theorem freq_words (f : NodeFreq) :
    (f.extractLsb' 0 32).toNat + 2 ^ 32 * (0#24 ++ f.extractLsb' 32 8).toNat = f.toNat := by
  have hlow : (f.extractLsb' 0 32).toNat = f.toNat % 2 ^ 32 := BitVec.extractLsb'_toNat ..
  have hhigh : (0#24 ++ f.extractLsb' 32 8).toNat = f.toNat / 2 ^ 32 := by
    have := f.isLt
    rw [BitVec.toNat_append, BitVec.extractLsb'_toNat, Nat.shiftRight_eq_div_pow]
    exact (Nat.zero_or _).trans (Nat.mod_eq_of_lt (by omega))
  rw [hlow, hhigh, Nat.mod_add_div]

theorem append_eq_or (hi mid lo : BitVec 8) :
    hi ++ mid ++ 0#8 ++ lo = hi.setWidth 32 <<< 24 ||| mid.setWidth 32 <<< 16 ||| lo.setWidth 32 := by
  have h := BitVec.setWidth_append_append_append_eq_shiftLeft_setWidth_or
    (b := hi) (b' := mid) (b'' := 0#8) (b''' := lo) (w'''' := 32)
  rw [BitVec.setWidth_eq] at h
  rw [h]
  simp

theorem nmWord_children (f : NodeFreq) (l r : NodeIdx) :
    nmWord (some (.internal f l r)) 3 = (r.setWidth 32 <<< 16) ||| l.setWidth 32 := by
  have h := BitVec.setWidth_append_append_append_eq_shiftLeft_setWidth_or
    (b := 0#7) (b' := r) (b'' := 0#7) (b''' := l) (w'''' := 32)
  rw [BitVec.setWidth_eq] at h
  refine h.trans ?_
  simp

theorem nmWord_leaf (sym : Symbol) (f : NodeFreq) :
    nmWord (some (.leaf sym f)) 0 = 0x80000000#32 ||| sym.setWidth 32 := append_eq_or 0x80#8 0#8 sym

theorem ctWord_zero {c : BitString} (h : c.length ≤ Config.codeMax) :
    ctWord (some c) 0 = 0x80000000#32 ||| BitVec.ofNat 32 c.length := by
  rw [← BitVec.setWidth_ofNat_of_le_of_lt (w := 8) (by decide) (Nat.lt_succ_of_le h)]
  exact append_eq_or 0x80#8 0#8 (codeLen c)

theorem ictWord_zero {e : IctEntry} (h : e.code.length ≤ Config.codeMax) :
    ictWord (some e) 0 = 0x80000000#32 ||| (e.sym.setWidth 32 <<< 16) ||| BitVec.ofNat 32 e.code.length := by
  rw [← BitVec.setWidth_ofNat_of_le_of_lt (w := 8) (by decide) (Nat.lt_succ_of_le h)]
  exact append_eq_or 0x80#8 e.sym (codeLen e.code)

/-- Bit `j` of a code, in the word and at the place of 20_memory R50. -/
theorem codeWord_bit (c : BitString) (j : Nat) :
    (codeWord c (1 + j / 32)).getLsbD (31 - j % 32) = if j < c.length then bitAt c j else false := by
  rw [codeWord_getLsbD c _ _ (Nat.mod_lt j (by decide)), Nat.add_sub_cancel_left, Nat.div_add_mod]
  split_ifs with h
  · rfl
  · exact bitAt_of_ge (Nat.le_of_not_lt h)

theorem ctWord_code (c : BitString) (n : Nat) : ctWord (some c) (1 + n) = codeWord c (1 + n) := by
  rw [Nat.add_comm]; rfl

theorem ictWord_code (e : IctEntry) (n : Nat) : ictWord (some e) (1 + n) = codeWord e.code (1 + n) := by
  rw [Nat.add_comm]; rfl

/-- Settles O54: the offsets by the address map, the words by their images. -/
theorem codeFieldIsStoredFirstBitFirst : Obligations.CodeFieldIsStoredFirstBitFirst := by
  refine ⟨fun s k w hk => ⟨fun hw => ?_, fun h9 h16 => ?_⟩, fun w => ⟨rfl, rfl⟩, ?_⟩
  · have hk : k < 256 := hk
    rw [State.readAt, State.readAt, locate_ct _ (by omega), locate_ict _ (by omega), ctLoc_word hk hw, ictLoc_word hk hw]
    exact ⟨rfl, rfl⟩
  · have hk : k < 256 := hk
    have hres : 9 ≤ (16 * k + w) % 16 := by omega
    rw [State.readAt, State.readAt, locate_ct _ (by omega), locate_ict _ (by omega), ctLoc_reserved (.inr hres),
      ictLoc_reserved (.inr hres)]
    exact ⟨rfl, rfl⟩
  · rintro c e rfl
    refine ⟨fun h => ⟨ctWord_zero h, ictWord_zero h⟩, fun j _ => ?_⟩
    rw [ctWord_code, ictWord_code, codeWord_bit]
    exact ⟨rfl, rfl⟩

/-- Settles O55: the offsets by the address map, the words by their images. -/
theorem nodeEntryWordImages : Obligations.NodeEntryWordImages := by
  refine ⟨fun s i w hi hw => ?_, fun c off h hoff => by rw [locate_nm c hoff, nmLoc_of_ge h], fun w => rfl,
    fun sym f => ⟨nmWord_leaf sym f, freq_words f, rfl⟩, fun f l r => ⟨rfl, freq_words f, nmWord_children f l r⟩⟩
  have hi : i < 511 := hi
  rw [locate_nm _ (by omega), nmLoc_word hi hw]
  rfl

/-! ### Registers, queue and buffers (10_state R14 to R26; 20_memory R43, R46, R49) -/

theorem readAt_pq (s : State) {k : Nat} (hk : k < 256) : s.readAt 3 k = ((s.pq[k]?).getD 0).setWidth 32 := by
  rw [State.readAt, locate_pq _ (by omega), pqLoc_of_lt hk]
  rfl

theorem readAt_ib {s : State} (hc : s.cfg.wf = true) {j : Nat} (hj : j < s.cfg.ibCap) :
    s.readAt 6 j = byteWord (s.ibByte j) := by
  rw [State.readAt, locate_ib_of_lt hc hj]
  rfl

theorem readAt_ob {s : State} (hc : s.cfg.wf = true) {j : Nat} (hj : j < s.cfg.obCap) :
    s.readAt 7 j = byteWord (s.obByte j) := by
  rw [State.readAt, locate_ob_of_lt hc hj]
  rfl

theorem obByte_live {s : State} {j : Nat} (hj : j < s.outLen.toNat) {b : Byte} (hb : s.ob[j]? = some b) :
    s.obByte j = b := by
  rw [State.obByte, if_pos hj, hb]
  rfl

/-- Settles O53: the registers by their addresses, then the queue, the buffers, and the live entries of a good state. -/
theorem registersQueueAndBuffersRead : Obligations.RegistersQueueAndBuffersRead := by
  intro s
  refine ⟨⟨rfl, statusWord_fields s, rfl, rfl, rfl, rfl, rfl, rfl, rfl, fun hn => ?_, rfl, fun hn => ?_⟩,
    fun k hk => ⟨fun q hq => ?_, fun hk' => ?_⟩, fun hc => ⟨fun j hj => ?_, fun j hj => ⟨?_, fun hlive b hb => ?_⟩⟩, ?_⟩
  · exact BitVec.setWidth_ofNat_of_le_of_lt (w := 9) (by decide) (Nat.lt_of_le_of_lt hn (by decide))
  · exact BitVec.setWidth_ofNat_of_le_of_lt (w := 9) (by decide) (Nat.lt_of_le_of_lt hn (by decide))
  · rw [readAt_pq s hk, hq]; rfl
  · rw [readAt_pq s hk, List.getElem?_eq_none hk']; rfl
  · rw [readAt_ib hc hj, byteWord_eq_setWidth]
  · rw [readAt_ob hc hj, byteWord_high]
  · rw [readAt_ob hc hj, obByte_live hlive hb, byteWord_eq_setWidth]
  · rintro ⟨-, -, -, -, hlen, hcap⟩ j hj
    have hob : j < s.ob.length := hj.trans_le hlen
    exact ⟨hob.trans_le hcap, _, List.getElem?_eq_getElem hob⟩

/-- Settles O50: the write is a store to IB, and the word read back is the byte stored. -/
theorem inputBufferWriteStoresOneByte : Obligations.InputBufferWriteStoresOneByte := by
  intro s j v rest he hc hj hs
  have hbyte (k : Nat) := State.ibByte_writeIb { s with script := rest, cp := s.cp + 1 } j (v.extractLsb' 0 8) k
  refine ⟨_, step_wr_loc he hs (locate_ib_of_lt hc hj), rfl, (hbyte j).trans (if_pos rfl), ?_,
    fun k hk => (hbyte k).trans (if_neg hk)⟩
  exact (congrArg byteWord ((hbyte j).trans (if_pos rfl))).trans (byteWord_low_byte v)

/-! ### A host that goes on while the engine is busy (20_memory R54) -/

/-- The two outcomes of the free choice: the command is still in flight, or it has completed. -/
theorem settle_busy {s : State} {w : Word} (h : s.engine = some w) :
    settle s = .next { s with pick := s.pick + 1 } ∨ settle s = runWord w { s with pick := s.pick + 1 } := by
  unfold settle
  rw [h]
  dsimp only
  split_ifs
  · exact .inr rfl
  · exact .inl rfl

/-- Settles O8: the free choice decides between the two. -/
theorem unpolledWriteIsDroppedUnlessCompleted : Obligations.UnpolledWriteIsDroppedUnlessCompleted := by
  intro s w a v rest he hs
  have hstep : step s = andThen (settle s.advance) (fun u => .next (u.memWrite a v)) := by
    simp only [step, machineStep, hs, runLine]
  rw [hstep]
  obtain hflight | hdone := settle_busy (s := s.advance) he
  · left
    rw [hflight, andThen, memWrite_busy (by simp only [State.busy, State.advance_engine, he, Option.isSome_some]),
      advance_of_script hs]
    rfl
  · right
    rw [hdone, advance_of_script hs]

theorem memRead_busy_status {s : State} (hb : s.busy = true) {a : Addr} (ha : locate s.cfg a = .status) :
    s.memRead a = { s with rdata := some s.statusWord } := by
  rw [State.memRead, if_pos hb, if_pos ha]

theorem memRead_busy_other {s : State} (hb : s.busy = true) {a : Addr} (ha : locate s.cfg a ≠ .status) :
    s.memRead a = { s with rdata := some (Config.freeBusyWord s.pick), pick := s.pick + 1 } := by
  rw [State.memRead, if_pos hb, if_neg ha]

/-- Settles O9: by the address, with the flags of a busy engine from the invariant. -/
theorem busyReadReturnsStatusOrAnyWord : Obligations.BusyReadReturnsStatusOrAnyWord := by
  rintro s a ⟨-, ⟨hflags, -⟩, -⟩ hb
  obtain ⟨hdone, herr⟩ := hflags hb
  by_cases ha : locate s.cfg a = .status
  · obtain ⟨h0, h1, h2, hphase, h5, hhigh⟩ := statusWord_fields s
    refine ⟨s.statusWord, ?_, fun _ => ⟨h0.trans hb, h1.trans hdone, h2.trans herr, hphase, h5, hhigh⟩⟩
    rw [memRead_busy_status hb ha]
  · refine ⟨Config.freeBusyWord s.pick, ?_, fun h => absurd h ha⟩
    rw [memRead_busy_other hb ha]

end Sys2Proof.Machine

/-! SUPPORT. The statements of 30_encoding: the command words of the opcode map, the words that are no command, and the
line that writes a word to CMD and waits. -/

namespace Sys2Proof.Machine

/-! ### The decoder and the encoder (30_encoding R60, R62) -/

/-- What holds of the word of each command holds of every command. -/
theorem encoding_laws : ∀ i : Instr, Laws.Encoding.Statement i
  | .clr => Laws.Encoding.clr
  | .buildt => Laws.Encoding.buildt
  | .derive => Laws.Encoding.derive
  | .construct => Laws.Encoding.construct
  | .enc => Laws.Encoding.enc
  | .encs => Laws.Encoding.encs
  | .dec => Laws.Encoding.dec
  | .decs => Laws.Encoding.decs

theorem opcodeField_encode (i : Instr) : opcodeField (encode i) = opcodeOf i := by
  obtain ⟨-, -, hop, -⟩ := encoding_laws i
  exact hop

theorem decode_encode (i : Instr) : decode (encode i) = .ok i := by
  obtain ⟨-, -, -, -, hdecode⟩ := encoding_laws i
  exact hdecode

/-- Settles O3: each of the five words is the encoding of its command. -/
theorem wordsOfTheOpcodeMapDecode : Obligations.WordsOfTheOpcodeMapDecode :=
  ⟨decode_encode .clr, decode_encode .buildt, decode_encode .construct, decode_encode .encs, decode_encode .dec⟩

/-- The decoder reads the opcode map backwards. -/
theorem opcodeOf_of_decodeOpcode {op : BitVec 8} {i : Instr} (h : decodeOpcode op = some i) : opcodeOf i = op := by
  unfold decodeOpcode at h
  split_ifs at h with hop hop hop hop hop hop hop hop
  all_goals
    cases h
    exact hop.symm

/-- Everything the decoder can answer, with what the two fields of the word then hold. -/
theorem decode_cases (w : Word) :
    (∃ i, decode w = .ok i ∧ encode i = w) ∨
    (decode w = .error .reservedBits ∧ zeroField w ≠ 0#24) ∨
    (decode w = .error .reservedOpcode ∧ zeroField w = 0#24 ∧ decodeOpcode (opcodeField w) = none) := by
  by_cases hz : zeroField w = 0#24
  · cases ho : decodeOpcode (opcodeField w) with
    | none => exact .inr (.inr ⟨by simp only [decode, hz, ho, ne_eq, not_true_eq_false, if_false], hz, rfl⟩)
    | some i =>
      refine .inl ⟨i, by simp only [decode, hz, ho, ne_eq, not_true_eq_false, if_false], ?_⟩
      calc encode i = zeroField w ++ opcodeField w := by rw [encode, opcodeOf_of_decodeOpcode ho, hz]
        _ = w := BitVec.extractLsb'_append_extractLsb'
  · exact .inr (.inl ⟨if_pos hz, hz⟩)

theorem decode_eq_ok_iff {w : Word} {i : Instr} : decode w = .ok i ↔ w = encode i := by
  refine ⟨fun h => ?_, fun h => h ▸ decode_encode i⟩
  obtain ⟨j, hj, rfl⟩ | ⟨hbits, -⟩ | ⟨hop, -⟩ := decode_cases w
  · cases hj.symm.trans h; rfl
  · cases hbits.symm.trans h
  · cases hop.symm.trans h

/-- Settles O2: a word that decodes to a command is that command's encoding. -/
theorem decodeOfEncodeIsTheCommand : Obligations.DecodeOfEncodeIsTheCommand :=
  ⟨fun i _ => decode_encode i, fun _ _ h => (decode_eq_ok_iff.1 h).symm⟩

/-- The mask of every row of the opcode map is all ones, and the match value is the encoding. -/
theorem decode_eq_ok_iff_masked (w : Word) (i : Instr) : decode w = .ok i ↔ w &&& 0xFFFFFFFF#32 = encode i := by
  have hmask : w &&& 0xFFFFFFFF#32 = w := BitVec.and_allOnes
  rw [decode_eq_ok_iff, hmask]

/-- Settles O1: the bits of the opcodes command by command, then the row of each command. -/
theorem commandIffMaskedWordIsMatch : Obligations.CommandIffMaskedWordIsMatch := by
  refine ⟨fun i => ?_, fun w => ?_⟩
  · cases i <;> decide
  · have hrow := decode_eq_ok_iff_masked w
    exact ⟨hrow .clr, hrow .buildt, hrow .derive, hrow .construct, hrow .enc, hrow .encs, hrow .dec, hrow .decs⟩

/-! ### Words that are no command (30_encoding R63; 60 R125) -/

theorem opcodeOf_mem (i : Instr) :
    opcodeOf i ∈ [0x01#8, 0x02#8, 0x03#8, 0x04#8, 0x08#8, 0x09#8, 0x0A#8, 0x0B#8] := by
  cases i <;> decide

/-- The fault of a word that is no command, by the decoder's answer (30_encoding R63). -/
def illegalCause : DecodeError → CmdFault
  | .reservedBits => .reservedBits
  | .reservedOpcode => .reservedOpcode

theorem illegalWord_eq_afterFault (e : DecodeError) (w : Word) (s : State) :
    illegalWord e w s = s.afterFault (illegalCause e).errWord w := by
  cases e <;> rfl

theorem decode_of_zeroField_ne {w : Word} (h : w.extractLsb' 8 24 ≠ 0#24) : decode w = .error .reservedBits :=
  if_pos h

theorem decode_of_undefined_opcode {w : Word} (hz : w.extractLsb' 8 24 = 0#24)
    (ho : w.extractLsb' 0 8 ∉ [0x01#8, 0x02#8, 0x03#8, 0x04#8, 0x08#8, 0x09#8, 0x0A#8, 0x0B#8]) :
    decode w = .error .reservedOpcode := by
  obtain ⟨i, -, rfl⟩ | ⟨-, hne⟩ | ⟨hop, -⟩ := decode_cases w
  · have hmem := opcodeOf_mem i
    rw [← opcodeField_encode] at hmem
    exact absurd hmem ho
  · exact absurd hz hne
  · exact hop

/-! ### Lines of a host with an idle engine (30_encoding R65) -/

section
variable {s : State} {w : Word} {i : Instr} {e : DecodeError} {rest : List Line}

theorem runWord_of_ok (h : decode w = .ok i) (s : State) : runWord w s = exec i s := by
  rw [runWord, h]

theorem runWord_of_error (h : decode w = .error e) (s : State) :
    runWord w s = .next (s.afterFault (illegalCause e).errWord w) := by
  rw [runWord, h]
  exact congrArg _ (illegalWord_eq_afterFault e w s)

theorem presentWord_of_ok (h : decode w = .ok i) (s : State) : s.presentWord w = s.accept w := by
  rw [State.presentWord, h]

theorem presentWord_of_error (h : decode w = .error e) (s : State) :
    s.presentWord w = s.afterFault (illegalCause e).errWord w := by
  rw [State.presentWord, h]
  exact illegalWord_eq_afterFault e w s

/-- A bare write to CMD presents its word. -/
theorem step_wr_cmd (he : s.engine = none) (hs : s.script = .wr (addrAt 0 0) w :: rest) :
    step s = .next (State.presentWord { s with script := rest, cp := s.cp + 1 } w) :=
  step_wr_loc he hs rfl

/-- The line with the wait runs its word and reads STATUS. -/
theorem step_cmd_statusRead (he : s.engine = none) (hs : s.script = .cmd w :: rest) :
    step s = andThen (runWord w { s with script := rest, cp := s.cp + 1 }) (fun t => .next t.statusRead) := by
  rw [step_cmd he hs, advance_of_script hs]
  rfl

/-- Both lines that write a word that is no command end in its fault, and the line with the wait reads STATUS. -/
theorem step_illegal_word (he : s.engine = none) (h : decode w = .error e) :
    (s.script = .wr (addrAt 0 0) w :: rest →
      step s = .next (State.afterFault { s with script := rest, cp := s.cp + 1 } (illegalCause e).errWord w)) ∧
    (s.script = .cmd w :: rest →
      step s = .next
        (State.afterFault { s with script := rest, cp := s.cp + 1 } (illegalCause e).errWord w).statusRead) := by
  refine ⟨fun hs => ?_, fun hs => ?_⟩
  · rw [step_wr_cmd he hs, presentWord_of_error h]
  · rw [step_cmd_statusRead he hs, runWord_of_error h, andThen]

theorem step_command_word (he : s.engine = none) (hs : s.script = .cmd w :: rest) (h : decode w = .ok i) :
    step s = andThen (exec i { s with script := rest, cp := s.cp + 1 }) (fun t => .next t.statusRead) := by
  rw [step_cmd_statusRead he hs, runWord_of_ok h]

end

/-- Settles O4: by the two causes for which the decoder answers no command. -/
theorem illegalWordFaultsAndChangesNothingElse : Obligations.IllegalWordFaultsAndChangesNothingElse := by
  rintro s w err rest he (⟨hz, rfl⟩ | ⟨hz, ho, rfl⟩)
  · exact step_illegal_word he (decode_of_zeroField_ne hz)
  · exact step_illegal_word he (decode_of_undefined_opcode hz ho)

theorem withFetchWord_encode (s : State) (nbits : Nat) (i : Instr) :
    s.withFetchWord nbits (encode i).toNat = s.placeWord (encode i) := by
  rw [State.withFetchWord, BitVec.ofNat_toNat, BitVec.setWidth_eq]

/-- Settles O5: the line of a decoded word, which the placed line is. -/
theorem stepRunsTheDecodedCommand : Obligations.StepRunsTheDecodedCommand := by
  refine ⟨fun s w i rest => step_command_word, fun s nbits i => ?_⟩
  rw [withFetchWord_encode]
  exact step_command_word (s := s.placeWord (encode i)) rfl rfl (decode_encode i)

/-! ### A write to CMD and the wait as two lines (30_encoding R65) -/

theorem presentWord_script (s : State) (w : Word) : (s.presentWord w).script = s.script := by
  obtain ⟨_, _, _, _, _, h⟩ := presentWord_frame s w
  rw [h]

theorem presentWord_advance (s : State) (w : Word) : (s.presentWord w).advance = s.advance.presentWord w := by
  cases h : decode w with
  | ok i => rw [presentWord_of_ok h, presentWord_of_ok h]; rfl
  | error e => rw [presentWord_of_error h, presentWord_of_error h]; rfl

/-- The wait after a write to CMD ends where the command's line ends. -/
theorem waitLine_presentWord {s : State} (he : s.engine = none) (w : Word) :
    waitLine (s.presentWord w) = commandLine w s := by
  rw [commandLine, memWrite_idle he]
  rfl

/-- A wait ends with the engine idle and the STATUS word read. -/
theorem waitLine_ends {s t : State} (h : waitLine s = .next t) :
    t.busy = false ∧ t.rdata = some (t.readLoc .status) := by
  obtain ⟨u, hu, rfl⟩ := waitLine_next h
  have hidle : u.engine = none := finishFlight_idle hu
  exact ⟨congrArg Option.isSome hidle, rfl⟩

/-- Settles O7: the state after the write is the idle state with the word presented. -/
theorem writeThenWaitIsTheCommandLine : Obligations.WriteThenWaitIsTheCommandLine := by
  intro s w he
  have hwait := step_wait (presentWord_script { s with script := [.wait], cp := s.cp + 1 } w)
  refine ⟨_, step_wr_cmd he rfl, presentWord_script _ w, fun i hi => presentWord_of_ok hi _, ?_, fun u hu => ?_⟩
  · have hidle : (State.advance { s with script := [.wait], cp := s.cp + 1 }).engine = none := he
    rw [hwait, presentWord_advance, waitLine_presentWord hidle, commandLine_idle hidle]
    exact (step_cmd (s := { s with script := [.cmd w], cp := s.cp + 1 }) he rfl).symm
  · exact waitLine_ends (hwait.symm.trans hu)

end Sys2Proof.Machine

/-! SUPPORT. The statements of 40_control: the completion of every command, the phase table, CLR, and what no command
changes. -/

namespace Sys2Proof.Machine

/-! ### CLR (40 R72) -/

/-- Settles O11: CLR is legal in every phase and its body completes. -/
theorem clrEmptiesTablesAndKeepsInputs : Obligations.ClrEmptiesTablesAndKeepsInputs := by
  intro s
  have hbody : bodyOf .clr (s.accept (encode .clr)) = .done _ := rfl
  exact exec_done rfl hbody

/-! ### The completion of every command (40 R70) -/

/-- Settles O40: a completion without a fault clears the fault registers, and fault entry latches a code that is never
0. -/
theorem everyCommandEndsInOneCompletion : Obligations.EveryCommandEndsInOneCompletion := by
  intro i s t h
  obtain ⟨u, -, hbody, rfl⟩ | ⟨f, pos, -, rfl⟩ := exec_next h
  · obtain ⟨-, -, herr, -⟩ := bodyOf_done_frame hbody
    obtain ⟨-, hcode, -⟩ := statusOk_complete (s := u) herr
    exact ⟨rfl, rfl, hcode rfl, fun _ => ⟨rfl, rfl⟩⟩
  · obtain ⟨-, hcode, -⟩ := statusOk_faultEntry (s.accept (encode i)) (Instr.isCodec i) f pos
    have hdone := State.faultEntry_doneFlag (s.accept (encode i)) (Instr.isCodec i) f pos
    have herr := State.faultEntry_errFlag (s.accept (encode i)) (Instr.isCodec i) f pos
    refine ⟨?_, hdone, hcode hdone, fun hnone => absurd (herr.symm.trans hnone) Bool.noConfusion⟩
    rw [State.busy, State.faultEntry_engine, Option.isSome_none]

/-! ### The phase table (40 R71) -/

/-- The commands a phase allows. -/
theorem phaseFault_eq_none_iff (i : Instr) (p : Phase) :
    phaseFault i p = none ↔
      i = .clr ∨ ((i = .buildt ∨ i = .construct) ∧ p = .empty) ∨ (i = .derive ∧ p = .tree) ∨
        ((i = .enc ∨ i = .encs ∨ i = .dec ∨ i = .decs) ∧ p = .ready) := by
  cases i <;> cases p <;> decide

theorem phaseFault_build {i : Instr} {p : Phase} (hi : i = .buildt ∨ i = .construct) (hp : p ≠ .empty) :
    phaseFault i p = some (.wrongPhase, encode i) := by
  obtain rfl | rfl := hi
  all_goals cases p with
    | empty => exact absurd rfl hp
    | tree => rfl
    | ready => rfl

theorem phaseFault_codec {i : Instr} {p : Phase} (hi : i = .enc ∨ i = .encs ∨ i = .dec ∨ i = .decs)
    (hp : p ≠ .ready) : phaseFault i p = some (.wrongPhase, encode i) := by
  obtain rfl | rfl | rfl | rfl := hi
  all_goals cases p with
    | empty => rfl
    | tree => rfl
    | ready => exact absurd rfl hp

theorem exec_illegal_plain {i : Instr} {s : State} {f : CmdFault} {pos : Word} (hi : Instr.isCodec i = false)
    (h : phaseFault i s.phase = some (f, pos)) : exec i s = .next (s.afterFault f.errWord pos) := by
  rw [exec_illegal h, hi, faultEntry_plain]

theorem exec_illegal_codec {i : Instr} {s : State} {f : CmdFault} {pos : Word} (hi : Instr.isCodec i = true)
    (h : phaseFault i s.phase = some (f, pos)) : exec i s = .next (s.afterCodecFault f.errWord pos) := by
  rw [exec_illegal h, hi, faultEntry_codec]

/-- The two faults of the phase table, which no body raises (60 R126). -/
def CmdFault.ofPhase : CmdFault → Bool
  | .wrongPhase => true
  | .malformedRoot => true
  | _ => false

theorem CmdFault.errWord_of_not_ofPhase {f : CmdFault} (h : f.ofPhase = false) :
    f.errWord ≠ 0x0305 ∧ f.errWord ≠ 0x0301 := by
  revert h; cases f <;> decide

theorem tableFault_not_ofPhase {ft : Table Word} {f : CmdFault} {pos : Word} (h : tableFault ft = some (f, pos)) :
    f.ofPhase = false := by
  cases ft with
  | nil => cases h; rfl
  | cons e r =>
    obtain ⟨x, -, hx⟩ := Option.map_eq_some_iff.1 h
    cases hx; rfl

theorem encodeWith_not_ofPhase {need : BitString → Nat} {out : BitString → List Byte} {s : State} {f : CmdFault}
    {pos : Word} (h : encodeWith need out s = .raise f pos) : f.ofPhase = false := by
  obtain ⟨-, rfl, -⟩ | ⟨-, _, -, rfl, -⟩ | ⟨-, -, -, rfl, -⟩ := encodeWith_raise h <;> rfl

theorem decodeBits_not_ofPhase {b : BitString} {s : State} {f : CmdFault} {pos : Word}
    (h : decodeBits b s = .raise f pos) : f.ofPhase = false := by
  obtain ⟨_, -, rfl, -⟩ | ⟨_, -, -, rfl, -⟩ := decodeBits_raise h <;> rfl

/-- The body of a command raises no fault of the phase table. -/
theorem bodyOf_raise_not_ofPhase {i : Instr} {s : State} {f : CmdFault} {pos : Word}
    (h : bodyOf i s = .raise f pos) : f.ofPhase = false := by
  cases i with
  | clr => cases h
  | buildt => exact tableFault_not_ofPhase (buildtBody_raise h)
  | derive => exact absurd h (deriveBody_ne_raise s f pos)
  | construct => exact tableFault_not_ofPhase (buildtBody_raise (constructBody_raise h))
  | enc => exact encodeWith_not_ofPhase (need := fun b => ceilDiv b.length 8) (out := packBits) h
  | encs => exact encodeWith_not_ofPhase h
  | dec =>
    obtain ⟨-, rfl, -⟩ | ⟨-, -, rfl, -⟩ | ⟨-, -, hd⟩ := decBody_raise h
    · rfl
    · rfl
    · exact decodeBits_not_ofPhase hd
  | decs =>
    obtain ⟨-, rfl, -⟩ | ⟨-, _, -, rfl, -⟩ | ⟨-, -, hd⟩ := decsBody_raise h
    · rfl
    · rfl
    · exact decodeBits_not_ofPhase hd

/-- A command its phase allows ends without a fault of the phase table. -/
theorem exec_legal_errReg {i : Instr} {s t : State} (hlegal : phaseFault i s.phase = none) (h : exec i s = .next t) :
    t.errReg ≠ 0x0305 ∧ t.errReg ≠ 0x0301 := by
  obtain ⟨u, -, -, rfl⟩ | ⟨f, pos, hillegal | ⟨-, hbody⟩, rfl⟩ := exec_next h
  · rw [State.complete_errReg]; decide
  · exact nomatch hlegal.symm.trans hillegal
  · rw [State.faultEntry_errReg]; exact CmdFault.errWord_of_not_ofPhase (bodyOf_raise_not_ofPhase hbody)

/-- Settles O42: an illegal command takes the fault of its table entry, and no legal one takes such a fault. -/
theorem phaseTableDecidesLegality : Obligations.PhaseTableDecidesLegality := by
  intro i s
  refine ⟨fun hi hp => ?_, ?_, ?_, fun hi hp => ?_, fun t h hlegal => ?_⟩
  · have hcodec : Instr.isCodec i = false := by obtain rfl | rfl := hi <;> rfl
    exact exec_illegal_plain hcodec (phaseFault_build hi hp)
  · rintro rfl hp
    have hfault : phaseFault .derive s.phase = some (.malformedRoot, 0) := by rw [hp]; rfl
    exact exec_illegal_plain rfl hfault
  · rintro rfl hp
    have hfault : phaseFault .derive s.phase = some (.wrongPhase, encode .derive) := by rw [hp]; rfl
    exact exec_illegal_plain rfl hfault
  · exact exec_illegal_codec ((isCodec_iff i).2 hi) (phaseFault_codec hi hp)
  · exact exec_legal_errReg ((phaseFault_eq_none_iff i s.phase).2 hlegal) h

/-! ### What no command changes (40 R72, 41 R75, 42 R90, R95, 43 R100, R105, 44 R110, R115) -/

/-- What every command keeps: the configuration, the host's own side and its registers, and IB. -/
theorem exec_keeps_inputs {i : Instr} {s t : State} (h : exec i s = .next t) :
    t.cfg = s.cfg ∧ t.herrFlag = s.herrFlag ∧ t.script = s.script ∧ t.cp = s.cp ∧ t.inLen = s.inLen ∧
      t.inBits = s.inBits ∧ t.ib = s.ib ∧ t.ibTag = s.ibTag := by
  obtain ⟨u, -, hbody, rfl⟩ | ⟨f, pos, -, rfl⟩ := exec_next h
  · obtain ⟨hcfg, -, -, hherr, hlen, hbits, hib, htag, -, hscript, hcp, -⟩ := bodyOf_done_frame hbody
    exact ⟨hcfg, hherr, hscript, hcp, hlen, hbits, hib, htag⟩
  · simp

/-- What a completing body keeps of the tables, their counters and the output, by the locations its rule names: OUT_LEN
stands for the output, ROOT for the tree, one word of CT for both code tables. -/
theorem bodyOf_done_unwritten {i : Instr} {s u : State} (h : bodyOf i s = .done u) :
    (Loc.writtenBy i .outLen = false →
      u.outLen = s.outLen ∧ u.outBits = s.outBits ∧ u.ob = s.ob ∧ u.obTag = s.obTag) ∧
    (Loc.writtenBy i .root = false → u.nsym = s.nsym ∧ u.root = s.root ∧ u.nm = s.nm ∧ u.pq = s.pq) ∧
    (Loc.writtenBy i (.ct 0 0) = false → u.ct = s.ct ∧ u.ict = s.ict) := by
  cases i with
  | clr => simp [Loc.writtenBy]
  | buildt => obtain ⟨-, rfl⟩ := buildtBody_done h; simp [Loc.writtenBy]
  | derive => obtain ⟨es, -, rfl⟩ := deriveBody_done h; simp [Loc.writtenBy]
  | construct =>
    obtain ⟨v, hv, hu⟩ := constructBody_done h
    obtain ⟨-, rfl⟩ := buildtBody_done hv
    obtain ⟨es, -, rfl⟩ := deriveBody_done hu
    simp [Loc.writtenBy]
  | enc => obtain ⟨o, b, rfl, -⟩ := codecBody_done rfl h; simp [Loc.writtenBy, Instr.isCodec]
  | encs => obtain ⟨o, b, rfl, -⟩ := codecBody_done rfl h; simp [Loc.writtenBy, Instr.isCodec]
  | dec => obtain ⟨o, b, rfl, -⟩ := codecBody_done rfl h; simp [Loc.writtenBy, Instr.isCodec]
  | decs => obtain ⟨o, b, rfl, -⟩ := codecBody_done rfl h; simp [Loc.writtenBy, Instr.isCodec]

section
variable {i : Instr} {s t : State} (h : exec i s = .next t)
include h

theorem exec_keeps_ft (hi : i ≠ .clr) : t.ft = s.ft := by
  obtain ⟨u, -, hbody, rfl⟩ | ⟨f, pos, -, rfl⟩ := exec_next h
  · obtain ⟨-, -, -, -, -, -, -, -, -, -, -, -, hft⟩ := bodyOf_done_frame hbody
    exact hft hi
  · simp

theorem exec_keeps_output (hi : Loc.writtenBy i .outLen = false) :
    t.outLen = s.outLen ∧ t.outBits = s.outBits ∧ t.ob = s.ob ∧ t.obTag = s.obTag := by
  obtain ⟨u, -, hbody, rfl⟩ | ⟨f, pos, -, rfl⟩ := exec_next h
  · exact (bodyOf_done_unwritten hbody).1 hi
  · have hcodec : Instr.isCodec i = false := (Bool.or_eq_false_iff.1 hi).2
    simp [hcodec]

theorem exec_keeps_tree (hi : Loc.writtenBy i .root = false) :
    t.nsym = s.nsym ∧ t.root = s.root ∧ t.nm = s.nm ∧ t.pq = s.pq := by
  obtain ⟨u, -, hbody, rfl⟩ | ⟨f, pos, -, rfl⟩ := exec_next h
  · exact (bodyOf_done_unwritten hbody).2.1 hi
  · simp

theorem exec_keeps_codes (hi : Loc.writtenBy i (.ct 0 0) = false) : t.ct = s.ct ∧ t.ict = s.ict := by
  obtain ⟨u, -, hbody, rfl⟩ | ⟨f, pos, -, rfl⟩ := exec_next h
  · exact (bodyOf_done_unwritten hbody).2.2 hi
  · simp

end

/-- A location that a command's rule does not name reads as before. -/
theorem exec_readLoc {i : Instr} {s t : State} {l : Loc} (h : exec i s = .next t) (hl : l.writtenBy i = false) :
    t.readLoc l = s.readLoc l := by
  obtain ⟨-, -, -, -, hinLen, hinBits, hib, hibTag⟩ := exec_keeps_inputs h
  have hft (hi : decide (i = .clr) = false) : t.ft = s.ft := exec_keeps_ft h (of_decide_eq_false hi)
  cases l with
  | cmd => rfl
  | status => cases hl
  | err => cases hl
  | errPos => cases hl
  | inLen => exact hinLen
  | inBits => exact hinBits
  | outLen => simp only [State.readLoc, exec_keeps_output h hl]
  | outBits => simp only [State.readLoc, exec_keeps_output h hl]
  | nsym => simp only [State.readLoc, exec_keeps_tree h hl]
  | nnodes => simp only [State.readLoc, State.nnodes, exec_keeps_tree h hl]
  | root => simp only [State.readLoc, exec_keeps_tree h hl]
  | pqLen => simp only [State.readLoc, State.pqLen, exec_keeps_tree h hl]
  | ftFreq k => simp only [State.readLoc, State.ftFreq, hft hl]
  | ftPresent k => simp only [State.readLoc, State.ftPresent, hft hl]
  | nm j w => simp only [State.readLoc, exec_keeps_tree h hl]
  | pq k => simp only [State.readLoc, exec_keeps_tree h hl]
  | ct k w => simp only [State.readLoc, exec_keeps_codes h hl]
  | ict j w => simp only [State.readLoc, exec_keeps_codes h hl]
  | ib j => simp only [State.readLoc, State.ibByte, hib, hibTag]
  | ob j => simp only [State.readLoc, State.obByte, exec_keeps_output h hl]
  | reserved => rfl

/-- Settles O45, location by location. -/
theorem commandsLeaveOtherLocationsAlone : Obligations.CommandsLeaveOtherLocationsAlone := by
  intro i s t l h hl
  obtain ⟨hcfg, hherr, hscript, hcp, -⟩ := exec_keeps_inputs h
  exact ⟨exec_readLoc h hl, hherr, hcfg, hscript, hcp⟩

end Sys2Proof.Machine

/-! SUPPORT. The statements of 41_tree_builder: the tables BUILDT and CONSTRUCT reject, the leaves and their order, the
merge step and its loop, and the counters and the total frequency of the finished tree. -/

namespace Sys2Proof.Machine

/-! ### Validation (41 R76) -/

/-- In a canonical table the present entries are the listed ones, each with the frequency it reads. -/
theorem ftPresent_iff_mem {s : State} (hw : Table.wf Config.alphabet s.ft) (k : Nat) :
    s.ftPresent k = true ↔ (k, s.ftFreq k) ∈ s.ft := by
  rw [← Table.get?_eq_some hw, State.ftPresent, State.ftFreq]
  cases Table.get? s.ft k <;> simp

theorem ft_read_of_mem {s : State} (hw : Table.wf Config.alphabet s.ft) {e : Nat × Word} (he : e ∈ s.ft) :
    s.ftPresent e.1 = true ∧ s.ftFreq e.1 = e.2 := by
  rw [State.ftPresent, State.ftFreq, (Table.get?_eq_some hw e.1 e.2).2 he]
  exact ⟨rfl, rfl⟩

theorem ft_eq_nil_of_absent {s : State} (hw : Table.wf Config.alphabet s.ft) (h : ∀ k, s.ftPresent k = false) :
    s.ft = [] :=
  Table.ext hw (Table.nil_wf _) fun k => by simpa [State.ftPresent] using h k

/-- A table is legal when an entry is present and every present entry is positive. -/
theorem legalTable_of_present {s : State} (hw : Table.wf Config.alphabet s.ft) (hne : ∃ k, s.ftPresent k = true)
    (hpos : ∀ k, s.ftPresent k = true → 0 < sint32 (s.ftFreq k)) : LegalTable s.ft := by
  obtain ⟨k, hk⟩ := hne
  refine ⟨List.ne_nil_of_mem ((ftPresent_iff_mem hw k).1 hk), fun e he => ?_⟩
  obtain ⟨hpresent, hfreq⟩ := ft_read_of_mem hw he
  exact hfreq ▸ hpos e.1 hpresent

theorem tableFault_of_ne_nil {ft : Table Word} (h : ft ≠ []) :
    tableFault ft = (ft.find? (fun e => nonpositive e.2)).map (fun e => (.nonpositiveFreq, BitVec.ofNat 32 e.1)) := by
  cases ft with
  | nil => exact absurd rfl h
  | cons e r => rfl

/-- The fault of a canonical table names its smallest entry that is not positive: those listed before are smaller
symbols. -/
theorem tableFault_of_nonpositive {n : Nat} {ft : Table Word} (hw : Table.wf n ft) {k : Nat} {f : Word}
    (hk : (k, f) ∈ ft) (hf : sint32 f ≤ 0) (hpos : ∀ e ∈ ft, e.1 < k → 0 < sint32 e.2) :
    tableFault ft = some (.nonpositiveFreq, BitVec.ofNat 32 k) := by
  obtain ⟨before, after, rfl⟩ := List.append_of_mem hk
  have hbefore : ∀ e ∈ before, nonpositive e.2 = false := fun e he =>
    nonpositive_eq_false.2 (hpos e (by simp [he]) ((List.pairwise_append.1 hw.1).2.2 e he (k, f) (by simp)))
  have hfind : (before ++ (k, f) :: after).find? (fun e => nonpositive e.2) = some (k, f) :=
    List.find?_eq_some_iff_append.2
      ⟨decide_eq_true hf, before, after, rfl, fun e he => by rw [hbefore e he, Bool.not_false]⟩
  rw [tableFault_of_ne_nil (List.ne_nil_of_mem hk), hfind, Option.map_some]

theorem phaseFault_build_empty {i : Instr} {p : Phase} (hi : i = .buildt ∨ i = .construct) (hp : p = .empty) :
    phaseFault i p = none :=
  (phaseFault_eq_none_iff i p).2 (.inr (.inl ⟨hi, hp⟩))

/-- BUILDT and CONSTRUCT raise the fault of the frequency table and no other. -/
theorem bodyOf_build_raise_iff {i : Instr} (hi : i = .buildt ∨ i = .construct) (s : State) (f : CmdFault)
    (pos : Word) : bodyOf i s = .raise f pos ↔ tableFault s.ft = some (f, pos) := by
  obtain rfl | rfl := hi
  · exact ⟨buildtBody_raise, buildtBody_of_fault⟩
  · refine ⟨fun h => buildtBody_raise (constructBody_raise h), fun h => ?_⟩
    rw [bodyOf, constructBody, buildtBody_of_fault h]

theorem exec_build_fault {i : Instr} {s : State} {f : CmdFault} {pos : Word} (hi : i = .buildt ∨ i = .construct)
    (hp : s.phase = .empty) (h : tableFault s.ft = some (f, pos)) :
    exec i s = .next (s.afterFault f.errWord pos) := by
  have hplain : Instr.isCodec i = false := by obtain rfl | rfl := hi <;> rfl
  have hbody : bodyOf i (s.accept (encode i)) = .raise f pos := (bodyOf_build_raise_iff hi _ f pos).2 h
  rw [exec_raise (phaseFault_build_empty hi hp) hbody, hplain, faultEntry_plain]

/-- On a legal table in phase EMPTY neither BUILDT nor CONSTRUCT ends in a fault. -/
theorem exec_build_errFlag {i : Instr} {s t : State} (hi : i = .buildt ∨ i = .construct) (hp : s.phase = .empty)
    (hl : LegalTable s.ft) (h : exec i s = .next t) : t.errFlag = false := by
  obtain ⟨u, -, hbody, rfl⟩ | ⟨f, pos, hillegal | ⟨-, hbody⟩, rfl⟩ := exec_next h
  · obtain ⟨-, -, herr, -⟩ := bodyOf_done_frame hbody
    exact herr
  · exact nomatch (phaseFault_build_empty hi hp).symm.trans hillegal
  · have hfault : tableFault s.ft = some (f, pos) := (bodyOf_build_raise_iff hi (s.accept (encode i)) f pos).1 hbody
    exact nomatch ((tableFault_none_iff s.ft).2 hl).symm.trans hfault

/-- Settles O12: the table's fault is the command's, and the three kinds of table are told apart by what they list. -/
theorem illegalTableIsRejected : Obligations.IllegalTableIsRejected := by
  intro s i hi hp hw
  refine ⟨fun habsent => ?_, fun k hk hneg hsmaller => ?_, fun hne hpos t ht => ?_⟩
  · have hfault : tableFault s.ft = some (.emptyTable, 0) := by rw [ft_eq_nil_of_absent hw habsent]; rfl
    exact exec_build_fault hi hp hfault
  · have hbelow : ∀ e ∈ s.ft, e.1 < k → 0 < sint32 e.2 := fun e he hek => by
      obtain ⟨hpresent, hfreq⟩ := ft_read_of_mem hw he
      exact hfreq ▸ hsmaller e.1 hek hpresent
    exact exec_build_fault hi hp (tableFault_of_nonpositive hw ((ftPresent_iff_mem hw k).1 hk) hneg hbelow)
  · exact exec_build_errFlag hi hp (legalTable_of_present hw hne hpos) ht

/-! ### The completion of BUILDT (41 R75, R82) -/

/-- Settles O13: BUILDT is legal in phase EMPTY, and on a legal table its body completes with the finished forest. -/
theorem buildtRunsTheMergeLoop : Obligations.BuildtRunsTheMergeLoop := by
  intro s hp hl
  have hlegal : phaseFault .buildt s.phase = none := phaseFault_build_empty (.inl rfl) hp
  exact exec_done hlegal (buildtBody_of_legal (s := s.accept (encode .buildt)) ((tableFault_none_iff _).2 hl))

/-! ### Leaf initialisation (41 R77) -/

/-- The leaves of a canonical table stand in strictly ascending order: no two entries have the same symbol. -/
theorem sortedEntries_strict {n : Nat} {ft : Table Word} (hw : Table.wf n ft) :
    (sortedEntries ft).Pairwise
      (fun a b => sint32 a.2 < sint32 b.2 ∨ (sint32 a.2 = sint32 b.2 ∧ a.1 < b.1)) := by
  have hdistinct : (sortedEntries ft).Pairwise (fun a b => a.1 ≠ b.1) :=
    ((sortedEntries_perm ft).pairwise_iff fun hab => Ne.symm hab).2 (hw.1.imp fun hab => Nat.ne_of_lt hab)
  refine ((sortedEntries_pairwise ft).and hdistinct).imp fun ⟨hle, hne⟩ => ?_
  exact hle.imp_right fun ⟨hfreq, hsym⟩ => ⟨hfreq, Nat.lt_of_le_of_ne hsym hne⟩

/-- Settles O14: the list is that of the sorted entries, and canonical tables with the same reads are equal. -/
theorem leavesStandInOrderOfFrequencyThenSymbol : Obligations.LeavesStandInOrderOfFrequencyThenSymbol := by
  intro ft hw
  refine ⟨sortedEntries ft, sortedEntries_perm ft, sortedEntries_strict hw, rfl, ?_, fun ft' hw' hread => ?_⟩
  · rw [sortedEntries_length]; rfl
  · rw [Table.ext hw' hw hread]

/-! ### One merge step (41 R79 to R81) -/

/-- Reinsertion compares frequencies of queued nodes only, so it is the same in every longer node store. -/
theorem insertParent_append {nm : List Node} {q : List NodeIdx} (hv : ∀ x ∈ q, x.toNat < nm.length) (m : List Node)
    (f : NodeFreq) (p : NodeIdx) : insertParent (nm ++ m) f p q = insertParent nm f p q := by
  induction q with
  | nil => rfl
  | cons x r ih =>
    obtain ⟨hx, hr⟩ := List.forall_mem_cons.1 hv
    rw [insertParent, insertParent, nodeFreq_append hx, ih hr]

/-- Settles O16: the node made, and the split of the rest of the queue at the first entry that is not smaller. -/
theorem parentGoesBeforeFirstNotSmaller : Obligations.ParentGoesBeforeFirstNotSmaller := by
  intro w a b rest hq ⟨hvalid, _⟩
  have hrest : ∀ q ∈ rest, q.toNat < w.nm.length := fun q hmem => hvalid q (by simp [hq, hmem])
  rw [mergeStep_cons hq, insertParent_append hrest]
  exact ⟨rfl, insertParent_split w.nm _ _ rest⟩

/-- Reinsertion is the ordered insertion by frequency, where `f` is the parent's own. -/
theorem insertParent_eq_orderedInsert {nm : List Node} {f : NodeFreq} {p : NodeIdx} (hp : nodeFreq nm p = f)
    (q : List NodeIdx) :
    insertParent nm f p q = q.orderedInsert (fun x y => nodeFreq nm x ≤ nodeFreq nm y) p := by
  induction q with
  | nil => rfl
  | cons x r ih => rw [insertParent, List.orderedInsert_cons, hp, ih]

theorem insertParent_sorted {nm : List Node} {f : NodeFreq} {p : NodeIdx} (hp : nodeFreq nm p = f)
    {q : List NodeIdx} (hq : q.Pairwise (fun x y => nodeFreq nm x ≤ nodeFreq nm y)) :
    (insertParent nm f p q).Pairwise (fun x y => nodeFreq nm x ≤ nodeFreq nm y) := by
  have : Std.Total (fun x y => nodeFreq nm x ≤ nodeFreq nm y) := ⟨fun _ _ => BitVec.le_total _ _⟩
  have : IsTrans NodeIdx (fun x y => nodeFreq nm x ≤ nodeFreq nm y) := ⟨fun _ _ _ => BitVec.le_trans⟩
  rw [insertParent_eq_orderedInsert hp]
  exact hq.orderedInsert p q

/-- The order of a queue is the same in every longer node store. -/
theorem queue_sorted_append {nm : List Node} {q : List NodeIdx} (hv : ∀ x ∈ q, x.toNat < nm.length)
    (hq : q.Pairwise (fun x y => nodeFreq nm x ≤ nodeFreq nm y)) (m : List Node) :
    q.Pairwise (fun x y => nodeFreq (nm ++ m) x ≤ nodeFreq (nm ++ m) y) :=
  hq.imp_of_mem fun {x y} hx hy hxy => by rwa [nodeFreq_append (hv x hx), nodeFreq_append (hv y hy)]

/-- Settles O17: a queue of fewer than two entries stays; otherwise the parent goes in order into the sorted rest. -/
theorem mergeStepKeepsTheQueueSorted : Obligations.MergeStepKeepsTheQueueSorted := by
  intro w ⟨hvalid, hroom⟩ hsorted
  by_cases h2 : 1 < w.pq.length
  · obtain ⟨a, b, rest, hq⟩ := exists_two_of_length h2
    have hrest : ∀ q ∈ rest, q.toNat < w.nm.length := fun q hmem => hvalid q (by simp [hq, hmem])
    have hp : (BitVec.ofNat 9 w.nm.length).toNat = w.nm.length :=
      toNat_ofNat9 (by unfold Config.nodeCap at hroom; omega)
    rw [QueueSorted, hq] at hsorted
    rw [QueueSorted, mergeStep_cons hq]
    refine ⟨insertParent_sorted ?_ (queue_sorted_append hrest hsorted.tail.tail _), fun q hmem => ?_⟩
    · simp [nodeFreq, hp, Node.freq]
    · rw [List.length_append, List.length_singleton]
      rcases List.mem_cons.1 ((insertParent_perm _ _ _ _).mem_iff.1 hmem) with rfl | hmem
      · omega
      · exact Nat.lt_succ_of_lt (hrest q hmem)
  · rw [mergeStep_of_short (by omega)]
    exact ⟨hsorted, hvalid⟩

/-! ### The merge loop (41 R78, R84) -/

/-- The loop with fuel enough is the merge step iterated once for each queued node but the last. -/
theorem mergeLoop_eq_iterate (n : Nat) :
    ∀ {w : Forest}, w.pq.length ≤ n + 1 → mergeLoop n w = mergeStep^[w.pq.length - 1] w := by
  induction n with
  | zero =>
    intro w hn
    rw [show w.pq.length - 1 = 0 by omega]; rfl
  | succ n ih =>
    intro w hn
    rw [mergeLoop]
    split
    · rename_i h2
      have hlen := mergeStep_length h2
      rw [ih (by omega), ← Function.iterate_succ_apply]
      congr 1; omega
    · rw [show w.pq.length - 1 = 0 by omega]; rfl

theorem mergeStep_iterate_length (n : Nat) :
    ∀ {w : Forest}, n < w.pq.length → (mergeStep^[n] w).pq.length + n = w.pq.length := by
  induction n with
  | zero => intro w _; rfl
  | succ n ih =>
    intro w hn
    have hlen := mergeStep_length (w := w) (by omega)
    have hrest := ih (w := mergeStep w) (by omega)
    rw [Function.iterate_succ_apply]; omega

/-- Settles O18: the loop is the iterated step, and each pass shortens the queue by one. -/
theorem mergeLoopMakesNMinusOnePasses : Obligations.MergeLoopMakesNMinusOnePasses := by
  intro w hne
  have hpos : 0 < w.pq.length := List.length_pos_iff.2 hne
  have hloop : mergeLoop w.pq.length w = mergeStep^[w.pq.length - 1] w := mergeLoop_eq_iterate _ (Nat.le_succ _)
  have hlen := mergeStep_iterate_length (w.pq.length - 1) (w := w) (by omega)
  exact ⟨hloop, by rw [hloop]; omega⟩

/-! ### The finished tree (41 R84(b), (e), (f)) -/

/-- On a legal table the sum of the frequencies is the same read as signed integers. -/
theorem toNat_sum_eq_sint32_sum {ft : Table Word} (h : ∀ e ∈ ft, 0 < sint32 e.2) :
    (((ft.map (fun e => e.2.toNat)).sum : Nat) : Int) = (ft.map (fun e => sint32 e.2)).sum := by
  rw [Nat.cast_list_sum, List.map_map]
  exact congrArg List.sum (List.map_congr_left fun e he => (sint32_toNat (h e he)).1.symm)

/-- The root of the finished forest holds the sum of all frequencies (41 R84(f)). -/
theorem builtForest_root_freq {ft : Table Word} (hw : Table.wf Config.alphabet ft) (hl : LegalTable ft) :
    (((nodeFreq (builtForest ft).nm ((builtForest ft).pq.headD 0)).toNat : Nat) : Int) =
      (ft.map (fun e => sint32 e.2)).sum := by
  obtain ⟨hforest, root, hroot⟩ := builtForest_ok hl (table_length_le hw)
  have htotal := hforest.total
  rw [hroot, List.map_singleton, List.sum_singleton] at htotal
  rw [hroot, List.headD_cons, htotal, toNat_sum_eq_sint32_sum hl.2]

/-- The counters of a tree of `N` symbols (41 R84(b), (e); 10_state R20, R21). -/
theorem TreeOk.counters {s : State} (h : TreeOk s) (hw : Table.wf Config.alphabet s.ft) :
    s.nnodes.toNat = 2 * s.ft.length - 1 ∧ s.root.toNat = 2 * s.ft.length - 2 ∧ s.nsym.toNat = s.ft.length ∧
      s.pqLen = 1 ∧ (s.readLoc (.pq 0)).toNat = s.root.toNat := by
  obtain ⟨-, hnsym, hnm, hroot, hpq, -⟩ := h
  have hsize : s.ft.length ≤ 256 := table_length_le hw
  have hnnodes : s.nnodes.toNat = s.nm.length := toNat_ofNat9 (by omega)
  have hread : s.readLoc (.pq 0) = s.root.setWidth 32 := by simp only [State.readLoc, hpq]; rfl
  refine ⟨by omega, by omega, hnsym, by rw [State.pqLen, hpq]; rfl, ?_⟩
  rw [hread, BitVec.toNat_setWidth_of_le (by decide)]

/-- Settles O20: the counters are those of a tree, and the root's frequency is the total the merge loop keeps. -/
theorem treeCountersAndTotalFrequency : Obligations.TreeCountersAndTotalFrequency := by
  intro s hp hw hl
  have hlegal : phaseFault .buildt s.phase = none := phaseFault_build_empty (.inl rfl) hp
  have hbody := buildtBody_of_legal (s := s.accept (encode .buildt)) ((tableFault_none_iff _).2 hl)
  have htree := buildtBody_treeOk (s := s.accept (encode .buildt)) hw hbody
  obtain ⟨hnnodes, hroot, hnsym, hpqLen, hread⟩ := htree.counters hw
  exact ⟨_, exec_done hlegal hbody, hnnodes, hroot, hnsym, hpqLen, hread, builtForest_root_freq hw hl⟩

end Sys2Proof.Machine

/-! SUPPORT. The statements of 42_code_derivation: the codes DERIVE gives to the leaves of a tree, and CONSTRUCT as
BUILDT followed by DERIVE. -/

namespace Sys2Proof.Machine

/-! ### DERIVE (42 R90 to R93) -/

theorem phaseFault_derive_tree {p : Phase} (hp : p = .tree) : phaseFault .derive p = none := by rw [hp]; rfl

theorem exec_derive_of_visit {s : State} {es : List IctEntry} (hp : s.phase = .tree)
    (hv : visit s.nm s.nm.length s.root [] = some es) :
    exec .derive s = .next (State.afterSuccess { s with ct := tableOf es, ict := es, phase := .ready }) :=
  exec_done (phaseFault_derive_tree hp) (deriveBody_of_visit (s := s.accept (encode .derive)) hv)

theorem deriveBody_of_no_tree {s : State} (hv : visit s.nm s.nm.length s.root [] = none) :
    deriveBody s = .refuse .malformedTree := by
  rw [deriveBody, hv]

/-- DERIVE refuses a node store that is no tree below ROOT (93 U13). -/
theorem exec_derive_of_no_tree {s : State} (hp : s.phase = .tree)
    (hv : visit s.nm s.nm.length s.root [] = none) : exec .derive s = .refused .malformedTree := by
  have hbody : bodyOf .derive (s.accept (encode .derive)) = .refuse .malformedTree := deriveBody_of_no_tree hv
  rw [exec_eq_command, command_legal (phaseFault_derive_tree hp), hbody, finish]

/-- Settles O21: in phase TREE the invariant says that the node store is the tree of the table, and its walk gives the
codes. -/
theorem deriveGivesEachLeafItsPath : Obligations.DeriveGivesEachLeafItsPath := by
  intro s hinv hp
  obtain ⟨-, -, ⟨hw, -, -⟩, ⟨-, htreePhase, -⟩, -⟩ := hinv
  have htree : TreeOk s := (htreePhase hp).1
  obtain ⟨es, hv, -⟩ := htree.visit
  exact ⟨_, exec_derive_of_visit hp hv, rfl, mem_visit_root hv, codesOk_of_visit hw htree hv⟩

/-! ### CONSTRUCT (42 R95) -/

theorem constructBody_of_done {s v : State} (h : buildtBody s = .done v) : constructBody s = deriveBody v := by
  rw [constructBody, h]

/-- A body of DERIVE that runs inside another command ends as DERIVE does from the completed state: the walk reads
neither the status nor the fault registers, and the completion writes all of them but STATUS.ERR. -/
theorem finish_deriveBody {v : State} (hp : v.phase = .tree) (herr : v.errFlag = false) (i : Instr) (s : State) :
    finish i s (deriveBody v) = exec .derive v.complete := by
  cases hv : visit v.nm v.nm.length v.root [] with
  | none => rw [deriveBody_of_no_tree hv, exec_derive_of_no_tree (s := v.complete) hp hv, finish]
  | some es =>
    rw [deriveBody_of_visit hv, exec_derive_of_visit (s := v.complete) hp hv, finish]
    simp only [State.complete, State.afterSuccess, herr]

/-- CONSTRUCT goes on from a completed BUILDT as DERIVE does. -/
theorem exec_construct_of_built {s t : State} (hp : s.phase = .empty) (h : exec .buildt s = .next t)
    (herr : t.errFlag = false) : exec .construct s = exec .derive t := by
  have hlegal : phaseFault .construct s.phase = none := phaseFault_build_empty (.inr rfl) hp
  obtain ⟨v, -, hbody, rfl⟩ | ⟨f, pos, -, rfl⟩ := exec_next h
  · obtain ⟨hf, rfl⟩ := buildtBody_done hbody
    have hconstruct : bodyOf .construct (s.accept (encode .construct)) = deriveBody _ :=
      constructBody_of_done (buildtBody_of_legal hf)
    rw [exec_eq_command, command_legal hlegal, hconstruct]
    exact finish_deriveBody rfl rfl _ _
  · exact nomatch (State.faultEntry_errFlag ..).symm.trans herr

/-- Where BUILDT faults in phase EMPTY, CONSTRUCT faults in the same state. -/
theorem exec_construct_of_fault {s t : State} (hp : s.phase = .empty) (h : exec .buildt s = .next t)
    (herr : t.errFlag = true) : exec .construct s = .next t ∧ t = s.afterFault t.errReg t.errPos := by
  obtain ⟨v, -, hbody, rfl⟩ | ⟨f, pos, hillegal | ⟨-, hbody⟩, rfl⟩ := exec_next h
  · obtain ⟨-, -, hnone, -⟩ := bodyOf_done_frame hbody
    exact nomatch herr.symm.trans hnone
  · exact nomatch (phaseFault_build_empty (.inl rfl) hp).symm.trans hillegal
  · have hfault : tableFault s.ft = some (f, pos) := buildtBody_raise (s := s.accept (encode .buildt)) hbody
    exact ⟨exec_build_fault (.inr rfl) hp hfault, rfl⟩

/-- Settles O22: by how BUILDT ended, and by the phase table outside phase EMPTY. -/
theorem constructIsBuildtThenDerive : Obligations.ConstructIsBuildtThenDerive := by
  intro s
  refine ⟨fun hp t h => ⟨exec_construct_of_fault hp h, exec_construct_of_built hp h⟩, fun hp => ?_⟩
  exact exec_illegal_plain rfl (phaseFault_build (.inr rfl) hp)

/-- Settles O23: BUILDT makes the tree of the table, and CONSTRUCT ends as DERIVE ends on it. -/
theorem constructMakesACodec : Obligations.ConstructMakesACodec := by
  intro s hinv hp hl
  have hw := hinv.ft_wf
  obtain ⟨t, hbuilt, hframe, htree⟩ := buildtMakesTheTreeOfTheTable s hp hw hl
  obtain ⟨nm, pq, root, nsym, rfl⟩ : ∃ nm pq root nsym, t = State.afterSuccess
      { s with nm := nm, pq := pq, root := root, nsym := nsym, phase := .tree } := ⟨_, _, _, _, hframe⟩
  obtain ⟨es, hv, -⟩ := htree.visit
  have hconstruct := (exec_construct_of_built hp hbuilt rfl).trans (exec_derive_of_visit rfl hv)
  exact ⟨_, hconstruct, rfl, htree, codesOk_of_visit hw htree hv, mem_visit_root hv⟩

end Sys2Proof.Machine

/-! SUPPORT. The statements of 43_encode: what ENC and ENCS deliver, how the payload is packed, and the order of their
faults. -/

namespace Sys2Proof.Machine

/-! ### Searches of the live input -/

theorem input_findIdx?_eq_none {s : State} {p : Byte → Bool} (h : ∀ k < s.inLen.toNat, p (s.ibByte k) = false) :
    s.input.findIdx? p = none := by
  refine List.findIdx?_eq_none_iff.2 fun x hx => ?_
  obtain ⟨k, hk, rfl⟩ := List.getElem_of_mem hx
  rw [State.input_getElem]
  exact h k (s.input_length ▸ hk)

theorem input_findIdx?_eq_some {s : State} {p : Byte → Bool} {k : Nat} (hk : k < s.inLen.toNat)
    (hhit : p (s.ibByte k) = true) (hfirst : ∀ j < k, p (s.ibByte j) = false) : s.input.findIdx? p = some k := by
  refine List.findIdx?_eq_some_iff_getElem.2 ⟨s.input_length.symm ▸ hk, ?_, fun j hj => ?_⟩
  · rw [State.input_getElem]; exact hhit
  · rw [State.input_getElem, hfirst j hj]; exact Bool.false_ne_true

theorem firstUnknown_of_known {s : State} (h : ∀ k < s.inLen.toNat, ctValid s.ct (s.ibByte k) = true) :
    firstUnknown s.ct s.input = none :=
  input_findIdx?_eq_none fun k hk => by rw [h k hk]; rfl

theorem firstUnknown_of_first {s : State} {k : Nat} (hk : k < s.inLen.toNat)
    (hunknown : ctValid s.ct (s.ibByte k) = false) (hfirst : ∀ j < k, ctValid s.ct (s.ibByte j) = true) :
    firstUnknown s.ct s.input = some k :=
  input_findIdx?_eq_some hk (by rw [hunknown]; rfl) fun j hj => by rw [hfirst j hj]; rfl

/-! ### Faults of the shared body (43 R101, R104) -/

section
variable {need : BitString → Nat} {out : BitString → List Byte} {s : State}

theorem encodeWith_of_longInput (h : s.cfg.ibCap < s.inLen.toNat) :
    encodeWith need out s = .raise .inputOverflow s.inLen := if_pos h

theorem encodeWith_of_unknown {k : Nat} (hlen : s.inLen.toNat ≤ s.cfg.ibCap)
    (hunknown : firstUnknown s.ct s.input = some k) :
    encodeWith need out s = .raise .unknownSymbol (BitVec.ofNat 32 k) := by
  rw [encodeWith, if_neg (Nat.not_lt.2 hlen), hunknown]

theorem encodeWith_of_longOutput (hlen : s.inLen.toNat ≤ s.cfg.ibCap) (hknown : firstUnknown s.ct s.input = none)
    (hfull : s.cfg.obCap < need (encodeSymbols s.ct s.input)) :
    encodeWith need out s = .raise .outputOverflow (BitVec.ofNat 32 (need (encodeSymbols s.ct s.input))) := by
  rw [encodeWith, if_neg (Nat.not_lt.2 hlen), hknown]
  exact if_pos hfull

end

/-! ### The two encoders -/

/-- `i` encodes: its body is the shared one, which writes `out b` for the bit string `b`, `need b` entries of OB. -/
structure IsEncoder (i : Instr) (need : BitString → Nat) (out : BitString → List Byte) : Prop where
  codec : Instr.isCodec i = true
  legal : phaseFault i .ready = none
  body : bodyOf i = encodeWith need out
  length_out : ∀ b, (out b).length = need b

theorem isEncoder_enc : IsEncoder .enc (fun b => ceilDiv b.length 8) packBits := ⟨rfl, rfl, rfl, packBits_length⟩

theorem isEncoder_encs : IsEncoder .encs List.length (List.map bitChar) := ⟨rfl, rfl, rfl, fun _ => List.length_map _⟩

section
variable {i : Instr} {need : BitString → Nat} {out : BitString → List Byte} {s : State}

/-- A fault of the shared body ends the command; the body reads nothing that acceptance changes. -/
theorem IsEncoder.exec_of_raise (h : IsEncoder i need out) (hp : s.phase = .ready) {f : CmdFault} {pos : Word}
    (hraise : encodeWith need out (s.accept (encode i)) = .raise f pos) :
    exec i s = .next (s.afterCodecFault f.errWord pos) := by
  have hbody : bodyOf i (s.accept (encode i)) = .raise f pos := h.body ▸ hraise
  rw [exec_raise (hp ▸ h.legal) hbody, h.codec, faultEntry_codec]

/-- 43 R102: what an encoder delivers. -/
theorem IsEncoder.exec_of_good (h : IsEncoder i need out) (hp : s.phase = .ready)
    (hlen : s.inLen.toNat ≤ s.cfg.ibCap) (hknown : ∀ k < s.inLen.toNat, ctValid s.ct (s.ibByte k) = true)
    (hfit : need (encodeSymbols s.ct s.input) ≤ s.cfg.obCap) :
    exec i s = .next (State.afterSuccess (s.withOutput (out (encodeSymbols s.ct s.input))
      (need (encodeSymbols s.ct s.input)) (s.input.map (fun x => (ctCode s.ct x).length)).sum)) := by
  have hbits : (encodeSymbols s.ct s.input).length = (s.input.map (fun x => (ctCode s.ct x).length)).sum :=
    List.length_flatMap
  have hbody := (congrFun h.body _).trans
    (encodeWith_of_good (s := s.accept (encode i)) hlen (firstUnknown_of_known hknown) hfit)
  rw [exec_done (hp ▸ h.legal) hbody, deliver_eq_withOutput, complete_withOutput, h.length_out, ← hbits]
  rfl

end

/-! ### The statements of 43_encode -/

/-- Settles O24: ENC is the encoder that packs its bits into `ceil_div(n, 8)` bytes. -/
theorem encPacksTheConcatenatedCodes : Obligations.EncPacksTheConcatenatedCodes :=
  fun _ => isEncoder_enc.exec_of_good

/-- Settles O25: bit `q` of the payload is bit `q mod 8` of the packed byte `q div 8`, and past the end it is 0. -/
theorem payloadIsPackedMsbFirst : Obligations.PayloadIsPackedMsbFirst := by
  refine fun b => ⟨packBits_length b, fun q hq => ?_⟩
  have hbyte : q / 8 < ceilDiv b.length 8 := Nat.div_lt_of_lt_mul hq
  rw [packBits_getElem? hbyte, Option.getD_some, packByte_getLsbD _ _ _ (Nat.mod_lt q (by decide)), Nat.div_add_mod]
  split_ifs with hlive
  · rfl
  · exact bitAt_of_ge (Nat.not_lt.1 hlive)

/-- Settles O26: ENCS is the encoder that writes the character of each bit. -/
theorem encsWritesOneCharacterPerBit : Obligations.EncsWritesOneCharacterPerBit :=
  fun _ => isEncoder_encs.exec_of_good

/-- Settles O27: both commands are encoders, and the shared body makes the three checks in this order. -/
theorem encoderFaultsInFixedOrder : Obligations.EncoderFaultsInFixedOrder := by
  intro s i need hcommand hp
  obtain ⟨n, out, henc, rfl⟩ : ∃ n out, IsEncoder i n out ∧ need = n (encodeSymbols s.ct s.input) := by
    obtain ⟨rfl, rfl⟩ | ⟨rfl, rfl⟩ := hcommand
    · exact ⟨_, _, isEncoder_enc, rfl⟩
    · exact ⟨_, _, isEncoder_encs, rfl⟩
  refine ⟨fun hlong => ?_, fun hlen => ⟨fun k hk hunknown hfirst => ?_, fun hknown hfull => ?_⟩⟩
  · exact henc.exec_of_raise hp (encodeWith_of_longInput hlong)
  · exact henc.exec_of_raise hp (encodeWith_of_unknown hlen (firstUnknown_of_first hk hunknown hfirst))
  · exact henc.exec_of_raise hp (encodeWith_of_longOutput hlen (firstUnknown_of_known hknown) hfull)

end Sys2Proof.Machine

/-! SUPPORT. The statements of 44_decode: what the matching loop answers, what DEC and DECS deliver, the order of their
faults, and the round trips through the encoders. -/

namespace Sys2Proof.Machine

/-! ### The bits DEC takes (44 R110, R112) -/

/-- Settles O28: the bits DEC decodes are the unpacked stream, cut at IN_BITS. -/
theorem decoderTakesTheFirstBits : Obligations.DecoderTakesTheFirstBits :=
  fun _ => ⟨unpackBits_length _ _, fun _ hq => unpackBits_getElem? hq⟩

/-! ### The matching loop on a whole bit string (44 R113, R114) -/

section
variable {ict : List IctEntry} {es : List IctEntry} {rest : BitString}
  (hne : ∀ e ∈ ict, e.code ≠ []) (hp : ict.Pairwise (fun x y => PrefixApart x.code y.code))
include hne hp

/-- The loop on codes followed by bits that no code begins: it ends well exactly when there are no such bits. -/
theorem matchBits_codes_append (hes : ∀ e ∈ es, e ∈ ict) (hrest : ∀ e ∈ ict, ¬ e.code <+: rest) :
    matchBits ict (es.flatMap IctEntry.code ++ rest) =
      if rest = [] then .ok (es.map IctEntry.sym) else .error (es.flatMap IctEntry.code).length := by
  rw [matchBits, matchFrom_codes hp hne rest es 0 hes, matchFrom_rest hrest, Nat.zero_add]
  split_ifs
  · rw [Except.map, List.append_nil]
  · rfl

theorem matchBits_codes (hes : ∀ e ∈ es, e ∈ ict) :
    matchBits ict (es.flatMap IctEntry.code) = .ok (es.map IctEntry.sym) := by
  have hrest : ∀ e ∈ ict, ¬ e.code <+: [] := fun e he hpre => hne e he (List.prefix_nil.1 hpre)
  simpa only [List.append_nil, if_true] using matchBits_codes_append hne hp hes hrest

theorem matchBits_codes_rest (hes : ∀ e ∈ es, e ∈ ict) (hrest : ∀ e ∈ ict, ¬ e.code <+: rest) (hnil : rest ≠ []) :
    matchBits ict (es.flatMap IctEntry.code ++ rest) = .error (es.flatMap IctEntry.code).length := by
  rw [matchBits_codes_append hne hp hes hrest, if_neg hnil]

end

/-- Settles O29: every bit string is codes followed by bits that no code begins, and on success there are none of
these. -/
theorem matchingDeliversExactlyCodeSequences : Obligations.MatchingDeliversExactlyCodeSequences := by
  intro ict b out hne hp
  constructor
  · intro hok
    obtain ⟨es, rest, hes, rfl, hrest⟩ := exists_parse ict hne b.length b le_rfl
    rw [matchBits_codes_append hne hp hes hrest] at hok
    split_ifs at hok with hnil
    · exact ⟨es, hes, (Except.ok.inj hok).symm, by rw [hnil, List.append_nil]⟩
  · rintro ⟨es, hes, rfl, rfl⟩
    exact matchBits_codes hne hp hes

/-- Settles O30: of the same division of the bit string, on failure something is left over. -/
theorem matchingFailsAtTheUnmatchedCandidate : Obligations.MatchingFailsAtTheUnmatchedCandidate := by
  intro ict b p hne hp
  constructor
  · intro herr
    obtain ⟨es, rest, hes, rfl, hrest⟩ := exists_parse ict hne b.length b le_rfl
    rw [matchBits_codes_append hne hp hes hrest] at herr
    split_ifs at herr with hnil
    · exact ⟨es, rest, hes, hnil, rfl, (Except.error.inj herr).symm, hrest⟩
  · rintro ⟨es, rest, hes, hnil, rfl, rfl, hrest⟩
    exact matchBits_codes_rest hne hp hes hrest hnil

/-! ### The entries of known symbols (10_state R22 to R24) -/

/-- The entry of ICT that CT asks for at a symbol. -/
def entryOf (ct : Table BitString) (x : Symbol) : IctEntry := { sym := x, code := ctCode ct x }

theorem map_sym_entryOf (ct : Table BitString) (syms : List Symbol) :
    (syms.map (entryOf ct)).map IctEntry.sym = syms := by
  simp [Function.comp_def, entryOf]

theorem flatMap_code_entryOf (ct : Table BitString) (syms : List Symbol) :
    (syms.map (entryOf ct)).flatMap IctEntry.code = encodeSymbols ct syms := by
  rw [List.flatMap_map]; rfl

theorem ready_tables {s : State} (h : s.Inv) (hp : s.phase = .ready) : TreeOk s ∧ CodesOk s := by
  obtain ⟨-, -, -, ⟨-, -, hready⟩, -⟩ := h
  exact hready hp

section
variable {s : State} (h : s.Inv) (hp : s.phase = .ready)
include h hp

theorem ready_code_ne_nil : ∀ e ∈ s.ict, e.code ≠ [] := by
  obtain ⟨-, -, hcodes, -⟩ := ready_tables h hp
  exact fun e he => (hcodes e he).1

theorem ready_codes_apart : s.ict.Pairwise (fun x y => PrefixApart x.code y.code) := by
  obtain ⟨-, -, -, hapart, -⟩ := ready_tables h hp
  exact hapart

theorem entryOf_mem_ict {x : Symbol} (hx : ctValid s.ct x = true) : entryOf s.ct x ∈ s.ict := by
  obtain ⟨-, -, -, -, -, -, -, hinverse, -⟩ := ready_tables h hp
  obtain ⟨-, -, ⟨-, hct, -⟩, -⟩ := h
  obtain ⟨c, hc⟩ := Option.isSome_iff_exists.1 hx
  have hmem := hinverse _ ((Table.get?_eq_some hct x.toNat c).1 hc)
  have hcode : ctCode s.ct x = c := by rw [ctCode, hc, Option.getD_some]
  rwa [BitVec.ofNat_toNat, BitVec.setWidth_eq, ← hcode] at hmem

theorem entriesOf_mem_ict {syms : List Symbol} (hknown : ∀ x ∈ syms, ctValid s.ct x = true) :
    ∀ e ∈ syms.map (entryOf s.ct), e ∈ s.ict := by
  intro e he
  obtain ⟨x, hx, rfl⟩ := List.mem_map.1 he
  exact entryOf_mem_ict h hp (hknown x hx)

/-- The loop undoes the encoder's concatenation of codes. -/
theorem matchBits_encodeSymbols {syms : List Symbol} (hknown : ∀ x ∈ syms, ctValid s.ct x = true) :
    matchBits s.ict (encodeSymbols s.ct syms) = .ok syms := by
  rw [← flatMap_code_entryOf,
    matchBits_codes (ready_code_ne_nil h hp) (ready_codes_apart h hp) (entriesOf_mem_ict h hp hknown), map_sym_entryOf]

theorem matchBits_encodeSymbols_rest {syms : List Symbol} {rest : BitString}
    (hknown : ∀ x ∈ syms, ctValid s.ct x = true) (hrest : ∀ e ∈ s.ict, ¬ e.code <+: rest) (hnil : rest ≠ []) :
    matchBits s.ict (encodeSymbols s.ct syms ++ rest) = .error (encodeSymbols s.ct syms).length := by
  rw [← flatMap_code_entryOf, matchBits_codes_rest (ready_code_ne_nil h hp) (ready_codes_apart h hp)
    (entriesOf_mem_ict h hp hknown) hrest hnil]

/-- No code begins a code cut short. -/
theorem no_code_begins_cut_code {x : Symbol} {rest : BitString} (hx : ctValid s.ct x = true)
    (hpre : rest <+: ctCode s.ct x) (hcut : rest ≠ ctCode s.ct x) : ∀ e ∈ s.ict, ¬ e.code <+: rest := by
  intro e he hbegins
  have heq : e = entryOf s.ct x :=
    eq_of_prefix (ready_codes_apart h hp) he (entryOf_mem_ict h hp hx) (hbegins.trans hpre)
  have hfull : ctCode s.ct x <+: rest := by rwa [heq] at hbegins
  exact hcut (hpre.eq_of_length_le hfull.length_le)

/-- No code of a lone leaf's codec begins bits that begin with 1 (44 R118). -/
theorem no_lone_code_begins_one {rest : BitString} (hone : s.nsym = 1) (hhead : rest.head? = some true) :
    ∀ e ∈ s.ict, ¬ e.code <+: rest := by
  intro e he hbegins
  obtain ⟨htree, hcodes⟩ := ready_tables h hp
  rw [lone_code htree hcodes hone e he] at hbegins
  obtain ⟨t, rfl⟩ := hbegins
  exact Bool.false_ne_true (Option.some.inj hhead)

end

/-! ### The two decoders on the bit string they read -/

/-- A fault raised by the body of a codec command its phase allows. -/
theorem exec_raise_codec {i : Instr} {s : State} {f : CmdFault} {pos : Word} (hi : Instr.isCodec i = true)
    (hlegal : phaseFault i s.phase = none) (h : bodyOf i (s.accept (encode i)) = .raise f pos) :
    exec i s = .next (s.afterCodecFault f.errWord pos) := by
  rw [exec_raise hlegal h, hi, faultEntry_codec]

theorem phaseFault_dec_ready {p : Phase} (hp : p = .ready) : phaseFault .dec p = none := by rw [hp]; rfl

theorem phaseFault_decs_ready {p : Phase} (hp : p = .ready) : phaseFault .decs p = none := by rw [hp]; rfl

/-- The command `i` passes its checks in `s` and goes on to match the bits `b` (44 R110, R115). -/
structure Decodes (i : Instr) (s : State) (b : BitString) : Prop where
  codec : Instr.isCodec i = true
  legal : phaseFault i s.phase = none
  body : bodyOf i (s.accept (encode i)) = decodeBits b (s.accept (encode i))

section
variable {s : State} (hp : s.phase = .ready) (hlen : s.inLen.toNat ≤ s.cfg.ibCap)
include hp hlen

theorem decodes_dec {b : BitString} (hbits : s.inBits.toNat ≤ 8 * s.inLen.toNat) (hpayload : s.payloadBits = b) :
    Decodes .dec s b := by
  subst hpayload
  exact ⟨rfl, phaseFault_dec_ready hp, decBody_of_good (s := s.accept (encode .dec)) hlen hbits⟩

theorem decodes_decs (hchars : ∀ k < s.inLen.toNat, isBitChar (s.ibByte k) = true) :
    Decodes .decs s (s.input.map charBit) := by
  have hgood : s.input.findIdx? (fun c => !isBitChar c) = none :=
    input_findIdx?_eq_none fun k hk => by rw [hchars k hk]; rfl
  exact ⟨rfl, phaseFault_decs_ready hp, decsBody_of_good (s := s.accept (encode .decs)) hlen hgood⟩

theorem decodes_decs_of_bitChars {b : BitString} (hin : s.input = b.map bitChar) : Decodes .decs s b := by
  have hchars : ∀ k < s.inLen.toNat, isBitChar (s.ibByte k) = true := by
    intro k hk
    have hmem : s.ibByte k ∈ b.map bitChar := hin ▸ List.mem_of_getElem? (State.input_getElem? hk)
    obtain ⟨x, -, hx⟩ := List.mem_map.1 hmem
    rw [← hx, isBitChar_bitChar]
  have hdecodes := decodes_decs hp hlen hchars
  rwa [hin, map_charBit_bitChar] at hdecodes

end

section
variable {i : Instr} {s : State} {b : BitString} (hd : Decodes i s b)
include hd

theorem Decodes.exec_of_ok {out : List Symbol} (hm : matchBits s.ict b = .ok out) (hcap : out.length ≤ s.cfg.obCap) :
    exec i s = .next (State.afterSuccess (s.withOutput out out.length 0)) := by
  have hbody := hd.body.trans (decodeBits_of_match (s := s.accept (encode i)) hm hcap)
  rw [exec_done hd.legal hbody, deliver_eq_withOutput, complete_withOutput]

theorem Decodes.exec_of_error {p : Nat} (hm : matchBits s.ict b = .error p) :
    exec i s = .next (s.afterCodecFault 0x0103 (BitVec.ofNat 32 p)) :=
  exec_raise_codec hd.codec hd.legal (hd.body.trans (decodeBits_of_error (s := s.accept (encode i)) hm))

theorem Decodes.exec_of_overflow {out : List Symbol} (hm : matchBits s.ict b = .ok out)
    (hcap : s.cfg.obCap < out.length) :
    exec i s = .next (s.afterCodecFault 0x0204 (BitVec.ofNat 32 out.length)) :=
  exec_raise_codec hd.codec hd.legal (hd.body.trans (decodeBits_of_overflow (s := s.accept (encode i)) hm hcap))

/-- A command that matches ends well or with one of the two faults of the matching. -/
theorem Decodes.errReg {t : State} (h : exec i s = .next t) :
    t.errReg = 0 ∨ t.errReg = CmdFault.midcode.errWord ∨ t.errReg = CmdFault.outputOverflow.errWord := by
  obtain ⟨u, -, -, rfl⟩ | ⟨f, pos, hillegal | ⟨-, hbody⟩, rfl⟩ := exec_next h
  · exact .inl (State.complete_errReg u)
  · exact nomatch hd.legal.symm.trans hillegal
  · rw [State.faultEntry_errReg]
    obtain ⟨p, -, rfl, -⟩ | ⟨out, -, -, rfl, -⟩ := decodeBits_raise (hd.body.symm.trans hbody)
    · exact .inr (.inl rfl)
    · exact .inr (.inr rfl)

end

/-- A decoder that reads the codes of known symbols delivers these symbols. -/
theorem Decodes.exec_of_symbols {i : Instr} {s : State} {syms : List Symbol}
    (hd : Decodes i s (encodeSymbols s.ct syms)) (h : s.Inv) (hp : s.phase = .ready)
    (hknown : ∀ x ∈ syms, ctValid s.ct x = true) (hcap : syms.length ≤ s.cfg.obCap) :
    exec i s = .next (State.afterSuccess (s.withOutput syms syms.length 0)) :=
  hd.exec_of_ok (matchBits_encodeSymbols h hp hknown) hcap

/-! ### The statements about single commands -/

/-- Settles O31: DEC decodes the first IN_BITS bits, which are the codes of the symbols. -/
theorem decDeliversTheSymbolsOfTheirCodes : Obligations.DecDeliversTheSymbolsOfTheirCodes := by
  intro s out h hp hlen hbits hknown hpayload hcap
  exact (decodes_dec hp hlen hbits hpayload).exec_of_symbols h hp hknown hcap

/-- Settles O32: DECS decodes the bits of its characters, which are the codes of the symbols. -/
theorem decsDeliversTheSymbolsOfTheirCodes : Obligations.DecsDeliversTheSymbolsOfTheirCodes := by
  intro s out h hp hlen hknown hin hcap
  exact (decodes_decs_of_bitChars hp hlen hin).exec_of_symbols h hp hknown hcap

/-- Settles O33: past the check of IN_BITS only the matching can fault, and not with SHORT. -/
theorem shortStreamIffBitCountExceedsBytes : Obligations.ShortStreamIffBitCountExceedsBytes := by
  intro s hp hlen
  refine ⟨fun hshort => ?_, fun hbits t h => ?_⟩
  · exact exec_raise_codec rfl (phaseFault_dec_ready hp) (decBody_of_short (s := s.accept (encode .dec)) hlen hshort)
  · obtain herr | herr | herr := (decodes_dec hp hlen hbits rfl).errReg h
    all_goals rw [herr]; decide

/-- Settles O34: the search for a bad character comes before the matching and finds the smallest index. -/
theorem badCharacterIsReportedFirst : Obligations.BadCharacterIsReportedFirst := by
  intro s k hp hlen hk hzero hone hfirst
  have hbad : (!isBitChar (s.ibByte k)) = true := by
    rw [Bool.not_eq_true', Bool.eq_false_iff, Ne, isBitChar_iff]
    exact not_or.2 ⟨hzero, hone⟩
  have hgood : ∀ j < k, (!isBitChar (s.ibByte j)) = false := fun j hj => by
    rw [Bool.not_eq_false', isBitChar_iff]
    exact hfirst j hj
  exact exec_raise_codec rfl (phaseFault_decs_ready hp)
    (decsBody_of_badchar (s := s.accept (encode .decs)) hlen (input_findIdx?_eq_some hk hbad hgood))

/-- Settles O35: in each of the three cases no code begins the rest, and both decoders match the same bits. -/
theorem unmatchedCandidateAtTheEndFaults : Obligations.UnmatchedCandidateAtTheEndFaults := by
  intro s out rest h hp hlen hknown hnil hcases
  have hrest : ∀ e ∈ s.ict, ¬ e.code <+: rest := by
    obtain hrest | ⟨x, hx, hpre, hcut⟩ | ⟨hone, hhead⟩ := hcases
    · exact hrest
    · exact no_code_begins_cut_code h hp hx hpre hcut
    · exact no_lone_code_begins_one h hp hone hhead
  have hmatch := matchBits_encodeSymbols_rest h hp hknown hrest hnil
  refine ⟨fun hbits hpayload => ?_, fun hin => ?_⟩
  · exact (decodes_dec hp hlen hbits hpayload).exec_of_error hmatch
  · exact (decodes_decs_of_bitChars hp hlen hin).exec_of_error hmatch

/-- Settles O36: the input check is the first of both commands, the check of OB_CAP the last. -/
theorem decoderCapacityFaults : Obligations.DecoderCapacityFaults := by
  intro s hp
  refine ⟨fun hlong => ⟨?_, ?_⟩, fun out hlen hcap => ⟨fun hbits hm => ?_, fun hchars hm => ?_⟩⟩
  · exact exec_raise_codec rfl (phaseFault_dec_ready hp) (decBody_of_overflow (s := s.accept (encode .dec)) hlong)
  · exact exec_raise_codec rfl (phaseFault_decs_ready hp) (decsBody_of_overflow (s := s.accept (encode .decs)) hlong)
  · exact (decodes_dec hp hlen hbits rfl).exec_of_overflow hm hcap
  · have hd := decodes_decs hp hlen fun k hk => (isBitChar_iff _).2 (hchars k hk)
    exact hd.exec_of_overflow hm hcap

/-! ### What DEC does not read of IB (44 R110) -/

/-- A result with another content of IB. -/
def Result.withIb (m : Memory) : Result → Result
  | .done u => .done { u with ib := m }
  | .raise f pos => .raise f pos
  | .refuse r => .refuse r

theorem decodeBits_withIb (b : BitString) (s : State) (m : Memory) :
    decodeBits b { s with ib := m } = (decodeBits b s).withIb m := by
  rw [decodeBits, decodeBits]
  cases matchBits s.ict b with
  | error p => rfl
  | ok out => dsimp only; split_ifs <;> rfl

theorem decBody_withIb {s : State} {m : Memory} (h : State.payloadBits { s with ib := m } = s.payloadBits) :
    decBody { s with ib := m } = (decBody s).withIb m := by
  rw [decBody, decBody, h, decodeBits_withIb]
  dsimp only
  split_ifs <;> rfl

/-- Settles O37: DEC reads IB only through its payload bits, in a completion as in a fault. -/
theorem decDoesNotReadPaddingOrSurplusBytes : Obligations.DecDoesNotReadPaddingOrSurplusBytes := by
  intro s t m hagree h
  have hbits : State.payloadBits { s with ib := m } = s.payloadBits := unpackBits_congr hagree
  have hbody : bodyOf .dec (State.accept { s with ib := m } (encode .dec)) =
      (bodyOf .dec (s.accept (encode .dec))).withIb m := decBody_withIb (s := s.accept (encode .dec)) hbits
  obtain ⟨u, hlegal, hu, rfl⟩ | ⟨f, pos, hillegal | ⟨hlegal, hraise⟩, rfl⟩ := exec_next h
  · exact exec_done (s := { s with ib := m }) hlegal (by rw [hbody, hu]; rfl)
  · exact exec_illegal (s := { s with ib := m }) hillegal
  · exact exec_raise (s := { s with ib := m }) hlegal (by rw [hbody, hraise]; rfl)

/-! ### Round trips (44 R119(a)) -/

/-- What an encoder that ended without a fault found and left. -/
theorem IsEncoder.success {i : Instr} {need : BitString → Nat} {out : BitString → List Byte} {s t : State}
    (he : IsEncoder i need out) (h : exec i s = .next t) (herr : t.errFlag = false) :
    (∀ x ∈ s.input, ctValid s.ct x = true) ∧ need (encodeSymbols s.ct s.input) ≤ s.cfg.obCap ∧
      t = State.afterSuccess (s.withOutput (out (encodeSymbols s.ct s.input)) (need (encodeSymbols s.ct s.input))
        (encodeSymbols s.ct s.input).length) := by
  obtain ⟨u, -, hbody, rfl⟩ | ⟨f, pos, -, rfl⟩ := exec_next h
  · rw [he.body] at hbody
    obtain ⟨-, hknown, hfit, rfl⟩ := encodeWith_done hbody
    refine ⟨fun x hx => by simpa using List.findIdx?_eq_none_iff.1 hknown x hx, hfit, ?_⟩
    rw [deliver_eq_withOutput, he.length_out]
    rfl
  · exact absurd ((State.faultEntry_errFlag _ _ f pos).symm.trans herr) Bool.noConfusion

theorem toNat_ofNat32 {n : Nat} (h : n < 2 ^ 32) : (BitVec.ofNat 32 n).toNat = n :=
  (BitVec.toNat_ofNat n 32).trans (Nat.mod_eq_of_lt h)

/-- The live output of a codec command, entry by entry. -/
theorem obByte_withOutput {s : State} {out : List Byte} {len bits k : Nat} {b : Byte}
    (hk : k < (BitVec.ofNat 32 len).toNat) (hb : out[k]? = some b) :
    (State.afterSuccess (s.withOutput out len bits)).obByte k = b :=
  obByte_live (s := State.afterSuccess (s.withOutput out len bits)) hk hb

/-- An entry of the output of a codec command, copied by the host to IB. -/
theorem ibByte_copied {s u : State} {out : List Byte} {len bits k : Nat} {b : Byte}
    (hcopy : ∀ k < (BitVec.ofNat 32 len).toNat,
      u.ibByte k = (State.afterSuccess (s.withOutput out len bits)).obByte k)
    (hinLen : u.inLen = BitVec.ofNat 32 len) (hk : k < u.inLen.toNat) (hb : out[k]? = some b) : u.ibByte k = b := by
  rw [hinLen] at hk
  exact (hcopy k hk).trans (obByte_withOutput hk hb)

/-- A decoder that reads the codes of another block's input ends with that input as its output. -/
theorem Decodes.restores {i : Instr} {s u : State} (hd : Decodes i u (encodeSymbols u.ct s.input)) (h : u.Inv)
    (hp : u.phase = .ready) (hknown : ∀ x ∈ s.input, ctValid u.ct x = true) (hcap : s.inLen.toNat ≤ u.cfg.obCap) :
    ∃ v, exec i u = .next v ∧ v.errFlag = false ∧ v.outLen = s.inLen ∧
      ∀ k < s.inLen.toNat, v.obByte k = s.ibByte k := by
  have hlen : BitVec.ofNat 32 s.input.length = s.inLen := by
    rw [State.input_length, BitVec.ofNat_toNat, BitVec.setWidth_eq]
  refine ⟨_, hd.exec_of_symbols h hp hknown (s.input_length ▸ hcap), rfl, hlen, fun k hk => ?_⟩
  exact obByte_withOutput (hlen ▸ hk) (State.input_getElem? hk)

/-- Settles O38: the payload in IB unpacks to the concatenation of codes that ENC packed, which DEC undoes. -/
theorem decodingThePackedPayloadRestoresTheSymbols : Obligations.DecodingThePackedPayloadRestoresTheSymbols := by
  intro s t u hs _ _ henc herr hu hup _ hct hinLen hinBits hcopy hlen hcap
  obtain ⟨hknown, hfit, rfl⟩ := isEncoder_enc.success henc herr
  rw [← hct] at hknown hfit hinLen hinBits hcopy
  obtain ⟨hcfg, -⟩ := hs
  have hfits : ceilDiv (encodeSymbols u.ct s.input).length 8 ≤ 65536 := hfit.trans (caps_le hcfg).2
  have hpacked : (encodeSymbols u.ct s.input).length ≤ 8 * ceilDiv (encodeSymbols u.ct s.input).length 8 := by
    rw [ceilDiv]; omega
  have hbytes : u.inLen.toNat = ceilDiv (encodeSymbols u.ct s.input).length 8 :=
    (congrArg BitVec.toNat hinLen).trans (toNat_ofNat32 (by omega))
  have hcount : u.inBits.toNat = (encodeSymbols u.ct s.input).length :=
    (congrArg BitVec.toNat hinBits).trans (toNat_ofNat32 (by omega))
  have hpayload : u.payloadBits = encodeSymbols u.ct s.input := by
    rw [State.payloadBits, hcount]
    refine unpackBits_packed fun k hk => ?_
    exact ibByte_copied hcopy hinLen (hbytes.symm ▸ hk) (packBits_getElem? hk)
  exact (decodes_dec hup hlen (by omega) hpayload).restores hu hup hknown hcap

/-- Settles O39: the characters in IB are those of the concatenation of codes that ENCS wrote, which DECS undoes. -/
theorem decodingTheBitStringRestoresTheSymbols : Obligations.DecodingTheBitStringRestoresTheSymbols := by
  intro s t u hs _ _ hencs herr hu hup _ hct hinLen hcopy hlen hcap
  obtain ⟨hknown, hfit, rfl⟩ := isEncoder_encs.success hencs herr
  rw [← hct] at hknown hfit hinLen hcopy
  obtain ⟨hcfg, -⟩ := hs
  have hfits : (encodeSymbols u.ct s.input).length ≤ 65536 := hfit.trans (caps_le hcfg).2
  have hchars : u.inLen.toNat = (encodeSymbols u.ct s.input).length :=
    (congrArg BitVec.toNat hinLen).trans (toNat_ofNat32 (by omega))
  have hin : u.input = (encodeSymbols u.ct s.input).map bitChar := by
    refine List.ext_getElem (by simp [hchars]) fun k hk hk' => ?_
    rw [State.input_getElem]
    exact ibByte_copied hcopy hinLen (u.input_length ▸ hk) (List.getElem?_eq_getElem hk')
  exact (decodes_decs_of_bitChars hup hlen hin).restores hu hup hknown hcap

end Sys2Proof.Machine

/-! SUPPORT. The statements of 60_exceptions: every good state has a next state, what a fault leaves, and what moves
HERR. -/

namespace Sys2Proof.Machine

/-! ### Nothing stops the machine (60 R127, R128, R134; 42 R94) -/

/-- A legal command of a good block is not refused: DERIVE walks the tree that the invariant gives, CONSTRUCT the tree
that BUILDT has just made (93 U13). -/
theorem bodyOf_ne_refuse {i : Instr} {s : State} (h : DataOk s) (hlegal : phaseFault i s.phase = none) (r : Refusal) :
    bodyOf i s ≠ .refuse r := by
  intro hr
  obtain ⟨-, ⟨hft, -, -⟩, ⟨-, htree, -⟩, -⟩ := h
  obtain ⟨-, ⟨rfl, hv⟩ | ⟨rfl, hf, hv⟩⟩ := bodyOf_refuse hr
  · have hp : s.phase = .tree := by simpa [phaseFault_eq_none_iff] using hlegal
    obtain ⟨es, hes, -⟩ := (htree hp).1.visit
    exact nomatch hv.symm.trans hes
  · obtain ⟨es, hes, -⟩ := (buildtBody_treeOk hft (buildtBody_of_legal hf)).visit
    exact nomatch hv.symm.trans hes

theorem exec_exists_next {s : State} (h : DataOk s) (i : Instr) : ∃ t, exec i s = .next t := by
  cases hp : phaseFault i s.phase with
  | some fp => exact ⟨_, exec_illegal hp⟩
  | none =>
    cases hb : bodyOf i (s.accept (encode i)) with
    | done u => exact ⟨_, exec_done hp hb⟩
    | raise f pos => exact ⟨_, exec_raise hp hb⟩
    | refuse r =>
      have ha : DataOk (s.accept (encode i)) := h
      exact absurd hb (bodyOf_ne_refuse ha hp r)

theorem runWord_exists_next {s : State} (h : DataOk s) (w : Word) : ∃ t, runWord w s = .next t := by
  cases hd : decode w with
  | ok i => rw [runWord_of_ok hd]; exact exec_exists_next h i
  | error e => exact ⟨_, runWord_of_error hd s⟩

theorem finishFlight_exists_next {s : State} (h : s.Inv) : ∃ t, finishFlight s = .next t := by
  cases he : s.engine with
  | none => exact ⟨s, by rw [finishFlight, he]⟩
  | some w => rw [finishFlight, he]; exact runWord_exists_next ((inv_iff s).1 h).2 w

theorem settle_exists_next {s : State} (h : s.Inv) : ∃ t, settle s = .next t := by
  cases he : s.engine with
  | none => exact ⟨s, settle_idle he⟩
  | some w =>
    obtain hflight | hdone := settle_busy he
    · exact ⟨_, hflight⟩
    · have hd : DataOk { s with pick := s.pick + 1 } := ((inv_iff s).1 h).2
      rw [hdone]; exact runWord_exists_next hd w

theorem waitLine_exists_next {s : State} (h : s.Inv) : ∃ t, waitLine s = .next t := by
  obtain ⟨u, hu⟩ := finishFlight_exists_next h
  exact ⟨_, by rw [waitLine, hu, andThen]⟩

theorem commandLine_exists_next {s : State} (h : s.Inv) (w : Word) : ∃ t, commandLine w s = .next t :=
  waitLine_exists_next (memWrite_inv h _ _)

theorem runLine_exists_next {s : State} (h : s.Inv) (l : Line) : ∃ t, runLine l s = .next t := by
  obtain ⟨u, hu⟩ := settle_exists_next h
  cases l with
  | wr a v => exact ⟨_, by rw [runLine, hu, andThen]⟩
  | rd a => exact ⟨_, by rw [runLine, hu, andThen]⟩
  | cmd w => rw [runLine, hu, andThen]; exact commandLine_exists_next (settle_inv h hu) w
  | wait => exact waitLine_exists_next h
  | reset => exact ⟨_, rfl⟩

/-- Settles O60: each kind of line, and the command in flight when the script has ended, has a next state. -/
theorem everyGoodStateHasANextState : Obligations.EveryGoodStateHasANextState := by
  intro s h
  unfold SafeStep step machineStep
  split
  · exact finishFlight_exists_next h
  · have ha : s.advance.Inv := h
    exact runLine_exists_next ha _

/-! ### What a fault leaves (60 R127) -/

/-- The word of ERR as R127 writes it. -/
theorem CmdFault.errWord_eq_shift (f : CmdFault) :
    f.errWord = (f.sub.setWidth 32 <<< 8) ||| f.code.setWidth 32 := by
  cases f <;> decide

theorem decode_mem_codec_iff {w : Word} {i : Instr} (h : decode w = .ok i) :
    decode w ∈ [.ok .enc, .ok .encs, .ok .dec, .ok .decs] ↔ Instr.isCodec i = true := by
  rw [h]; cases i <;> decide

theorem decode_error_not_mem_codec {w : Word} {e : DecodeError} (h : decode w = .error e) :
    decode w ∉ [.ok .enc, .ok .encs, .ok .dec, .ok .decs] := by
  rw [h]; cases e <;> decide

theorem faultEntry_accept (s : State) (w : Word) (c : Bool) (f : CmdFault) (pos : Word) :
    (s.accept w).faultEntry c f pos =
      if c = true then s.afterCodecFault f.errWord pos else s.afterFault f.errWord pos := by
  cases c with
  | false => exact faultEntry_plain s w f pos
  | true => exact faultEntry_codec s w f pos

/-- Settles O41: a completion leaves STATUS.ERR down, so the word entered a fault, of the command it decoded to or of a
word that is no command. -/
theorem faultLeavesOnlyItsRecord : Obligations.FaultLeavesOnlyItsRecord := by
  intro w s t h herr
  obtain ⟨i, hi, hexec⟩ | ⟨e, he, rfl⟩ := runWord_next h
  · obtain ⟨u, -, hbody, rfl⟩ | ⟨f, pos, -, rfl⟩ := exec_next hexec
    · obtain ⟨-, -, hdown, -⟩ := bodyOf_done_frame hbody
      exact nomatch herr.symm.trans hdown
    · refine ⟨f, pos, ?_, ?_⟩
      · rw [State.faultEntry_errReg, if_congr (decode_mem_codec_iff hi) rfl rfl, faultEntry_accept]
      · rw [State.faultEntry_errReg, f.errWord_eq_shift]
  · refine ⟨illegalCause e, w, ?_, ?_⟩
    · rw [if_neg (decode_error_not_mem_codec he), illegalWord_eq_afterFault]; rfl
    · rw [illegalWord_eq_afterFault]; exact (illegalCause e).errWord_eq_shift

/-! ### What moves HERR (60 R131; 20_memory R54) -/

/-- The block drops a write to address `a`: its engine is busy, or the location takes no write in this phase. -/
def State.dropsWrite (s : State) (a : Addr) : Prop :=
  s.busy = true ∨
    (locate s.cfg a ∉ [.cmd, .status, .inLen, .inBits] ∧ (∀ j, locate s.cfg a ≠ .ib j) ∧
      (s.phase = .empty → ∀ k, locate s.cfg a ≠ .ftFreq k ∧ locate s.cfg a ≠ .ftPresent k))

/-- The next line clears HERR: a reset, or a write to STATUS with bit 5 set. -/
def State.nextLineClearsHerr (s : State) : Prop :=
  (∃ rest, s.script = .reset :: rest) ∨
    (∃ a v rest, s.script = .wr a v :: rest ∧ locate s.cfg a = .status ∧ v.getLsbD 5 = true)

/-- The next line is a write that the block drops: a command word sent to a busy engine, or a dropped write. -/
def State.nextLineIsDropped (s : State) : Prop :=
  (s.busy = true ∧ ∃ w rest, s.script = .cmd w :: rest) ∨
    (∃ a v rest, s.script = .wr a v :: rest ∧ s.dropsWrite a)

theorem runWord_keeps_herrFlag {w : Word} {s t : State} (h : runWord w s = .next t) :
    t.herrFlag = s.herrFlag ∧ t.cfg = s.cfg := by
  obtain ⟨i, -, hexec⟩ | ⟨e, -, rfl⟩ := runWord_next h
  · obtain ⟨hcfg, hherr, -⟩ := exec_keeps_inputs hexec
    exact ⟨hherr, hcfg⟩
  · rw [illegalWord_eq_afterFault]; exact ⟨rfl, rfl⟩

theorem finishFlight_keeps_herrFlag {s t : State} (h : finishFlight s = .next t) : t.herrFlag = s.herrFlag := by
  obtain ⟨-, rfl⟩ | ⟨w, -, hrun⟩ := finishFlight_next h
  · rfl
  · exact (runWord_keeps_herrFlag hrun).1

theorem settle_keeps_herrFlag {s t : State} (h : settle s = .next t) : t.herrFlag = s.herrFlag ∧ t.cfg = s.cfg := by
  obtain ⟨-, rfl⟩ | ⟨w, -, rfl | hrun⟩ := settle_next h
  · exact ⟨rfl, rfl⟩
  · exact ⟨rfl, rfl⟩
  · obtain ⟨hherr, hcfg⟩ := runWord_keeps_herrFlag hrun
    exact ⟨hherr, hcfg⟩

/-- The free choice changes nothing but on a busy engine. -/
theorem settle_eq_or_busy {s t : State} (h : settle s = .next t) : t = s ∨ s.busy = true := by
  obtain ⟨-, rfl⟩ | ⟨w, hw, -⟩ := settle_next h
  · exact .inl rfl
  · exact .inr (congrArg Option.isSome hw)

theorem memRead_keeps_herrFlag (s : State) (a : Addr) : (s.memRead a).herrFlag = s.herrFlag := by
  obtain ⟨w, n, h⟩ := memRead_frame s a
  rw [h]

/-- What a write does to HERR: nothing, clear it through STATUS, or set it because the write is dropped. -/
theorem memWrite_herrFlag_cases (s : State) (a : Addr) (v : Word) :
    (s.memWrite a v).herrFlag = s.herrFlag ∨
    ((s.memWrite a v).herrFlag = false ∧ locate s.cfg a = .status ∧ v.getLsbD 5 = true) ∨
    ((s.memWrite a v).herrFlag = true ∧ s.dropsWrite a) := by
  by_cases hb : s.busy = true
  · rw [memWrite_busy hb]; exact .inr (.inr ⟨rfl, .inl hb⟩)
  · have he : s.engine = none := by simpa [State.busy] using hb
    rw [memWrite_idle he]
    obtain ⟨-, h⟩ | ⟨hl, h⟩ | ⟨-, h⟩ | ⟨-, h⟩ | ⟨k, -, -, h⟩ | ⟨k, -, -, h⟩ | ⟨j, -, h⟩ | ⟨hreg, hib, hft, h⟩ :=
      writeLoc_cases s v (locate s.cfg a) <;> rw [h]
    · obtain ⟨_, _, _, _, _, hw⟩ := presentWord_frame s v
      rw [hw]; exact .inl rfl
    · cases hv : v.getLsbD 5 with
      | false => exact .inl (Bool.and_true _)
      | true => exact .inr (.inl ⟨Bool.and_false _, hl, rfl⟩)
    · exact .inl rfl
    · exact .inl rfl
    · exact .inl rfl
    · exact .inl (by rw [writeFtPresent_frame])
    · exact .inl rfl
    · exact .inr (.inr ⟨rfl, .inr ⟨hreg, hib, hft⟩⟩)

/-- A command's line sets HERR where the engine is busy, since its write is dropped, and keeps it otherwise. -/
theorem commandLine_herrFlag {w : Word} {s t : State} (h : commandLine w s = .next t) :
    t.herrFlag = s.herrFlag ∨ (t.herrFlag = true ∧ s.busy = true) := by
  obtain ⟨u, rfl, ⟨-, hrun⟩ | ⟨x, hx, hrun⟩⟩ := commandLine_next h
  · exact .inl (runWord_keeps_herrFlag hrun).1
  · exact .inr ⟨(runWord_keeps_herrFlag hrun).1, congrArg Option.isSome hx⟩

/-- What a step does to HERR. -/
theorem step_herrFlag_cases {s t : State} (h : step s = .next t) :
    t.herrFlag = s.herrFlag ∨ (t.herrFlag = false ∧ s.nextLineClearsHerr) ∨
      (t.herrFlag = true ∧ s.nextLineIsDropped) := by
  obtain ⟨-, hf⟩ | ⟨a, v, rest, u, hs, hu, rfl⟩ | ⟨a, rest, u, -, hu, rfl⟩ | ⟨w, rest, u, hs, hu, hc⟩ | ⟨rest, -, hw⟩ |
    ⟨rest, hs, rfl⟩ := step_next h
  · exact .inl (finishFlight_keeps_herrFlag hf)
  · obtain ⟨hherr, hcfg⟩ := settle_keeps_herrFlag hu
    obtain hkept | ⟨hlow, hstatus, hbit⟩ | ⟨hhigh, hdrop⟩ := memWrite_herrFlag_cases u a v
    · exact .inl (hkept.trans hherr)
    · rw [hcfg] at hstatus
      exact .inr (.inl ⟨hlow, .inr ⟨a, v, rest, hs, hstatus, hbit⟩⟩)
    · have hdrop : s.dropsWrite a := by
        obtain rfl | hbusy := settle_eq_or_busy hu
        · exact hdrop
        · exact .inl hbusy
      exact .inr (.inr ⟨hhigh, .inr ⟨a, v, rest, hs, hdrop⟩⟩)
  · exact .inl ((memRead_keeps_herrFlag u a).trans (settle_keeps_herrFlag hu).1)
  · obtain hkept | ⟨hhigh, hbusy⟩ := commandLine_herrFlag hc
    · exact .inl (hkept.trans (settle_keeps_herrFlag hu).1)
    · have hbusy : s.busy = true := by
        obtain rfl | hb := settle_eq_or_busy hu
        · exact hbusy
        · exact hb
      exact .inr (.inr ⟨hhigh, .inl ⟨hbusy, w, rest, hs⟩⟩)
  · obtain ⟨u, hu, rfl⟩ := waitLine_next hw
    have hkept : u.herrFlag = s.advance.herrFlag := finishFlight_keeps_herrFlag hu
    exact .inl hkept
  · exact .inr (.inl ⟨rfl, .inl ⟨rest, hs⟩⟩)

/-- Settles O56, by the three things a step can do to HERR. -/
theorem herrRisesOnDroppedWritesOnly : Obligations.HerrRisesOnDroppedWritesOnly := by
  intro s t h
  obtain hkept | ⟨hlow, hclear⟩ | ⟨hhigh, hdrop⟩ := step_herrFlag_cases h
  · exact ⟨fun hs ht => by simp [hkept, hs] at ht, fun hs ht => by simp [hkept, hs] at ht⟩
  · exact ⟨fun _ _ => hclear, fun _ ht => by simp [hlow] at ht⟩
  · exact ⟨fun _ ht => by simp [hhigh] at ht, fun _ _ => hdrop⟩

end Sys2Proof.Machine

/-! SUPPORT. The statements of 70_reset_and_hazards: what makes an idle engine busy, and what a reset line leaves. -/

namespace Sys2Proof.Machine

/-! ### What makes an idle engine busy (70 R141) -/

theorem State.busy_of_idle {s : State} (he : s.engine = none) : s.busy = false := congrArg Option.isSome he

theorem memRead_engine (s : State) (a : Addr) : (s.memRead a).engine = s.engine := by
  obtain ⟨w, n, h⟩ := memRead_frame s a
  rw [h]

/-- Only a write to CMD touches the engine. -/
theorem writeLoc_engine (s : State) (v : Word) {l : Loc} (hl : l ≠ .cmd) : (s.writeLoc v l).engine = s.engine := by
  obtain ⟨hcmd, -⟩ | ⟨-, h⟩ | ⟨-, h⟩ | ⟨-, h⟩ | ⟨k, -, -, h⟩ | ⟨k, -, -, h⟩ | ⟨j, -, h⟩ | ⟨-, -, -, h⟩ :=
    writeLoc_cases s v l
  · exact absurd hcmd hl
  · rw [h]
  · rw [h]
  · rw [h]
  · rw [h]
  · rw [h, writeFtPresent_frame]
  · rw [h, State.writeIb_engine]
  · rw [h, State.dropWrite_engine]

/-- Of the words presented on CMD only a command leaves the engine busy, with that word in flight. -/
theorem presentWord_busy {s : State} {w : Word} (hb : (s.presentWord w).busy = true) :
    (s.presentWord w).engine = some w ∧ ∃ i, decode w = .ok i := by
  cases h : decode w with
  | ok i =>
    rw [presentWord_of_ok h]
    exact ⟨rfl, i, rfl⟩
  | error e =>
    rw [presentWord_of_error h] at hb
    cases hb

/-- A write that makes an idle block busy is a command written to CMD. -/
theorem writeLoc_busy {s : State} {v : Word} {l : Loc} (he : s.engine = none) (hb : (s.writeLoc v l).busy = true) :
    l = .cmd ∧ (s.writeLoc v l).engine = some v ∧ ∃ i, decode v = .ok i := by
  by_cases hl : l = .cmd
  · subst hl
    exact ⟨rfl, presentWord_busy hb⟩
  · have hidle : (s.writeLoc v l).engine = none := (writeLoc_engine s v hl).trans he
    rw [State.busy_of_idle hidle] at hb
    cases hb

/-- A step from an idle engine leaves it idle or is a write. -/
theorem step_idle_or_write {s t : State} (he : s.engine = none) (h : step s = .next t) :
    t.busy = false ∨ ∃ a v rest, s.script = .wr a v :: rest ∧ t = s.advance.writeLoc v (locate s.cfg a) := by
  obtain ⟨-, hf⟩ | ⟨a, v, rest, -, hs, -, -⟩ | ⟨a, rest, -, hs, -, -⟩ | ⟨w, rest, u, -, -, hc⟩ | ⟨rest, -, hw⟩ |
    ⟨rest, -, rfl⟩ := step_next h
  · exact .inl (State.busy_of_idle (finishFlight_idle hf))
  · exact .inr ⟨a, v, rest, hs, Host.Outcome.next.inj (h.symm.trans (step_wr he hs))⟩
  · obtain rfl := Host.Outcome.next.inj (h.symm.trans (step_rd he hs))
    exact .inl (State.busy_of_idle ((memRead_engine s.advance a).trans he))
  · exact .inl (waitLine_ends hc).1
  · exact .inl (waitLine_ends hw).1
  · exact .inl rfl

/-- Settles O6: every other line ends idle, and of the writes only a command written to CMD makes the engine busy. -/
theorem engineStaysIdleUntilCmdIsWritten : Obligations.EngineStaysIdleUntilCmdIsWritten := by
  refine fun s he => ⟨fun hs => ?_, fun t h hb => ?_⟩
  · simp only [step, machineStep, hs, finishFlight, he]
  · obtain hidle | ⟨a, v, rest, hs, rfl⟩ := step_idle_or_write he h
    · rw [hidle] at hb
      cases hb
    · obtain ⟨hcmd, hflight, hdecode⟩ := writeLoc_busy (s := s.advance) he hb
      exact ⟨a, v, rest, hs, hcmd, hflight, hdecode⟩

/-! ### What a reset line leaves (70 R140; 10_state R30) -/

theorem step_reset {s : State} {rest : List Line} (hs : s.script = .reset :: rest) :
    step s = .next s.advance.resetBlock := by
  simp only [step, machineStep, hs, runLine]

/-- A block just reset reads 0 at every location outside the two buffers. -/
theorem readLoc_resetBlock (s : State) {l : Loc} (hib : ∀ j, l ≠ .ib j) (hob : ∀ j, l ≠ .ob j) :
    s.resetBlock.readLoc l = 0 := by
  cases l with
  | ib j => exact absurd rfl (hib j)
  | ob j => exact absurd rfl (hob j)
  | status =>
    change State.reset.statusWord = 0
    decide
  | ftPresent k =>
    change 0#31 ++ BitVec.ofBool false = 0
    decide
  | _ => rfl

/-- Settles O10: the step is the reset of the block, which puts every field at its reset value. -/
theorem resetLineClearsTheBlock : Obligations.ResetLineClearsTheBlock := by
  intro s rest hs
  refine ⟨s.advance.resetBlock, step_reset hs, rfl, rfl, fun l => readLoc_resetBlock s.advance, rfl, ?_⟩
  rw [State.resetBlock_script, State.advance_script, hs, List.tail_cons]

end Sys2Proof.Machine
